-- ==== Sys2Proof/Word.lean ====
section
/-! DEFINITION. The machine's word types (spec/00_scope.md R7, R8). -/

namespace Sys2Proof

/-- A byte of a buffer. -/
abbrev Byte := BitVec 8

/-- A register: every register is 32 bits (R7). -/
abbrev Word := BitVec 32

/-- A host address: 26 bits (R7, spec/20_memory.md R62). -/
abbrev Addr := BitVec 26

end Sys2Proof
end

