-- ==== Sys2Proof/Syntax.lean ====
section
/-! DEFINITION. The commands of spec/opcode_table.json (spec/30_encoding.md R82), one constructor per row, and
the header layouts their LAYOUT field selects (R85). -/

namespace Sys2Proof

/-- The five header layouts (spec/30_encoding.md R85). -/
inductive Layout where
  /-- LAYOUT 0, the 64-byte outer header. -/
  | stiHeader
  /-- LAYOUT 1, the 20-byte truecolour sub-header. -/
  | truecolorSub
  /-- LAYOUT 2, the 20-byte indexed sub-header. -/
  | indexedSub
  /-- LAYOUT 3, the 16-byte sub-image descriptor. -/
  | subImage
  /-- LAYOUT 4, the 16-byte tile record. -/
  | tile
deriving DecidableEq, Repr

/-- A command (spec/30_encoding.md R82). LAYOUT is kept as its four bits: the words with LAYOUT 5 to 15 match
their row of R83 and are rejected by the command itself (R84, log entry 15). -/
inductive Instr where
  /-- HDR_DECODE LAYOUT (spec/41_header.md R130). -/
  | hdrDecode (layout : BitVec 4)
  /-- HDR_ENCODE LAYOUT (R135). -/
  | hdrEncode (layout : BitVec 4)
  /-- FLAG_GET LAYOUT FIDX (R140). -/
  | flagGet (layout : BitVec 4) (fidx : BitVec 5)
  /-- FLAG_PUT LAYOUT FIDX FVAL (R145). -/
  | flagPut (layout : BitVec 4) (fidx : BitVec 5) (fval : Bool)
  /-- STI_CHECK (R150). -/
  | stiCheck
  /-- CSPEC_VALIDATE (spec/42_color.md R163). -/
  | cspecValidate
  /-- PIX_UNPACK (R168). -/
  | pixUnpack
  /-- PIX_PACK (R169). -/
  | pixPack
  /-- PIX_DECODE (R171). -/
  | pixDecode
  /-- PIX_ENCODE (R172). -/
  | pixEncode
  /-- ETRLE_COMPRESS (spec/43_etrle.md R205). -/
  | etrleCompress
  /-- ETRLE_DECOMPRESS (R207). -/
  | etrleDecompress
deriving DecidableEq, Repr

end Sys2Proof
end

