-- ==== Sys2Proof/WellFormed.lean ====
section
/-! DEFINITION. Which commands are legal as command words (spec/30_encoding.md R84, R85): a LAYOUT field selects
one of the five layouts. FIDX and FVAL have no illegal value (R86, R87). -/

namespace Sys2Proof

/-- LAYOUT 0 to 4 name a layout (spec/30_encoding.md R85). -/
def layoutWellFormed (layout : BitVec 4) : Bool := decide (layout.toNat < 5)

/-- The command's word is legal: it matches its row of R83 and its LAYOUT, if it uses one, is 0 to 4. -/
def Instr.wellFormed : Instr → Bool
  | .hdrDecode layout => layoutWellFormed layout
  | .hdrEncode layout => layoutWellFormed layout
  | .flagGet layout _ => layoutWellFormed layout
  | .flagPut layout _ _ => layoutWellFormed layout
  | .stiCheck => true
  | .cspecValidate => true
  | .pixUnpack => true
  | .pixPack => true
  | .pixDecode => true
  | .pixEncode => true
  | .etrleCompress => true
  | .etrleDecompress => true

end Sys2Proof
end

