-- ==== Sys2Proof/Decode.lean ====
section
/-! DEFINITION. The decoder of a CMD word, total on all words and rejecting by name, and the encoder
(spec/30_encoding.md R80 to R88). -/

namespace Sys2Proof

/-- The twelve operation codes (spec/30_encoding.md R82). -/
inductive Opcode where
  | hdrDecode | hdrEncode | flagGet | flagPut | stiCheck
  | cspecValidate | pixUnpack | pixPack | pixDecode | pixEncode
  | etrleCompress | etrleDecompress
deriving DecidableEq, Repr

/-- Why a word is no command (spec/30_encoding.md R84, causes 0 and 1; cause 2 is the command's own check). -/
inductive DecodeError where
  /-- OPC is none of the twelve values. -/
  | unknownOpcode
  /-- A reserved field, or a field the opcode does not use, is not 0. -/
  | fieldNotZero
deriving DecidableEq, Repr

/-- A row of the table of R83: a word selects it when its bits under `mask` equal `pattern`. -/
structure OpcodeRow where
  op : Opcode
  mnemonic : String
  pattern : Word
  mask : Word
deriving DecidableEq, Repr

/-- The table of R83, row by row. -/
def opcodeTable : List OpcodeRow :=
  [ ⟨.hdrDecode,       "HDR_DECODE",       0x00000001#32, 0xFFFFF0FF#32⟩,
    ⟨.hdrEncode,       "HDR_ENCODE",       0x00000002#32, 0xFFFFF0FF#32⟩,
    ⟨.flagGet,         "FLAG_GET",         0x00000003#32, 0xFFE0F0FF#32⟩,
    ⟨.flagPut,         "FLAG_PUT",         0x00000004#32, 0xFEE0F0FF#32⟩,
    ⟨.stiCheck,        "STI_CHECK",        0x00000005#32, 0xFFFFFFFF#32⟩,
    ⟨.cspecValidate,   "CSPEC_VALIDATE",   0x00000010#32, 0xFFFFFFFF#32⟩,
    ⟨.pixUnpack,       "PIX_UNPACK",       0x00000011#32, 0xFFFFFFFF#32⟩,
    ⟨.pixPack,         "PIX_PACK",         0x00000012#32, 0xFFFFFFFF#32⟩,
    ⟨.pixDecode,       "PIX_DECODE",       0x00000013#32, 0xFFFFFFFF#32⟩,
    ⟨.pixEncode,       "PIX_ENCODE",       0x00000014#32, 0xFFFFFFFF#32⟩,
    ⟨.etrleCompress,   "ETRLE_COMPRESS",   0x00000020#32, 0xFFFFFFFF#32⟩,
    ⟨.etrleDecompress, "ETRLE_DECOMPRESS", 0x00000021#32, 0xFFFFFFFF#32⟩ ]

/-- OPC is bits 7:0 (R80). -/
def cmdOpc (w : Word) : BitVec 8 := w.extractLsb' 0 8

/-- LAYOUT is bits 11:8 (R80, R81: an unsigned number). -/
def cmdLayout (w : Word) : BitVec 4 := w.extractLsb' 8 4

/-- FIDX is bits 20:16 (R80, R86). -/
def cmdFidx (w : Word) : BitVec 5 := w.extractLsb' 16 5

/-- FVAL is bit 24 (R80, R87). -/
def cmdFval (w : Word) : Bool := w.getLsbD 24

/-- The command an opcode makes of the word's fields (R82, column "fields used"). -/
def buildInstr (op : Opcode) (w : Word) : Instr :=
  match op with
  | .hdrDecode => .hdrDecode (cmdLayout w)
  | .hdrEncode => .hdrEncode (cmdLayout w)
  | .flagGet => .flagGet (cmdLayout w) (cmdFidx w)
  | .flagPut => .flagPut (cmdLayout w) (cmdFidx w) (cmdFval w)
  | .stiCheck => .stiCheck
  | .cspecValidate => .cspecValidate
  | .pixUnpack => .pixUnpack
  | .pixPack => .pixPack
  | .pixDecode => .pixDecode
  | .pixEncode => .pixEncode
  | .etrleCompress => .etrleCompress
  | .etrleDecompress => .etrleDecompress

/-- The decoder (R83, R84): the row whose OPC the word has, then that row's mask. A word of LAYOUT 5 to 15
decodes, and its command rejects it (log entry 15). -/
def decode (w : Word) : Except DecodeError Instr :=
  match opcodeTable.find? (fun r => r.pattern.extractLsb' 0 8 == cmdOpc w) with
  | none => .error .unknownOpcode
  | some r =>
    if w &&& r.mask = r.pattern then .ok (buildInstr r.op w) else .error .fieldNotZero

/-- The fields of a command word put in their places (R80; the sum of spec/30_encoding.md R92). -/
def cmdWord (opc : BitVec 8) (layout : BitVec 4) (fidx : BitVec 5) (fval : Bool) : Word :=
  opc.zeroExtend 32 ||| (layout.zeroExtend 32 <<< 8) ||| (fidx.zeroExtend 32 <<< 16)
    ||| ((BitVec.ofBool fval).zeroExtend 32 <<< 24)

/-- The encoder: the word of a command (R80 to R83), every field the command does not use 0 (R81). -/
def encode : Instr → Word
  | .hdrDecode layout => cmdWord 0x01#8 layout 0 false
  | .hdrEncode layout => cmdWord 0x02#8 layout 0 false
  | .flagGet layout fidx => cmdWord 0x03#8 layout fidx false
  | .flagPut layout fidx fval => cmdWord 0x04#8 layout fidx fval
  | .stiCheck => cmdWord 0x05#8 0 0 false
  | .cspecValidate => cmdWord 0x10#8 0 0 false
  | .pixUnpack => cmdWord 0x11#8 0 0 false
  | .pixPack => cmdWord 0x12#8 0 0 false
  | .pixDecode => cmdWord 0x13#8 0 0 false
  | .pixEncode => cmdWord 0x14#8 0 0 false
  | .etrleCompress => cmdWord 0x20#8 0 0 false
  | .etrleDecompress => cmdWord 0x21#8 0 0 false

/-- The opcode of a command. -/
def Instr.opcode : Instr → Opcode
  | .hdrDecode _ => .hdrDecode
  | .hdrEncode _ => .hdrEncode
  | .flagGet _ _ => .flagGet
  | .flagPut _ _ _ => .flagPut
  | .stiCheck => .stiCheck
  | .cspecValidate => .cspecValidate
  | .pixUnpack => .pixUnpack
  | .pixPack => .pixPack
  | .pixDecode => .pixDecode
  | .pixEncode => .pixEncode
  | .etrleCompress => .etrleCompress
  | .etrleDecompress => .etrleDecompress

/-- The word of a table row's instruction whose bits are `w`, of which the table gives `nbits` (every bit
above them is 0; a command is one 32-bit word, R88). -/
def tableWord (nbits w : Nat) : Word := BitVec.ofNat 32 (w % 2 ^ nbits)

/-- What the decoder reads from such a word. -/
def decodeTableWord (nbits w : Nat) : Option Instr := (decode (tableWord nbits w)).toOption

end Sys2Proof
end

