-- ==== Sys2Proof/Machine/Bits.lean ====
section
/-! DEFINITION. Byte order, saturation and bit positions (spec/00_scope.md R9, R10). -/

namespace Sys2Proof.Machine

/-- `LE(s)`: the number whose bytes are `s`, the first one least significant (R10). -/
def le : List Byte → Nat
  | [] => 0
  | b :: bs => b.toNat + 256 * le bs

/-- `LEbytes_n(v)`: the n bytes of `v`, the least significant first (R10). -/
def leBytes : Nat → Nat → List Byte
  | 0, _ => []
  | n + 1, v => BitVec.ofNat 8 v :: leBytes n (v / 256)

/-- `sat32(v)`: the smaller of `v` and 0xFFFFFFFF (R9). -/
def sat32 (v : Nat) : Word := BitVec.ofNat 32 (min v 0xFFFFFFFF)

/-- `tz(m)`: the index of the lowest set bit of `m` (R9), and 32 for `m = 0`, where the spec gives none and no
rule uses it. -/
def tz (m : Word) : Nat := ((List.range 32).find? (fun i => m.getLsbD i)).getD 32

end Sys2Proof.Machine
end

