-- ==== Sys2Proof/Config.lean ====
section
/-! DEFINITION. What an instance fixes (spec/00_scope.md R6), the constants of the identification
registers, and the free values: what the spec leaves open and no proof may know. -/

namespace Sys2Proof.Config

/-- The ID register's constant (spec/10_state.md R23). -/
def idValue : Word := 0x4C525445#32

/-- The VERSION register's constant (spec/10_state.md R24). -/
def versionValue : Word := 0x00010000#32

/-- DESIGN CHOICE (log entry 2, unsafe): the spec leaves `IBUF_SIZE` OPEN and suggests 65536 (R6).
Only `State.reset` uses this value; every other definition reads the size from the state. -/
def ibufSize : Word := 65536#32

/-- DESIGN CHOICE (log entry 2, unsafe): as `ibufSize`, for `OBUF_SIZE`. -/
def obufSize : Word := 65536#32

/-- Free value (log entry 1, safe): the byte that power-on number `power` leaves at an IBUF offset
(spec/70_reset_and_hazards.md R260: "unspecified: each byte holds some value 0 to 255"). -/
opaque ibufPowerOn (power offset : Nat) : Byte

/-- Free value (log entry 1, safe): as `ibufPowerOn`, for OBUF. -/
opaque obufPowerOn (power offset : Nat) : Byte

/-- Free value (log entry 3, safe): how many environment steps pass between the start of the n-th
command and its completing step, where the state lists no choice of the environment
(spec/40_command.md R104). `LATENCY` is this number plus one, so it is positive. -/
opaque latency (n : Nat) : Nat

end Sys2Proof.Config
end

