-- ==== Sys2Proof/Machine/State.lean ====
section
/-! DEFINITION. The machine's state as plain data (spec/10_state.md R20), the reasons a step can stop, and the
state after power-on reset (spec/70_reset_and_hazards.md R260). -/

namespace Sys2Proof.Machine

/-- The block has no fault: no host access raises a bus error (spec/20_memory.md R63), a command error is a
completion and not a trap (spec/60_exceptions.md R242), and no behaviour hangs (spec/93). So this type has no
constructor. -/
inductive Fault
deriving DecidableEq, Repr

/-- Why a command has no meaning. -/
inductive Refusal where
  /-- Raised by an arm of `exec` whose command is not modelled. Safe. No arm raises it. -/
  | notModelled (mnemonic : String)
deriving DecidableEq, Repr

/-- The error codes of STATUS.ERRCODE that are ever produced (spec/60_exceptions.md R230). -/
inductive ErrCode where
  | none | truncatedInput | fieldOverflow | unknownFlag | invalidSpec | invalidComponent
  | malformedRun | formatMismatch | unsupportedFeature | illegalCommand | bufferRange
  | outputOverflow
deriving DecidableEq, Repr

/-- A raised error: its code and the ERRINFO value (spec/00_scope.md R12, spec/60_exceptions.md R231). -/
structure Err where
  code : ErrCode
  info : Word
deriving DecidableEq, Repr

/-- A byte buffer (spec/20_memory.md R60, R61). `cells` lists the bytes written since power-on, at strictly
rising offsets; an offset that is not listed holds the free byte of power-on number `power` (log entry 1). -/
structure Memory where
  cells : List Host.Cell
  power : Nat
deriving DecidableEq, Repr

/-- What a command can read (spec/40_command.md R103): the RW operand registers of spec/10_state.md R30 to R42, the
field register file (R43) and IBUF (spec/20_memory.md R60). -/
structure Operands where
  srcOff : Word
  srcLen : Word
  dstOff : Word
  dstCap : Word
  lineLen : Word
  lineCnt : Word
  pixCount : Word
  cmaskR : Word
  cmaskG : Word
  cmaskB : Word
  cmaskA : Word
  cdepth : Word
  /-- CTOTAL bits 7:0; bits 31:8 are RAZ/WI (R40). -/
  ctotal : BitVec 8
  raw : Word
  compR : Word
  compG : Word
  compB : Word
  compA : Word
  frf : Vector Word 14
  ibuf : Memory
deriving DecidableEq, Repr

/-- The running command (spec/10_state.md R46): its word, the operands it read at its start, and how many more
environment steps pass before it completes (the model's own count, log entry 3). -/
structure InFlight where
  word : Word
  operands : Operands
  remaining : Nat
deriving DecidableEq, Repr

/-- What a successful command writes (spec/40_command.md R106); an absent entry is left as it is. OUT_LEN is always
written: the number of OBUF bytes (spec/10_state.md R32). -/
structure Writes where
  /-- OBUF bytes, from DST_OFF upward. -/
  obuf : List Byte := []
  /-- FRF slots and their new values. -/
  frf : List (Nat × Word) := []
  flagres : Option Bool := none
  lines : Option Word := none
  /-- INFO's UNTERM and LENMIS. -/
  info : Option (Bool × Bool) := none
  raw : Option Word := none
  /-- COMP_R, COMP_G, COMP_B, COMP_A. -/
  comp : Option (Word × Word × Word × Word) := none
deriving DecidableEq, Repr

/-- The sizes of a host access (spec/20_memory.md R64, R65). -/
inductive Width where
  | w8 | w16 | w32
deriving DecidableEq, Repr

/-- The datum of a host write, with its size. -/
inductive HostData where
  | d8 (v : BitVec 8)
  | d16 (v : BitVec 16)
  | d32 (v : BitVec 32)
deriving DecidableEq, Repr

/-- What the environment does in one step (spec/60_exceptions.md R241, spec/70_reset_and_hazards.md R260). -/
inductive EnvOp where
  /-- The host reads. -/
  | read (addr : Addr) (width : Width)
  /-- The host writes. -/
  | write (addr : Addr) (data : HostData)
  /-- The host does nothing in this step. -/
  | idle
  /-- The reset input is asserted and released (R260). -/
  | powerOnReset
deriving DecidableEq, Repr

/-- The machine's state. -/
structure State where
  /-- CTRL.IE (R25). -/
  ie : Bool
  /-- STATUS.DONE (R26). BUSY is `engine.isSome`; ERR is ERRCODE ≠ 0. -/
  done : Bool
  /-- STATUS.WLOST (R26). -/
  wlost : Bool
  /-- STATUS.ERRCODE (R26, R230). -/
  errcode : ErrCode
  /-- CMD (R27). -/
  cmd : Word
  /-- ERRINFO (R28). -/
  errinfo : Word
  /-- IBUF_SIZE, the instance's parameter (R29). -/
  ibufSize : Word
  /-- OBUF_SIZE, the instance's parameter (R29). -/
  obufSize : Word
  /-- OUT_LEN (R32). -/
  outLen : Word
  /-- FLAGRES bit 0 (R35). -/
  flagres : Bool
  /-- LINES (R36). -/
  lines : Word
  /-- INFO.UNTERM (R37). -/
  unterm : Bool
  /-- INFO.LENMIS (R37). -/
  lenmis : Bool
  /-- The RW operand registers, FRF and IBUF. -/
  opr : Operands
  /-- OBUF (spec/20_memory.md R61). -/
  obuf : Memory
  /-- The command in flight (R46). -/
  engine : Option InFlight
  /-- The model's own: what the environment still does, oldest first (log entry 4). -/
  env : List EnvOp
  /-- The model's own: what the last host read returned (log entry 12). -/
  readData : Option Word
  /-- The model's own: the environment's latencies for the next commands (log entry 3). -/
  latencies : List Nat
  /-- The model's own: commands started so far, the index of the free latency (log entry 3). -/
  started : Nat
deriving DecidableEq, Repr

/-- A buffer right after power-on number `power`: nothing is written (R260). -/
def Memory.unwritten (power : Nat) : Memory := { cells := [], power := power }

/-- The operand registers' reset values (R21), over a given IBUF. CMASK_*, CDEPTH and CTOTAL hold the 5-6-5 spec
(spec/42_color.md R176). -/
def Operands.reset (ibuf : Memory) : Operands where
  srcOff := 0
  srcLen := 0
  dstOff := 0
  dstCap := 0
  lineLen := 0
  lineCnt := 0
  pixCount := 0
  cmaskR := 0x0000F800#32
  cmaskG := 0x000007E0#32
  cmaskB := 0x0000001F#32
  cmaskA := 0
  cdepth := 0x00050605#32
  ctotal := 0x10#8
  raw := 0
  compR := 0
  compG := 0
  compB := 0
  compA := 0
  frf := Vector.replicate 14 0
  ibuf := ibuf

/-- Power-on number `power` of an instance with buffers of the given sizes (R260). -/
def State.poweredOn (ibufSize obufSize : Word) (power : Nat) : State where
  ie := false
  done := false
  wlost := false
  errcode := .none
  cmd := 0
  errinfo := 0
  ibufSize := ibufSize
  obufSize := obufSize
  outLen := 0
  flagres := false
  lines := 0
  unterm := false
  lenmis := false
  opr := Operands.reset (Memory.unwritten power)
  obuf := Memory.unwritten power
  engine := none
  env := []
  readData := none
  latencies := []
  started := 0

/-- The machine right after power-on reset (R260), with the suggested buffer sizes (log entry 2). -/
def State.reset : State := State.poweredOn Config.ibufSize Config.obufSize 0

end Sys2Proof.Machine
end

