-- ==== Sys2Proof/Machine/Ops.lean ====
section
/-! DEFINITION. The named operations over buffers and registers, and the life of a command: start
(spec/40_command.md R101), completion with success (R105, R106) or with an error (R105, R107), and the two resets
(spec/70_reset_and_hazards.md R260, R261). An error is this block's only exception: `State.fail` takes it, and
the host's acknowledgement `State.ackStatus` is the only return there is (spec/60_exceptions.md R242, R244). -/

namespace Sys2Proof.Machine

/-! ### Buffers -/

/-- Offsets rise strictly along a list of cells. -/
def cellsSorted : List Host.Cell → Bool
  | [] => true
  | [_] => true
  | c :: d :: cs => decide (c.1 < d.1) && cellsSorted (d :: cs)

/-- The buffer's canonical form: its cells' offsets rise strictly. No cell can equal what an unlisted offset
holds, since that is a free byte with no value (log entry 1). -/
def Memory.wf (m : Memory) : Bool := cellsSorted m.cells

/-- Every listed offset lies below `size`. -/
def Memory.within (m : Memory) (size : Nat) : Bool := m.cells.all (fun c => decide (c.1 < size))

/-- Put a byte at an offset, keeping the offsets rising. -/
def insertCell : List Host.Cell → Nat → Byte → List Host.Cell
  | [], a, b => [(a, b)]
  | c :: cs, a, b =>
    if a < c.1 then (a, b) :: c :: cs
    else if a = c.1 then (a, b) :: cs
    else c :: insertCell cs a b

/-- The byte written at an offset since power-on, if any. -/
def lookupCell : List Host.Cell → Nat → Option Byte
  | [], _ => none
  | c :: cs, a => if a = c.1 then some c.2 else lookupCell cs a

/-- Store one byte. -/
def Memory.writeByte (m : Memory) (off : Nat) (b : Byte) : Memory :=
  { m with cells := insertCell m.cells off b }

/-- Store bytes at rising offsets: `MemWrite` of spec/00_scope.md R11. -/
def Memory.writeBytes (m : Memory) (off : Nat) : List Byte → Memory
  | [] => m
  | b :: bs => (m.writeByte off b).writeBytes (off + 1) bs

/-- The IBUF byte at an offset; a free byte where nothing was written since power-on (R260, log entry 1). -/
def Memory.ibufByte (m : Memory) (off : Nat) : Byte :=
  (lookupCell m.cells off).getD (Config.ibufPowerOn m.power off)

/-- The OBUF byte at an offset; a free byte where nothing was written since power-on (R260, log entry 1). -/
def Memory.obufByte (m : Memory) (off : Nat) : Byte :=
  (lookupCell m.cells off).getD (Config.obufPowerOn m.power off)

/-- `n` IBUF bytes: `MemRead(IBUF, off, n)` of spec/00_scope.md R11. -/
def Memory.ibufBytes (m : Memory) (off n : Nat) : List Byte :=
  (List.range n).map (fun i => m.ibufByte (off + i))

/-- `n` OBUF bytes, as a host read sees them (spec/20_memory.md R64). -/
def Memory.obufBytes (m : Memory) (off n : Nat) : List Byte :=
  (List.range n).map (fun i => m.obufByte (off + i))

/-! ### The field register file (spec/10_state.md R43) -/

/-- `FRF[k]`, 0 for a slot that does not exist (no layout names one). -/
def frfGet (frf : Vector Word 14) (k : Nat) : Word := frf.getD k 0

/-- `FRF[k] <- v`. -/
def frfSet (frf : Vector Word 14) (k : Nat) (v : Word) : Vector Word 14 := frf.setIfInBounds k v

/-- Several slot writes, in order. -/
def frfSetAll (frf : Vector Word 14) : List (Nat × Word) → Vector Word 14
  | [] => frf
  | p :: ps => frfSetAll (frfSet frf p.1 p.2) ps

/-! ### The life of a command (spec/40_command.md) -/

/-- STATUS.BUSY: a command is in flight (spec/10_state.md R26, R46). -/
def State.busy (s : State) : Bool := s.engine.isSome

/-- The operands a command computes with: those captured at its start (R103). Where no command runs, which no
step reaches, the registers as they stand (log entry 7). -/
def State.captured (s : State) : Operands :=
  match s.engine with
  | some f => f.operands
  | none => s.opr

/-- Start the command word `w`, `n` environment steps before its completing step (R101). -/
def State.start (s : State) (w : Word) (n : Nat) : State :=
  { s with
    cmd := w
    done := false
    errcode := .none
    engine := some { word := w, operands := s.opr, remaining := n } }

/-- The latency of the next command: the environment's listed choice, or else a free number (R104, log entry 3). -/
def State.nextLatency (s : State) : Nat :=
  match s.latencies with
  | [] => Config.latency s.started
  | n :: _ => n

/-- Take the next latency away from the environment's list. -/
def State.drawLatency (s : State) : State :=
  { s with latencies := s.latencies.tail, started := s.started + 1 }

/-- Completion without the command's writes: ERRINFO, ERRCODE, BUSY and DONE (R105). -/
def State.complete (s : State) (code : ErrCode) (info : Word) : State :=
  { s with errinfo := info, errcode := code, engine := none, done := true }

/-- The writes of a successful command (R106), at the destination window it captured. -/
def State.store (s : State) (w : Writes) : State :=
  { s with
    outLen := BitVec.ofNat 32 w.obuf.length
    obuf := s.obuf.writeBytes s.captured.dstOff.toNat w.obuf
    flagres := w.flagres.getD s.flagres
    lines := w.lines.getD s.lines
    unterm := (w.info.getD (s.unterm, s.lenmis)).1
    lenmis := (w.info.getD (s.unterm, s.lenmis)).2
    opr := { s.opr with
      frf := frfSetAll s.opr.frf w.frf
      raw := w.raw.getD s.opr.raw
      compR := (w.comp.getD (s.opr.compR, s.opr.compG, s.opr.compB, s.opr.compA)).1
      compG := (w.comp.getD (s.opr.compR, s.opr.compG, s.opr.compB, s.opr.compA)).2.1
      compB := (w.comp.getD (s.opr.compR, s.opr.compG, s.opr.compB, s.opr.compA)).2.2.1
      compA := (w.comp.getD (s.opr.compR, s.opr.compG, s.opr.compB, s.opr.compA)).2.2.2 } }

/-- Success: all of the command's writes and the completion, at one instant (R105, R106). -/
def State.succeed (s : State) (w : Writes) : State := (s.store w).complete .none 0

/-- Failure: OUT_LEN is 0 and the completion records the error; nothing else is written (R105, R107). -/
def State.fail (s : State) (e : Err) : State :=
  { s with outLen := 0 }.complete e.code e.info

/-- The first check that fails, in order (R111). -/
def firstError : List (Option Err) → Option Err
  | [] => none
  | some e :: _ => some e
  | none :: cs => firstError cs

/-- The completion of a command: the first failing check's error, or else the command's writes (R103, R105, R111). -/
def State.conclude (s : State) (checks : List (Option Err)) (w : Writes) : State :=
  match firstError checks with
  | some e => s.fail e
  | none => s.succeed w

/-- The command word whose completing step comes next, if one is due. -/
def State.dueWord (s : State) : Option Word :=
  match s.engine with
  | some f => if f.remaining = 0 then some f.word else none
  | none => none

/-- The cause ILLEGAL_COMMAND reports for a word that matches no row (spec/30_encoding.md R84). -/
def illegalWord : DecodeError → Err
  | .unknownOpcode => ⟨.illegalCommand, 0⟩
  | .fieldNotZero => ⟨.illegalCommand, 1⟩

/-- Completion of a word that matches no row of the opcode table (spec/30_encoding.md R84). -/
def State.reject (s : State) (e : DecodeError) : State := s.fail (illegalWord e)

/-! ### Resets and the interrupt output -/

/-- Soft reset (spec/70_reset_and_hazards.md R261): a running command is aborted with no effect, every register and
FRF slot takes its reset value, IBUF and OBUF are unchanged. -/
def State.softReset (s : State) : State :=
  { s with
    ie := false
    done := false
    wlost := false
    errcode := .none
    cmd := 0
    errinfo := 0
    outLen := 0
    flagres := false
    lines := 0
    unterm := false
    lenmis := false
    opr := Operands.reset s.opr.ibuf
    engine := none }

/-- The reset input (spec/70_reset_and_hazards.md R260): as power-on, the buffers' bytes unspecified afresh. The
parameters, and the environment's own fields, stay (log entry 11). -/
def State.powerOn (s : State) : State :=
  { State.poweredOn s.ibufSize s.obufSize (s.obuf.power + 1) with
    env := s.env
    readData := s.readData
    latencies := s.latencies
    started := s.started }

/-- The interrupt output: a level (spec/10_state.md R47, spec/60_exceptions.md R246). -/
def State.irq (s : State) : Bool := s.ie && s.done

end Sys2Proof.Machine
end

