-- ==== Sys2Proof/Machine/Operands.lean ====
section
/-! DEFINITION. The operand forms of the commands: the source and destination windows with their checks
(spec/40_command.md R108 to R112), the header layouts (spec/41_header.md R120 to R127) and the colour spec
(spec/42_color.md R160). -/

namespace Sys2Proof.Machine

/-! ### Windows -/

/-- Raise `e` when the condition holds. -/
def raiseIf (c : Bool) (e : Err) : Option Err := if c then some e else none

/-- CheckSrc: the source window lies in IBUF, on unbounded naturals (R109). -/
def checkSrc (o : Operands) (ibufSize : Word) : Option Err :=
  raiseIf (decide (ibufSize.toNat < o.srcOff.toNat + o.srcLen.toNat)) ⟨.bufferRange, 0⟩

/-- CheckDst: the destination window lies in OBUF (R109). -/
def checkDst (o : Operands) (obufSize : Word) : Option Err :=
  raiseIf (decide (obufSize.toNat < o.dstOff.toNat + o.dstCap.toNat)) ⟨.bufferRange, 1⟩

/-- Both windows, the source first (R109). -/
def windowChecks (o : Operands) (ibufSize obufSize : Word) : List (Option Err) :=
  [checkSrc o ibufSize, checkDst o obufSize]

/-- The source window holds the `need` bytes the command reads (R112). -/
def checkInput (o : Operands) (need : Nat) : Option Err :=
  raiseIf (decide (o.srcLen.toNat < need)) ⟨.truncatedInput, sat32 need⟩

/-- The destination window takes the `need` bytes the command writes (R110). -/
def checkOutput (o : Operands) (need : Nat) : Option Err :=
  raiseIf (decide (o.dstCap.toNat < need)) ⟨.outputOverflow, sat32 need⟩

/-- `MemRead(IBUF, SRC_OFF + i, n)` (spec/20_memory.md R69). -/
def srcBytes (o : Operands) (i n : Nat) : List Byte := o.ibuf.ibufBytes (o.srcOff.toNat + i) n

/-! ### Header layouts -/

/-- The type of a layout's field (R120). -/
inductive FieldKind where
  | int | bytes | padding
deriving DecidableEq, Repr

/-- A row of a layout table: `width` bytes at byte offset `off`, held from FRF slot `slot` on (padding has none;
its `slot` is not used). -/
structure Field where
  name : String
  kind : FieldKind
  off : Nat
  width : Nat
  slot : Nat
deriving DecidableEq, Repr

/-- The layout a LAYOUT field selects, if it is 0 to 4 (spec/30_encoding.md R85). -/
def layoutOfBits (b : BitVec 4) : Option Layout :=
  match b.toNat with
  | 0 => some .stiHeader
  | 1 => some .truecolorSub
  | 2 => some .indexedSub
  | 3 => some .subImage
  | 4 => some .tile
  | _ => none

/-- `SIZE(L)` (R120). -/
def layoutSize : Layout → Nat
  | .stiHeader => 64
  | .truecolorSub => 20
  | .indexedSub => 20
  | .subImage => 16
  | .tile => 16

/-- The layout tables of R121 to R125, padding rows included. -/
def layoutRows : Layout → List Field
  | .stiHeader =>
    [ ⟨"id",               .bytes,   0,  4,  0⟩,
      ⟨"initialSize",      .int,     4,  4,  1⟩,
      ⟨"compressedSize",   .int,     8,  4,  2⟩,
      ⟨"transparentColor", .int,     12, 4,  3⟩,
      ⟨"flags",            .int,     16, 4,  4⟩,
      ⟨"height",           .int,     20, 2,  5⟩,
      ⟨"width",            .int,     22, 2,  6⟩,
      ⟨"formatHeader",     .bytes,   24, 20, 7⟩,
      ⟨"colorDepth",       .int,     44, 1,  12⟩,
      ⟨"pad",              .padding, 45, 3,  0⟩,
      ⟨"auxDataSize",      .int,     48, 4,  13⟩,
      ⟨"pad",              .padding, 52, 12, 0⟩ ]
  | .truecolorSub =>
    [ ⟨"rMask",  .int, 0,  4, 0⟩,
      ⟨"gMask",  .int, 4,  4, 1⟩,
      ⟨"bMask",  .int, 8,  4, 2⟩,
      ⟨"aMask",  .int, 12, 4, 3⟩,
      ⟨"rDepth", .int, 16, 1, 4⟩,
      ⟨"gDepth", .int, 17, 1, 5⟩,
      ⟨"bDepth", .int, 18, 1, 6⟩,
      ⟨"aDepth", .int, 19, 1, 7⟩ ]
  | .indexedSub =>
    [ ⟨"paletteColorCount", .int,     0, 4,  0⟩,
      ⟨"imageCount",        .int,     4, 2,  1⟩,
      ⟨"rDepth",            .int,     6, 1,  2⟩,
      ⟨"gDepth",            .int,     7, 1,  3⟩,
      ⟨"bDepth",            .int,     8, 1,  4⟩,
      ⟨"pad",               .padding, 9, 11, 0⟩ ]
  | .subImage =>
    [ ⟨"offset",  .int, 0,  4, 0⟩,
      ⟨"length",  .int, 4,  4, 1⟩,
      ⟨"offsetX", .int, 8,  2, 2⟩,
      ⟨"offsetY", .int, 10, 2, 3⟩,
      ⟨"height",  .int, 12, 2, 4⟩,
      ⟨"width",   .int, 14, 2, 5⟩ ]
  | .tile =>
    [ ⟨"wallOrientation",   .int,     0,  1, 0⟩,
      ⟨"tileCount",         .int,     1,  1, 1⟩,
      ⟨"tileLocationIndex", .int,     2,  2, 2⟩,
      ⟨"pad",               .padding, 4,  3, 0⟩,
      ⟨"currentFrame",      .int,     7,  1, 3⟩,
      ⟨"frameCount",        .int,     8,  1, 4⟩,
      ⟨"flags",             .int,     9,  1, 5⟩,
      ⟨"pad",               .padding, 10, 6, 0⟩ ]

/-- `FIELDS(L)`: the rows that are not padding, in table order (R120). -/
def layoutFields (l : Layout) : List Field := (layoutRows l).filter (fun f => f.kind != .padding)

/-! ### The colour spec -/

/-- A channel's mask and depth. -/
structure Channel where
  mask : Word
  depth : Nat
deriving DecidableEq, Repr

/-- The colour spec (R160): the four channels and the total depth T. -/
structure ColorSpec where
  r : Channel
  g : Channel
  b : Channel
  a : Channel
  total : Nat
deriving DecidableEq, Repr

/-- The colour spec of the registers: M from CMASK_*, D from CDEPTH's bytes, T from CTOTAL (R160). -/
def colorSpec (o : Operands) : ColorSpec where
  r := ⟨o.cmaskR, (o.cdepth.extractLsb' 0 8).toNat⟩
  g := ⟨o.cmaskG, (o.cdepth.extractLsb' 8 8).toNat⟩
  b := ⟨o.cmaskB, (o.cdepth.extractLsb' 16 8).toNat⟩
  a := ⟨o.cmaskA, (o.cdepth.extractLsb' 24 8).toNat⟩
  total := o.ctotal.toNat

end Sys2Proof.Machine
end

