-- ==== Sys2Proof/Machine/Flags.lean ====
section
/-! DEFINITION. Every flag of the block: the words CTRL, STATUS, FLAGRES and INFO as the host reads them
(spec/10_state.md R25, R26, R35, R37), the write-one-to-clear acknowledgement (R26), and the flag maps of the header
layouts (spec/41_header.md R128). -/

namespace Sys2Proof.Machine

/-- The number of an error code (spec/60_exceptions.md R230). -/
def errNumber : ErrCode → BitVec 4
  | .none => 0
  | .truncatedInput => 1
  | .fieldOverflow => 2
  | .unknownFlag => 3
  | .invalidSpec => 4
  | .invalidComponent => 5
  | .malformedRun => 6
  | .formatMismatch => 7
  | .unsupportedFeature => 8
  | .illegalCommand => 9
  | .bufferRange => 10
  | .outputOverflow => 11

/-- A flag in its place in a register word. -/
def bitAt (b : Bool) (i : Nat) : Word := (BitVec.ofBool b).zeroExtend 32 <<< i

/-- STATUS.ERR: ERRCODE is not 0 (R26). -/
def State.err (s : State) : Bool := errNumber s.errcode != 0

/-- CTRL as the host reads it: IE in bit 0, SRST and the rest 0 (R25). -/
def State.ctrlWord (s : State) : Word := bitAt s.ie 0

/-- STATUS as the host reads it (R26). -/
def State.statusWord (s : State) : Word :=
  bitAt s.busy 0 ||| bitAt s.done 1 ||| bitAt s.err 2 ||| bitAt s.wlost 3
    ||| ((errNumber s.errcode).zeroExtend 32 <<< 8)

/-- FLAGRES as the host reads it (R35). -/
def State.flagresWord (s : State) : Word := bitAt s.flagres 0

/-- INFO as the host reads it (R37). -/
def State.infoWord (s : State) : Word := bitAt s.unterm 0 ||| bitAt s.lenmis 1

/-- A write to CTRL that is no soft reset sets IE (R25). -/
def State.setIe (s : State) (v : Word) : State := { s with ie := v.getLsbD 0 }

/-- A write to STATUS: ones clear DONE (bit 1) and WLOST (bit 3), nothing else changes (R26,
spec/60_exceptions.md R244). -/
def State.ackStatus (s : State) (v : Word) : State :=
  { s with done := s.done && !v.getLsbD 1, wlost := s.wlost && !v.getLsbD 3 }

/-- A host write was ignored because BUSY was 1 (spec/70_reset_and_hazards.md R271). -/
def State.loseWrite (s : State) : State := { s with wlost := true }

/-- The flag map of a layout: names and bits (spec/41_header.md R128). -/
def flagMap : Layout → List (String × Nat)
  | .stiHeader =>
    [("AUX_OBJECT_DATA", 0), ("RGB", 2), ("INDEXED", 3), ("ZLIB", 4), ("ETRLE", 5)]
  | .truecolorSub => []
  | .indexedSub => []
  | .subImage => []
  | .tile =>
    [("FULL_TILE", 0), ("ANIMATED_TILE", 1), ("DYNAMIC_TILE", 2), ("INTERACTIVE_TILE", 3),
      ("IGNORES_HEIGHT", 4), ("USES_LAND_Z", 5)]

/-- `FLAGSLOT(L)`: the FRF slot of the layout's flag field, if it has one (spec/41_header.md R128, R140). -/
def flagSlot : Layout → Option Nat
  | .stiHeader => some 4
  | .truecolorSub => none
  | .indexedSub => none
  | .subImage => none
  | .tile => some 5

/-- The slot of the flag that bit `i` names in a layout, if it names one (spec/41_header.md R128, R140). -/
def namedFlag (l : Layout) (i : Nat) : Option Nat :=
  if (flagMap l).any (fun p => p.2 == i) then flagSlot l else none

end Sys2Proof.Machine
end

