-- ==== Sys2Proof/Machine/Assembly.lean ====
section
/-! DEFINITION. The assembler form of a command (spec/30_encoding.md R92) and the host-program forms that are bus
accesses (R93, R94). Branches and polling are the host's own (log entry 17). -/

namespace Sys2Proof.Machine

/-- A field's value as it is written: a number or a symbolic name (R92). -/
inductive FieldValue where
  | number (n : Nat)
  | name (t : String)
deriving DecidableEq, Repr

/-- The text of a command, split at its spaces and equals signs: the mnemonic and the fields written (R92). -/
structure CommandText where
  mnemonic : String
  fields : List (String × FieldValue)
deriving DecidableEq, Repr

/-- The symbolic names of LAYOUT values (R85, R92). -/
def layoutNames : List (String × Nat) :=
  [("STI_HEADER", 0), ("TRUECOLOR_SUB", 1), ("INDEXED_SUB", 2), ("SUBIMAGE", 3), ("TILE", 4)]

/-- The symbolic names of FIDX values: the flag names of spec/41_header.md R128. -/
def flagNames : List (String × Nat) := flagMap .stiHeader ++ flagMap .tile

/-- The number an entry of a table of names stands for. -/
def lookupName (names : List (String × Nat)) (t : String) : Option Nat :=
  (names.find? (fun p => p.1 == t)).map (fun p => p.2)

/-- A value as a number. -/
def fieldNumber (names : List (String × Nat)) : FieldValue → Option Nat
  | .number n => some n
  | .name t => lookupName names t

/-- The value written for a field; a field not written is 0 (R92). -/
def fieldOf (t : CommandText) (field : String) (names : List (String × Nat)) : Option Nat :=
  match t.fields.find? (fun p => p.1 == field) with
  | none => some 0
  | some p => fieldNumber names p.2

/-- The word a text assembles to: `OPC | LAYOUT << 8 | FIDX << 16 | FVAL << 24` (R92). -/
def assemble (t : CommandText) : Option Word :=
  match opcodeTable.find? (fun r => r.mnemonic == t.mnemonic) with
  | none => none
  | some r =>
    match fieldOf t "LAYOUT" layoutNames, fieldOf t "FIDX" flagNames, fieldOf t "FVAL" [] with
    | some layout, some fidx, some fval =>
      some (BitVec.ofNat 32 ((r.pattern.extractLsb' 0 8).toNat ||| layout * 2 ^ 8 ||| fidx * 2 ^ 16
        ||| fval * 2 ^ 24))
    | _, _, _ => none

/-- The host address of IBUF byte `o` (R93). -/
def ibufAddr (o : Nat) : Addr := BitVec.ofNat 26 (0x1000000 + o)

/-- The host address of OBUF byte `o` (R93). -/
def obufAddr (o : Nat) : Addr := BitVec.ofNat 26 (0x2000000 + o)

/-- `W32 addr, v` (R93). -/
def w32 (a : Addr) (v : Word) : EnvOp := .write a (.d32 v)

/-- `W8 addr, v` (R93). -/
def w8 (a : Addr) (v : Byte) : EnvOp := .write a (.d8 v)

/-- `R32 addr` (R93). -/
def r32 (a : Addr) : EnvOp := .read a .w32

/-- `R8 addr` (R93). -/
def r8 (a : Addr) : EnvOp := .read a .w8

/-- `WBYTES o, b0 b1 …` (R94). -/
def wbytes (o : Nat) : List Byte → List EnvOp
  | [] => []
  | b :: bs => w8 (ibufAddr o) b :: wbytes (o + 1) bs

/-- `CLEAR`: W32 STATUS, 0x0000000A (R94). -/
def clearOp : EnvOp := w32 0x000000C#26 0x0000000A#32

/-- The access of `RUN` that starts the command; its `POLL` is the host's loop (R94). -/
def runOp (w : Word) : EnvOp := w32 0x0000010#26 w

end Sys2Proof.Machine
end

