-- ==== Sys2Proof/Machine/Color.lean ====
section
/-! DEFINITION. The colour converter's commands: CSPEC_VALIDATE, PIX_UNPACK, PIX_PACK, PIX_DECODE and PIX_ENCODE
(spec/42_color.md). -/

namespace Sys2Proof.Machine

/-- A channel's mask and depth agree: the mask is `depth` contiguous ones at some position (R161). -/
def maskOk (c : Channel) : Bool :=
  (c.depth == 0 && c.mask == 0) ||
  (decide (1 ≤ c.depth) && c.mask != 0 && c.mask.toNat == (2 ^ c.depth - 1) * 2 ^ tz c.mask)

/-- Validate's tests in order (R162). -/
def validate (c : ColorSpec) : List (Option Err) :=
  [ raiseIf (!maskOk c.r) ⟨.invalidSpec, 0⟩,
    raiseIf (!maskOk c.g) ⟨.invalidSpec, 1⟩,
    raiseIf (!maskOk c.b) ⟨.invalidSpec, 2⟩,
    raiseIf (!maskOk c.a) ⟨.invalidSpec, 3⟩,
    raiseIf (c.total == 0 || c.total % 8 != 0 || decide (64 < c.total)) ⟨.invalidSpec, 4⟩,
    raiseIf (decide (c.total < c.r.depth + c.g.depth + c.b.depth + c.a.depth)) ⟨.invalidSpec, 5⟩ ]

/-- UnpackChannel (R164): floor division, and 255 for a field of all ones. -/
def unpackChannel (raw : Word) (c : Channel) : Nat :=
  if c.depth = 0 then 0
  else
    let v := (raw &&& c.mask).toNat / 2 ^ tz c.mask
    let max := 2 ^ c.depth - 1
    if v = max then 255 else v * 255 / max

/-- PackChannel (R165) of a component 0 to 255. -/
def packChannel (x : Nat) (c : Channel) : Word :=
  if c.depth = 0 ∨ x = 0 then 0
  else
    let q := if c.depth ≤ 8 then x / 2 ^ (8 - c.depth) else x * 2 ^ (c.depth - 8)
    BitVec.ofNat 32 (q * 2 ^ tz c.mask)

/-- The four channels of a raw pixel, each unpacked on its own (R168, R174). -/
def unpackPixel (c : ColorSpec) (raw : Word) : Nat × Nat × Nat × Nat :=
  (unpackChannel raw c.r, unpackChannel raw c.g, unpackChannel raw c.b, unpackChannel raw c.a)

/-- The OR of the four packed channels (R169, R174). -/
def packPixel (c : ColorSpec) (r g b a : Nat) : Word :=
  packChannel r c.r ||| packChannel g c.g ||| packChannel b c.b ||| packChannel a c.a

/-- `bpp = T / 8`: the bytes of a serialised pixel (R166). -/
def bytesPerPixel (c : ColorSpec) : Nat := c.total / 8

/-- Serialize (R166): the low `bpp` bytes of the 32-bit value, then zeros. For bpp 1 to 4 these are R166's cases. -/
def serialize (raw : Word) (bpp : Nat) : List Byte :=
  if bpp = 1 then [raw.extractLsb' 0 8]
  else if bpp = 2 then leBytes 2 (raw.extractLsb' 0 16).toNat
  else if bpp = 3 then leBytes 2 (raw.extractLsb' 0 16).toNat ++ [raw.extractLsb' 16 8]
  else leBytes 4 raw.toNat ++ List.replicate (bpp - 4) 0

/-- Deserialize (R167): bytes 4 and above are ignored. -/
def deserialize (s : List Byte) (bpp : Nat) : Word :=
  if bpp = 1 then BitVec.ofNat 32 (le (s.take 1))
  else if bpp = 2 then BitVec.ofNat 32 (le (s.take 2))
  else if bpp = 3 then BitVec.ofNat 32 (le (s.take 2) + le ((s.drop 2).take 1) * 2 ^ 16)
  else BitVec.ofNat 32 (le (s.take 4))

/-- CSPEC_VALIDATE (R163). -/
def execCspecValidate (s : State) : Host.Outcome State Fault Refusal :=
  .next (s.conclude (validate (colorSpec s.captured)) {})

/-- COMP_R, COMP_G, COMP_B, COMP_A of an unpacked pixel. -/
def unpackedWords (c : ColorSpec) (raw : Word) : Word × Word × Word × Word :=
  (BitVec.ofNat 32 (unpackChannel raw c.r), BitVec.ofNat 32 (unpackChannel raw c.g),
    BitVec.ofNat 32 (unpackChannel raw c.b), BitVec.ofNat 32 (unpackChannel raw c.a))

/-- PIX_UNPACK (R168): unpack RAW into four components. -/
def execPixUnpack (s : State) : Host.Outcome State Fault Refusal :=
  .next (s.conclude (validate (colorSpec s.captured))
    { comp := some (unpackedWords (colorSpec s.captured) s.captured.raw) })

/-- A component register holds a value above 255 (R169). -/
def checkComponent (x : Word) (k : Word) : Option Err :=
  raiseIf (decide (255 < x.toNat)) ⟨.invalidComponent, k⟩

/-- PIX_PACK's checks after the command word, in order (R169). -/
def pixPackChecks (o : Operands) : List (Option Err) :=
  validate (colorSpec o) ++
    [ checkComponent o.compR 0, checkComponent o.compG 1, checkComponent o.compB 2,
      checkComponent o.compA 3 ]

/-- PIX_PACK (R169): pack four components into RAW. -/
def execPixPack (s : State) : Host.Outcome State Fault Refusal :=
  let o := s.captured
  .next (s.conclude (pixPackChecks o)
    { raw := some (packPixel (colorSpec o) o.compR.toNat o.compG.toNat o.compB.toNat o.compA.toNat) })

/-- The checks of a pixel stream command, in order, with the bytes it reads and writes (R171, R172). -/
def pixStreamChecks (o : Operands) (ibufSize obufSize : Word) (input output : Nat) : List (Option Err) :=
  windowChecks o ibufSize obufSize ++ validate (colorSpec o) ++
    [checkInput o input, checkOutput o output]

/-- The R, G, B, A bytes of a raw pixel (R171). -/
def rgbaBytes (c : ColorSpec) (raw : Word) : List Byte :=
  [ BitVec.ofNat 8 (unpackChannel raw c.r), BitVec.ofNat 8 (unpackChannel raw c.g),
    BitVec.ofNat 8 (unpackChannel raw c.b), BitVec.ofNat 8 (unpackChannel raw c.a) ]

/-- The i-th pixel's output of PIX_DECODE (R171). -/
def decodedPixel (o : Operands) (i : Nat) : List Byte :=
  let c := colorSpec o
  rgbaBytes c (deserialize (srcBytes o (i * bytesPerPixel c) (bytesPerPixel c)) (bytesPerPixel c))

/-- PIX_DECODE (R171): PIX_COUNT serialised pixels to RGBA bytes. -/
def execPixDecode (s : State) : Host.Outcome State Fault Refusal :=
  let o := s.captured
  let n := o.pixCount.toNat
  .next <|
    match firstError (pixStreamChecks o s.ibufSize s.obufSize (n * bytesPerPixel (colorSpec o)) (n * 4)) with
    | some e => s.fail e
    | none => s.succeed { obuf := (List.range n).flatMap (decodedPixel o) }

/-- The i-th pixel's output of PIX_ENCODE (R172). -/
def encodedPixel (o : Operands) (i : Nat) : List Byte :=
  let c := colorSpec o
  let x := fun k => (o.ibuf.ibufByte (o.srcOff.toNat + (4 * i + k))).toNat
  serialize (packPixel c (x 0) (x 1) (x 2) (x 3)) (bytesPerPixel c)

/-- PIX_ENCODE (R172): PIX_COUNT RGBA pixels to serialised pixels. -/
def execPixEncode (s : State) : Host.Outcome State Fault Refusal :=
  let o := s.captured
  let n := o.pixCount.toNat
  .next <|
    match firstError (pixStreamChecks o s.ibufSize s.obufSize (n * 4) (n * bytesPerPixel (colorSpec o))) with
    | some e => s.fail e
    | none => s.succeed { obuf := (List.range n).flatMap (encodedPixel o) }

end Sys2Proof.Machine
end

