-- ==== Sys2Proof/Machine/Etrle.lean ====
section
/-! DEFINITION. The ETRLE unit's commands: ETRLE_COMPRESS and ETRLE_DECOMPRESS (spec/43_etrle.md; the stream format
is spec/30_encoding.md R89, R90). -/

namespace Sys2Proof.Machine

/-- The longest run (R201). -/
def runCap : Nat := 127

/-- Byte `j` of a line, 0 past its end. -/
def lineByte (line : List Byte) (j : Nat) : Byte := line.getD j 0

/-- An isolated zero: both neighbours exist in the line and are non-zero (R202). -/
def isolated (line : List Byte) (j : Nat) : Bool :=
  lineByte line j == 0 && decide (0 < j) && lineByte line (j - 1) != 0
    && decide (j + 1 < line.length) && lineByte line (j + 1) != 0

/-- Byte `j` belongs to an uncompressed run (R203). -/
def literalAt (line : List Byte) (j : Nat) : Bool := lineByte line j != 0 || isolated line j

/-- Byte `j` continues a compressed run (R203). -/
def zeroAt (line : List Byte) (j : Nat) : Bool := lineByte line j == 0

/-- How many bytes from `i` on belong to a run of the given kind, at most `cap` of them (R203's inner loops). -/
def runLength (belongs : Nat → Bool) (n : Nat) : Nat → Nat → Nat
  | 0, _ => 0
  | cap + 1, i => if decide (i < n) && belongs i then runLength belongs n cap (i + 1) + 1 else 0

/-- The runs of a line from byte `i` on (R203's outer loop). `fuel` is at least the number of bytes left, since
every run has at least one byte. -/
def compressFrom (line : List Byte) : Nat → Nat → List Byte
  | 0, _ => []
  | fuel + 1, i =>
    if i < line.length then
      if literalAt line i then
        let k := runLength (literalAt line) line.length runCap i
        BitVec.ofNat 8 k :: ((line.drop i).take k ++ compressFrom line fuel (i + k))
      else
        let k := runLength (zeroAt line) line.length runCap i
        (0x80#8 ||| BitVec.ofNat 8 k) :: compressFrom line fuel (i + k)
    else []

/-- CompressLine: the line's runs and one end-of-line byte (R203). -/
def compressLine (line : List Byte) : List Byte := compressFrom line line.length 0 ++ [0x00#8]

/-- The compressed lines of the source window, in line order (R205). -/
def compressedLines (o : Operands) : List Byte :=
  (List.range o.lineCnt.toNat).flatMap
    (fun r => compressLine (srcBytes o (r * o.lineLen.toNat) o.lineLen.toNat))

/-- ETRLE_COMPRESS's checks before it compresses, in order (R205). -/
def compressChecks (o : Operands) (ibufSize obufSize : Word) : List (Option Err) :=
  windowChecks o ibufSize obufSize ++ [checkInput o (o.lineLen.toNat * o.lineCnt.toNat)]

/-- ETRLE_COMPRESS (R205): compress LINE_CNT lines of LINE_LEN bytes. -/
def execEtrleCompress (s : State) : Host.Outcome State Fault Refusal :=
  let o := s.captured
  .next <|
    match firstError (compressChecks o s.ibufSize s.obufSize) with
    | some e => s.fail e
    | none => s.conclude [checkOutput o (compressedLines o).length] { obuf := compressedLines o }

/-- The running values of R206's loop: the output so far, the lines ended, the current line's length, and whether
a line's length was wrong. -/
structure Decoded where
  out : List Byte
  lines : Nat
  cur : Nat
  lenmis : Bool
  lastEol : Bool
deriving DecidableEq, Repr

/-- R206's values before its loop. -/
def decodedNothing : Decoded := ⟨[], 0, 0, false, true⟩

/-- An end-of-line byte (R206). -/
def endLine (width : Nat) (d : Decoded) : Decoded :=
  { d with
    lines := d.lines + 1
    lenmis := d.lenmis || (width != 0 && d.cur != width)
    cur := 0
    lastEol := true }

/-- A run's bytes (R206). -/
def appendRun (d : Decoded) (bytes : List Byte) : Decoded :=
  { d with out := d.out ++ bytes, cur := d.cur + bytes.length, lastEol := false }

/-- R206's loop from offset `p` on, where `rest` is the stream's bytes from `p` to its end. `fuel` is at least the
number of those bytes, since every control byte takes at least one. -/
def decompressFrom (cap width : Nat) : Nat → Nat → List Byte → Decoded → Except Err Decoded
  | 0, _, _, d => .ok d
  | _ + 1, _, [], d => .ok d
  | fuel + 1, p, c :: rest, d =>
    let n := (c.extractLsb' 0 7).toNat
    if c = 0 then decompressFrom cap width fuel (p + 1) rest (endLine width d)
    else if c.getLsbD 7 then
      if cap < d.out.length + n then .error ⟨.outputOverflow, BitVec.ofNat 32 p⟩
      else decompressFrom cap width fuel (p + 1) rest (appendRun d (List.replicate n 0))
    else if rest.length < n then .error ⟨.malformedRun, BitVec.ofNat 32 p⟩
    else if cap < d.out.length + n then .error ⟨.outputOverflow, BitVec.ofNat 32 p⟩
    else decompressFrom cap width fuel (p + 1 + n) (rest.drop n) (appendRun d (rest.take n))

/-- DecompressStream (R206). -/
def decompressStream (stream : List Byte) (cap width : Nat) : Except Err Decoded :=
  decompressFrom cap width stream.length 0 stream decodedNothing

/-- INFO.UNTERM: the stream was not empty and its last control byte was no end-of-line (R206; for an empty stream
`lastEol` is still true). -/
def Decoded.unterm (d : Decoded) : Bool := !d.lastEol

/-- What a decoded stream writes (R207). -/
def decompressWrites (d : Decoded) : Writes :=
  { obuf := d.out, lines := some (BitVec.ofNat 32 d.lines), info := some (d.unterm, d.lenmis) }

/-- ETRLE_DECOMPRESS (R207): decompress the source window into OBUF. -/
def execEtrleDecompress (s : State) : Host.Outcome State Fault Refusal :=
  let o := s.captured
  .next <|
    match firstError (windowChecks o s.ibufSize s.obufSize) with
    | some e => s.fail e
    | none =>
      match decompressStream (srcBytes o 0 o.srcLen.toNat) o.dstCap.toNat o.lineLen.toNat with
      | .error e => s.fail e
      | .ok d => s.succeed (decompressWrites d)

end Sys2Proof.Machine
end

