-- ==== Sys2Proof/Machine/Header.lean ====
section
/-! DEFINITION. The header unit's commands: HDR_DECODE, HDR_ENCODE, FLAG_GET, FLAG_PUT and STI_CHECK
(spec/41_header.md). -/

namespace Sys2Proof.Machine

/-- LAYOUT 5 to 15 is illegal (spec/30_encoding.md R84, cause 2). -/
def illegalLayout : Err := ⟨.illegalCommand, 2⟩

/-- The slots a field fills from the layout's bytes `b`: an integer its one slot, zero-extended (R126); a byte
string one slot for every four bytes (R127). -/
def decodeField (b : List Byte) (f : Field) : List (Nat × Word) :=
  match f.kind with
  | .int => [(f.slot, BitVec.ofNat 32 (le ((b.drop f.off).take f.width)))]
  | .bytes => (List.range (f.width / 4)).map
      (fun j => (f.slot + j, BitVec.ofNat 32 (le ((b.drop (f.off + 4 * j)).take 4))))
  | .padding => []

/-- All the slots of a layout (R130). -/
def decodeFields (l : Layout) (b : List Byte) : List (Nat × Word) :=
  (layoutFields l).flatMap (decodeField b)

/-- HDR_DECODE's checks after the command word, in order (R130). -/
def hdrDecodeChecks (l : Layout) (o : Operands) (ibufSize : Word) : List (Option Err) :=
  [checkSrc o ibufSize, checkInput o (layoutSize l)]

/-- HDR_DECODE (R130): decode one header from IBUF into FRF. -/
def execHdrDecode (layout : BitVec 4) (s : State) : Host.Outcome State Fault Refusal :=
  match layoutOfBits layout with
  | none => .next (s.fail illegalLayout)
  | some l =>
    .next (s.conclude (hdrDecodeChecks l s.captured s.ibufSize)
      { frf := decodeFields l (srcBytes s.captured 0 (layoutSize l)) })

/-- A u8 or u16 field's slot value does not fit (R135). -/
def fieldOverflows (frf : Vector Word 14) (f : Field) : Bool :=
  f.kind == .int && decide (f.width < 4) && decide (2 ^ (8 * f.width) ≤ (frfGet frf f.slot).toNat)

/-- FIELD_OVERFLOW names the first such field's slot, in layout order (R135). -/
def checkFields (l : Layout) (frf : Vector Word 14) : Option Err :=
  ((layoutFields l).find? (fieldOverflows frf)).map
    (fun f => ⟨.fieldOverflow, BitVec.ofNat 32 f.slot⟩)

/-- The bytes of a row: an integer's low bytes (R126), a byte string's slots (R127), zeros for padding (R129). -/
def encodeField (frf : Vector Word 14) (f : Field) : List Byte :=
  match f.kind with
  | .int => leBytes f.width (frfGet frf f.slot).toNat
  | .bytes => (List.range (f.width / 4)).flatMap (fun j => leBytes 4 (frfGet frf (f.slot + j)).toNat)
  | .padding => List.replicate f.width 0

/-- The bytes of a layout: its rows, in order and without gaps (R120, R135). -/
def encodeFields (l : Layout) (frf : Vector Word 14) : List Byte :=
  (layoutRows l).flatMap (encodeField frf)

/-- HDR_ENCODE's checks after the command word, in order (R135). -/
def hdrEncodeChecks (l : Layout) (o : Operands) (obufSize : Word) : List (Option Err) :=
  [checkDst o obufSize, checkFields l o.frf, checkOutput o (layoutSize l)]

/-- HDR_ENCODE (R135): encode FRF as one header into OBUF. -/
def execHdrEncode (layout : BitVec 4) (s : State) : Host.Outcome State Fault Refusal :=
  match layoutOfBits layout with
  | none => .next (s.fail illegalLayout)
  | some l =>
    .next (s.conclude (hdrEncodeChecks l s.captured s.obufSize)
      { obuf := encodeFields l s.captured.frf })

/-- UNKNOWN_FLAG carries the FIDX value (R140, spec/60_exceptions.md R231). -/
def unknownFlag (fidx : BitVec 5) : Err := ⟨.unknownFlag, fidx.zeroExtend 32⟩

/-- FLAG_GET (R140): read one named flag of the FRF header. -/
def execFlagGet (layout : BitVec 4) (fidx : BitVec 5) (s : State) : Host.Outcome State Fault Refusal :=
  match layoutOfBits layout with
  | none => .next (s.fail illegalLayout)
  | some l =>
    match namedFlag l fidx.toNat with
    | none => .next (s.fail (unknownFlag fidx))
    | some slot =>
      .next (s.succeed { flagres := some ((frfGet s.captured.frf slot).getLsbD fidx.toNat) })

/-- A slot value with bit `i` replaced by `v` (R145). -/
def putBit (x : Word) (i : Nat) (v : Bool) : Word := (x &&& ~~~(bitAt true i)) ||| bitAt v i

/-- FLAG_PUT (R145): set or clear one named flag of the FRF header. -/
def execFlagPut (layout : BitVec 4) (fidx : BitVec 5) (fval : Bool) (s : State) :
    Host.Outcome State Fault Refusal :=
  match layoutOfBits layout with
  | none => .next (s.fail illegalLayout)
  | some l =>
    match namedFlag l fidx.toNat with
    | none => .next (s.fail (unknownFlag fidx))
    | some slot =>
      .next (s.succeed { frf := [(slot, putBit (frfGet s.captured.frf slot) fidx.toNat fval)] })

/-- The magic "STCI" as R127 packs it (R150). -/
def stiMagic : Word := 0x49435453#32

/-- STI_CHECK's checks, in order (R150): the magic; RGB and INDEXED both or neither; ZLIB; AUX_OBJECT_DATA with
RGB; AUX_OBJECT_DATA with INDEXED and without ETRLE. -/
def stiChecks (frf : Vector Word 14) : List (Option Err) :=
  let f := frfGet frf 4
  [ raiseIf (frfGet frf 0 != stiMagic) ⟨.formatMismatch, 0⟩,
    raiseIf (f.getLsbD 2 == f.getLsbD 3) ⟨.formatMismatch, 1⟩,
    raiseIf (f.getLsbD 4) ⟨.unsupportedFeature, 0⟩,
    raiseIf (f.getLsbD 0 && f.getLsbD 2) ⟨.unsupportedFeature, 1⟩,
    raiseIf (f.getLsbD 0 && f.getLsbD 3 && !f.getLsbD 5) ⟨.unsupportedFeature, 2⟩ ]

/-- STI_CHECK (R150): test the FRF outer header against the format's acceptance rules. -/
def execStiCheck (s : State) : Host.Outcome State Fault Refusal :=
  .next (s.conclude (stiChecks s.captured.frf) {})

end Sys2Proof.Machine
end

