-- ==== Sys2Proof/Machine/Dispatch.lean ====
section
/-! DEFINITION. One meaning per command: `exec i s` is the completing step of command `i`
(spec/40_command.md R103, R105). -/

namespace Sys2Proof.Machine

def exec (i : Instr) (s : State) : Host.Outcome State Fault Refusal :=
  match i with
  -- the header unit (spec/41_header.md)
  | .hdrDecode layout => Sys2Proof.Machine.execHdrDecode layout s
  | .hdrEncode layout => Sys2Proof.Machine.execHdrEncode layout s
  | .flagGet layout fidx => Sys2Proof.Machine.execFlagGet layout fidx s
  | .flagPut layout fidx fval => Sys2Proof.Machine.execFlagPut layout fidx fval s
  | .stiCheck => Sys2Proof.Machine.execStiCheck s
  -- the colour converter (spec/42_color.md)
  | .cspecValidate => Sys2Proof.Machine.execCspecValidate s
  | .pixUnpack => Sys2Proof.Machine.execPixUnpack s
  | .pixPack => Sys2Proof.Machine.execPixPack s
  | .pixDecode => Sys2Proof.Machine.execPixDecode s
  | .pixEncode => Sys2Proof.Machine.execPixEncode s
  -- the ETRLE unit (spec/43_etrle.md)
  | .etrleCompress => Sys2Proof.Machine.execEtrleCompress s
  | .etrleDecompress => Sys2Proof.Machine.execEtrleDecompress s

end Sys2Proof.Machine
end

