-- ==== Sys2Proof/Machine/HostPort.lean ====
section
/-! DEFINITION. The host port: the register map (spec/10_state.md R21, R22), host reads and writes
(spec/20_memory.md R62 to R68), the hazards of a running command (spec/70_reset_and_hazards.md R270 to R272), and
one step of the environment (spec/60_exceptions.md R241). -/

namespace Sys2Proof.Machine

/-- The registers of the register window (spec/10_state.md R21). -/
inductive RegName where
  | id | version | ctrl | status | cmd | errinfo | ibufSize | obufSize
  | srcOff | srcLen | dstOff | dstCap | outLen | lineLen | lineCnt | pixCount
  | flagres | lines | info
  | cmaskR | cmaskG | cmaskB | cmaskA | cdepth | ctotal | raw
  | compR | compG | compB | compA
  | frf (k : Fin 14)
deriving DecidableEq, Repr

/-- The register map: every offset that is not listed is reserved (R21, R22). -/
def regTable : List (Nat × RegName) :=
  [ (0x000, .id), (0x004, .version), (0x008, .ctrl), (0x00C, .status),
    (0x010, .cmd), (0x014, .errinfo), (0x018, .ibufSize), (0x01C, .obufSize),
    (0x020, .srcOff), (0x024, .srcLen), (0x028, .dstOff), (0x02C, .dstCap),
    (0x030, .outLen), (0x034, .lineLen), (0x038, .lineCnt), (0x03C, .pixCount),
    (0x040, .flagres), (0x044, .lines), (0x048, .info),
    (0x050, .cmaskR), (0x054, .cmaskG), (0x058, .cmaskB), (0x05C, .cmaskA),
    (0x060, .cdepth), (0x064, .ctotal), (0x068, .raw),
    (0x070, .compR), (0x074, .compG), (0x078, .compB), (0x07C, .compA) ]
    ++ (List.finRange 14).map (fun k => (0x100 + 4 * k.val, RegName.frf k))

/-- The register at an offset of the register window, if one is there (R21). A misaligned offset has none (R66). -/
def regAt (off : Nat) : Option RegName := (regTable.find? (fun p => p.1 == off)).map (fun p => p.2)

/-- What a register reads as (R22 to R43). -/
def State.regRead (s : State) : RegName → Word
  | .id => Config.idValue
  | .version => Config.versionValue
  | .ctrl => s.ctrlWord
  | .status => s.statusWord
  | .cmd => s.cmd
  | .errinfo => s.errinfo
  | .ibufSize => s.ibufSize
  | .obufSize => s.obufSize
  | .srcOff => s.opr.srcOff
  | .srcLen => s.opr.srcLen
  | .dstOff => s.opr.dstOff
  | .dstCap => s.opr.dstCap
  | .outLen => s.outLen
  | .lineLen => s.opr.lineLen
  | .lineCnt => s.opr.lineCnt
  | .pixCount => s.opr.pixCount
  | .flagres => s.flagresWord
  | .lines => s.lines
  | .info => s.infoWord
  | .cmaskR => s.opr.cmaskR
  | .cmaskG => s.opr.cmaskG
  | .cmaskB => s.opr.cmaskB
  | .cmaskA => s.opr.cmaskA
  | .cdepth => s.opr.cdepth
  | .ctotal => s.opr.ctotal.zeroExtend 32
  | .raw => s.opr.raw
  | .compR => s.opr.compR
  | .compG => s.opr.compG
  | .compB => s.opr.compB
  | .compA => s.opr.compA
  | .frf k => frfGet s.opr.frf k.val

/-- A host write to operand storage: lost, and WLOST set, while a command runs (spec/70_reset_and_hazards.md
R271); stored otherwise. -/
def State.putOperands (s : State) (o : Operands) : State :=
  if s.busy then s.loseWrite else { s with opr := o }

/-- A host write to OBUF, under the same hazard (R271). -/
def State.putObuf (s : State) (m : Memory) : State :=
  if s.busy then s.loseWrite else { s with obuf := m }

/-- A host write to CMD: lost while a command runs (spec/40_command.md R102), and otherwise the start of the command
(R101). -/
def State.putCmd (s : State) (w : Word) : State :=
  if s.busy then s.loseWrite else (s.start w s.nextLatency).drawLatency

/-- A host write to CTRL acts whether or not a command runs: SRST resets, and the written IE is then discarded
(spec/10_state.md R25, spec/70_reset_and_hazards.md R261, R270). -/
def State.putCtrl (s : State) (v : Word) : State := if v.getLsbD 1 then s.softReset else s.setIe v

/-- A host write to a register: RO registers ignore it (R21). -/
def State.regWrite (s : State) (r : RegName) (v : Word) : State :=
  match r with
  | .id => s
  | .version => s
  | .ctrl => s.putCtrl v
  | .status => s.ackStatus v
  | .cmd => s.putCmd v
  | .errinfo => s
  | .ibufSize => s
  | .obufSize => s
  | .srcOff => s.putOperands { s.opr with srcOff := v }
  | .srcLen => s.putOperands { s.opr with srcLen := v }
  | .dstOff => s.putOperands { s.opr with dstOff := v }
  | .dstCap => s.putOperands { s.opr with dstCap := v }
  | .outLen => s
  | .lineLen => s.putOperands { s.opr with lineLen := v }
  | .lineCnt => s.putOperands { s.opr with lineCnt := v }
  | .pixCount => s.putOperands { s.opr with pixCount := v }
  | .flagres => s
  | .lines => s
  | .info => s
  | .cmaskR => s.putOperands { s.opr with cmaskR := v }
  | .cmaskG => s.putOperands { s.opr with cmaskG := v }
  | .cmaskB => s.putOperands { s.opr with cmaskB := v }
  | .cmaskA => s.putOperands { s.opr with cmaskA := v }
  | .cdepth => s.putOperands { s.opr with cdepth := v }
  | .ctotal => s.putOperands { s.opr with ctotal := v.extractLsb' 0 8 }
  | .raw => s.putOperands { s.opr with raw := v }
  | .compR => s.putOperands { s.opr with compR := v }
  | .compG => s.putOperands { s.opr with compG := v }
  | .compB => s.putOperands { s.opr with compB := v }
  | .compA => s.putOperands { s.opr with compA := v }
  | .frf k => s.putOperands { s.opr with frf := frfSet s.opr.frf k.val v }

/-! ### Host accesses (spec/20_memory.md) -/

/-- The windows of the host address space (R62). -/
inductive Window where
  | registers | ibuf | obuf | unmapped
deriving DecidableEq, Repr

/-- The window of a host address: its bits 25:24 (R62). -/
def windowOf (a : Addr) : Window :=
  match (a.extractLsb' 24 2).toNat with
  | 0 => .registers
  | 1 => .ibuf
  | 2 => .obuf
  | _ => .unmapped

/-- The offset inside the window: bits 23:0 (R62). -/
def offsetOf (a : Addr) : Nat := (a.extractLsb' 0 24).toNat

/-- The bytes of an access. -/
def widthBytes : Width → Nat
  | .w8 => 1
  | .w16 => 2
  | .w32 => 4

/-- The size of a write's datum. -/
def dataWidth : HostData → Width
  | .d8 _ => .w8
  | .d16 _ => .w16
  | .d32 _ => .w32

/-- A write's bytes, least significant first (R64). -/
def dataBytes : HostData → List Byte
  | .d8 v => leBytes 1 v.toNat
  | .d16 v => leBytes 2 v.toNat
  | .d32 v => leBytes 4 v.toNat

/-- A buffer access is admitted: naturally aligned and backed by the buffer (R62, R65). -/
def admitted (off n : Nat) (size : Word) : Bool := off % n == 0 && decide (off + n ≤ size.toNat)

/-- What a host read returns, zero-extended to 32 bits (R62 to R66). It changes nothing (R68). -/
def State.hostRead (s : State) (a : Addr) (width : Width) : Word :=
  let off := offsetOf a
  let n := widthBytes width
  match windowOf a with
  | .registers =>
    if width = .w32 then
      match regAt off with
      | some r => s.regRead r
      | none => 0
    else 0
  | .ibuf => if admitted off n s.ibufSize then BitVec.ofNat 32 (le (s.opr.ibuf.ibufBytes off n)) else 0
  | .obuf => if admitted off n s.obufSize then BitVec.ofNat 32 (le (s.obuf.obufBytes off n)) else 0
  | .unmapped => 0

/-- What a host write does (R62 to R66, spec/70_reset_and_hazards.md R270, R271). -/
def State.hostWrite (s : State) (a : Addr) (d : HostData) : State :=
  let off := offsetOf a
  let n := widthBytes (dataWidth d)
  match windowOf a with
  | .registers =>
    match d with
    | .d32 v =>
      match regAt off with
      | some r => s.regWrite r v
      | none => s
    | .d16 _ => s
    | .d8 _ => s
  | .ibuf =>
    if admitted off n s.ibufSize then
      s.putOperands { s.opr with ibuf := s.opr.ibuf.writeBytes off (dataBytes d) }
    else s
  | .obuf => if admitted off n s.obufSize then s.putObuf (s.obuf.writeBytes off (dataBytes d)) else s
  | .unmapped => s

/-! ### The environment's step -/

/-- What one item of the environment does. -/
def State.envOp (s : State) : EnvOp → State
  | .read a width => { s with readData := some (s.hostRead a width) }
  | .write a d => s.hostWrite a d
  | .idle => s
  | .powerOnReset => s.powerOn

/-- One environment step passes for a running command (spec/40_command.md R104). -/
def State.tick (s : State) : State :=
  match s.engine with
  | some f => { s with engine := some { f with remaining := f.remaining - 1 } }
  | none => s

/-- One step of the environment: the next item of its list acts; with an empty list nothing happens but the
passing of the step (spec/60_exceptions.md R241, R253). -/
def State.envStep (s : State) : State :=
  match s.tick.env with
  | [] => s.tick
  | op :: rest => { s.tick with env := rest }.envOp op

end Sys2Proof.Machine
end

