-- ==== Sys2Proof/Machine/Step.lean ====
section
/-! DEFINITION. One step of the machine: the completing step of the command that is due, or else one step of the
environment (spec/60_exceptions.md R241, log entry 3). -/

namespace Sys2Proof.Machine

/-- A due command completes: its word is decoded and executed, and a word that matches no row of the opcode
table completes with ILLEGAL_COMMAND (spec/30_encoding.md R84). Otherwise the environment moves. -/
def step (s : State) : Host.Outcome State Fault Refusal :=
  match s.dueWord with
  | none => .next s.envStep
  | some w =>
    match decode w with
    | .ok i => exec i s
    | .error e => .next (s.reject e)

/-- The state in which the given command has been started and is due (spec/40_command.md R101 with the least
latency): the very next step completes it (log entry 5). -/
def State.withFetchWord (s : State) (nbits w : Nat) : State := s.start (tableWord nbits w) 0

end Sys2Proof.Machine
end

