-- ==== Sys2Proof/Safety.lean ====
section
/-! DEFINITION. What a good state and a safe run are, and the terms the statements use: the invariant every step
keeps, the ETRLE records of spec/30_encoding.md R89, and the host writes of spec/70_reset_and_hazards.md R270, R271. -/

namespace Sys2Proof.Machine

/-- The sizes an instance's buffers may have: 2^10 to 2^24 (spec/00_scope.md R6). -/
def legalSize (size : Word) : Bool := (List.range 15).any (fun k => size.toNat == 2 ^ (10 + k))

/-- The invariant of a good state. -/
structure State.Inv (s : State) : Prop where
  /-- The parameters are legal (spec/00_scope.md R6). -/
  ibufSize_legal : legalSize s.ibufSize = true
  obufSize_legal : legalSize s.obufSize = true
  /-- The buffers keep their canonical form and hold no byte past their ends (spec/20_memory.md R60, R61). -/
  ibuf_wf : s.opr.ibuf.wf = true
  ibuf_within : s.opr.ibuf.within s.ibufSize.toNat = true
  obuf_wf : s.obuf.wf = true
  obuf_within : s.obuf.within s.obufSize.toNat = true
  /-- The running command is the one in CMD, and nothing it captured has changed (spec/40_command.md R102, R103). -/
  running_word : ∀ f, s.engine = some f → f.word = s.cmd
  running_operands : ∀ f, s.engine = some f → f.operands = s.opr
  /-- While a command runs, DONE and ERRCODE are 0 (spec/40_command.md R101, spec/70_reset_and_hazards.md R272). -/
  running_done : s.busy = true → s.done = false
  running_errcode : s.busy = true → s.errcode = .none
  /-- After a failed command OUT_LEN is 0 (spec/10_state.md R32). -/
  failed_outLen : s.errcode ≠ .none → s.outLen = 0
  /-- OUT_LEN never exceeds the output buffer (spec/10_state.md R31, R32). -/
  outLen_fits : s.outLen.toNat ≤ s.obufSize.toNat

/-- A state from which the next step is a next state that is good again. -/
def State.Safe (s : State) : Prop := ∃ t, step s = .next t ∧ t.Inv

/-! ### Host writes -/

/-- A register offset whose write is lost while a command runs: CMD, and every RW register but CTRL and STATUS, FRF
included (spec/70_reset_and_hazards.md R271; offsets of spec/10_state.md R21). -/
def lostOffset (off : Nat) : Bool :=
  off % 4 == 0 &&
    (off == 0x010 || (decide (0x020 ≤ off) && decide (off ≤ 0x02C))
      || (decide (0x034 ≤ off) && decide (off ≤ 0x03C))
      || (decide (0x050 ≤ off) && decide (off ≤ 0x068))
      || (decide (0x070 ≤ off) && decide (off ≤ 0x07C))
      || (decide (0x100 ≤ off) && decide (off ≤ 0x134)))

/-- A reserved register offset (spec/10_state.md R22; the table of R21). -/
def reservedOffset (off : Nat) : Bool :=
  off == 0x04C || off == 0x06C || (decide (0x080 ≤ off) && decide (off < 0x100)) || decide (0x138 ≤ off)

/-- The datum of a 32-bit write. -/
def data32 : HostData → Option Word
  | .d32 v => some v
  | .d16 _ => none
  | .d8 _ => none

/-- A host write that is lost while a command runs (spec/70_reset_and_hazards.md R271). -/
def lostWrite (s : State) (a : Addr) (d : HostData) : Bool :=
  match windowOf a with
  | .registers => (data32 d).isSome && lostOffset (offsetOf a)
  | .ibuf => admitted (offsetOf a) (widthBytes (dataWidth d)) s.ibufSize
  | .obuf => admitted (offsetOf a) (widthBytes (dataWidth d)) s.obufSize
  | .unmapped => false

/-- An item of the environment that resets the block: the reset input, or a write of CTRL with SRST = 1. -/
def resets : EnvOp → Bool
  | .powerOnReset => true
  | .write a (.d32 v) => a == 0x0000008#26 && v.getLsbD 1
  | .write _ (.d16 _) => false
  | .write _ (.d8 _) => false
  | .read _ _ => false
  | .idle => false

/-! ### Completions -/

/-- The state after a completion that writes nothing but OUT_LEN and the completion's own registers: ERRCODE,
ERRINFO, BUSY and DONE (spec/40_command.md R105, R107). -/
def State.ended (s : State) (outLen : Word) (code : ErrCode) (info : Word) : State :=
  { s with outLen := outLen, errcode := code, errinfo := info, engine := none, done := true }

/-- The source window lies in IBUF (spec/40_command.md R109). -/
def SrcFits (s : State) : Prop := s.captured.srcOff.toNat + s.captured.srcLen.toNat ≤ s.ibufSize.toNat

/-- The destination window lies in OBUF (spec/40_command.md R109). -/
def DstFits (s : State) : Prop := s.captured.dstOff.toNat + s.captured.dstCap.toNat ≤ s.obufSize.toNat

/-- No OBUF byte outside `n` bytes from `off` on differs between two states. -/
def SameOutside (s t : State) (off n : Nat) : Prop :=
  ∀ a, a < off ∨ off + n ≤ a → t.obuf.obufByte a = s.obuf.obufByte a

/-! ### Header layouts, slot by slot -/

/-- A layout's FRF slots: slot, byte offset and width of the bytes each holds, from the tables of
spec/41_header.md R121 to R125 (a byte-string field is its four-byte slots, R127). -/
def slotTable : Layout → List (Nat × Nat × Nat)
  | .stiHeader =>
    [(0, 0, 4), (1, 4, 4), (2, 8, 4), (3, 12, 4), (4, 16, 4), (5, 20, 2), (6, 22, 2), (7, 24, 4), (8, 28, 4),
      (9, 32, 4), (10, 36, 4), (11, 40, 4), (12, 44, 1), (13, 48, 4)]
  | .truecolorSub =>
    [(0, 0, 4), (1, 4, 4), (2, 8, 4), (3, 12, 4), (4, 16, 1), (5, 17, 1), (6, 18, 1), (7, 19, 1)]
  | .indexedSub => [(0, 0, 4), (1, 4, 2), (2, 6, 1), (3, 7, 1), (4, 8, 1)]
  | .subImage => [(0, 0, 4), (1, 4, 4), (2, 8, 2), (3, 10, 2), (4, 12, 2), (5, 14, 2)]
  | .tile => [(0, 0, 1), (1, 1, 1), (2, 2, 2), (3, 7, 1), (4, 8, 1), (5, 9, 1)]

/-- The LAYOUT number of a layout (spec/30_encoding.md R85). -/
def layoutNumber : Layout → BitVec 4
  | .stiHeader => 0
  | .truecolorSub => 1
  | .indexedSub => 2
  | .subImage => 3
  | .tile => 4

/-- A layout's size in bytes (spec/30_encoding.md R85). -/
def layoutBytes : Layout → Nat
  | .stiHeader => 64
  | .truecolorSub => 20
  | .indexedSub => 20
  | .subImage => 16
  | .tile => 16

/-- Byte `i` of the layout belongs to a field; the others are padding (spec/41_header.md R129). -/
def coveredByte (l : Layout) (i : Nat) : Bool :=
  (slotTable l).any (fun p => decide (p.2.1 ≤ i) && decide (i < p.2.1 + p.2.2))

/-- A slot's value fits the bytes the layout gives it (spec/41_header.md R135). -/
def slotFits (frf : Vector Word 14) (p : Nat × Nat × Nat) : Prop := (frfGet frf p.1).toNat < 256 ^ p.2.2

/-! ### Colours -/

/-- A mask and depth agree: `depth` contiguous ones at some position, or no bits at depth 0 (spec/42_color.md
R161). -/
def MaskAgrees (c : Channel) : Prop :=
  (c.depth = 0 ∧ c.mask = 0) ∨ (1 ≤ c.depth ∧ ∃ k, c.mask.toNat = (2 ^ c.depth - 1) * 2 ^ k)

/-- A colour spec is valid (spec/42_color.md R162). -/
structure SpecValid (c : ColorSpec) : Prop where
  r : MaskAgrees c.r
  g : MaskAgrees c.g
  b : MaskAgrees c.b
  a : MaskAgrees c.a
  total_pos : 0 < c.total
  total_bytes : c.total % 8 = 0
  total_le : c.total ≤ 64
  depths : c.r.depth + c.g.depth + c.b.depth + c.a.depth ≤ c.total

/-- `v` is the channel of `raw`, brought to 0 to 255 by floor division (spec/42_color.md R164). -/
def Unpacks (raw : Word) (c : Channel) (v : Nat) : Prop :=
  (c.depth = 0 ∧ v = 0) ∨
    (1 ≤ c.depth ∧ ∃ k, c.mask.toNat = (2 ^ c.depth - 1) * 2 ^ k ∧
      v = (raw &&& c.mask).toNat / 2 ^ k * 255 / (2 ^ c.depth - 1))

/-- `w` is the component `x` in the channel's place (spec/42_color.md R165). -/
def Packs (x : Nat) (c : Channel) (w : Word) : Prop :=
  (c.depth = 0 ∧ w = 0) ∨
    (1 ≤ c.depth ∧ ∃ k, c.mask.toNat = (2 ^ c.depth - 1) * 2 ^ k ∧
      w.toNat = (if c.depth ≤ 8 then x / 2 ^ (8 - c.depth) else x * 2 ^ (c.depth - 8)) * 2 ^ k)

/-- The bound of spec/42_color.md R173 on a component `x` that came back as `u` through a channel of depth `d`. -/
structure RoundTripBound (d x u : Nat) : Prop where
  absent : d = 0 → u = 0
  shallow : 1 ≤ d → d ≤ 7 → u ≤ x + (2 ^ (8 - d) - 1) ∧ x ≤ u + (2 ^ (8 - d) - 1)
  exact : d = 8 → u = x
  deep : 8 < d → (x = 0 → u = 0) ∧ (x ≠ 0 → u = x - 1 ∨ u = x)

/-- A write's datum as a 32-bit word, zero-extended. -/
def dataWord : HostData → Word
  | .d8 v => v.zeroExtend 32
  | .d16 v => v.zeroExtend 32
  | .d32 v => v

/-! ### ETRLE records (spec/30_encoding.md R89) -/

/-- A record of an ETRLE stream. -/
inductive Record where
  | eol
  | literal (bytes : List Byte)
  | zeros (n : Nat)
deriving DecidableEq, Repr

/-- The lengths a record may have (R89). -/
def Record.wf : Record → Bool
  | .eol => true
  | .literal bytes => decide (1 ≤ bytes.length) && decide (bytes.length ≤ 127)
  | .zeros n => decide (n ≤ 127)

/-- A record's bytes in the stream (R89). -/
def Record.bytes : Record → List Byte
  | .eol => [0]
  | .literal bytes => BitVec.ofNat 8 bytes.length :: bytes
  | .zeros n => [BitVec.ofNat 8 (128 + n)]

/-- The index bytes a record stands for (R89). -/
def Record.output : Record → List Byte
  | .eol => []
  | .literal bytes => bytes
  | .zeros n => List.replicate n 0

/-- The stream of some records. -/
def streamOf (rs : List Record) : List Byte := rs.flatMap Record.bytes

/-- The index bytes of some records. -/
def outputOf (rs : List Record) : List Byte := rs.flatMap Record.output

/-- The lengths of the lines that some records end, `cur` bytes of the first line being there already. -/
def endedLengths (cur : Nat) : List Record → List Nat
  | [] => []
  | .eol :: rs => cur :: endedLengths 0 rs
  | r :: rs => endedLengths (cur + r.output.length) rs

/-- The last record is no end-of-line (an empty list has none). -/
def unterminated (rs : List Record) : Bool :=
  match rs.getLast? with
  | none => false
  | some r => r != .eol

end Sys2Proof.Machine
end

