-- ==== Sys2Proof/Certificates/Slice0/Obligations.lean ====
section
/-! DEFINITION. The statements for the provers. Each docstring names the rule of spec/ it formalises. -/

open Sys2Proof Sys2Proof.Machine

/-! ### Encoding (spec/30_encoding.md) -/

/-- Words written out from R80 and R82 (and from spec/95_test_vectors.md) decode to their commands. -/
def Obligations.SpecWordsDecode : Prop :=
  decode 0x00000001#32 = .ok (.hdrDecode 0) ∧
  decode 0x00000302#32 = .ok (.hdrEncode 3) ∧
  decode 0x00050403#32 = .ok (.flagGet 4 5) ∧
  decode 0x01030404#32 = .ok (.flagPut 4 3 true) ∧
  decode 0x00000005#32 = .ok .stiCheck ∧
  decode 0x00000010#32 = .ok .cspecValidate ∧
  decode 0x00000013#32 = .ok .pixDecode ∧
  decode 0x00000021#32 = .ok .etrleDecompress

/-- Decode and encode agree on every command, with every operand at every value its field admits (R80 to R83). That a word
of LAYOUT 5 to 15 decodes, and is rejected by its command, is the model's reading (log entry 15). -/
def Obligations.DecodeOfEncodeIsTheCommand : Prop :=
  ∀ i : Instr, decode (encode i) = .ok i

/-- A word that decodes is the encoding of what it decodes to: no two words are one command (R81, R83). -/
def Obligations.EncodeOfDecodeIsTheWord : Prop :=
  ∀ (w : Word) (i : Instr), decode w = .ok i → encode i = w

/-- The match patterns of R83, row by row: a word selects a row, and has the row's fields, exactly when its bits
under the mask are the match. -/
def Obligations.DecoderFollowsTheMatchPatterns : Prop :=
  ∀ w : Word,
    (decode w = .ok (.hdrDecode (w.extractLsb' 8 4)) ↔ w &&& 0xFFFFF0FF#32 = 0x00000001#32) ∧
    (decode w = .ok (.hdrEncode (w.extractLsb' 8 4)) ↔ w &&& 0xFFFFF0FF#32 = 0x00000002#32) ∧
    (decode w = .ok (.flagGet (w.extractLsb' 8 4) (w.extractLsb' 16 5)) ↔
      w &&& 0xFFE0F0FF#32 = 0x00000003#32) ∧
    (decode w = .ok (.flagPut (w.extractLsb' 8 4) (w.extractLsb' 16 5) (w.getLsbD 24)) ↔
      w &&& 0xFEE0F0FF#32 = 0x00000004#32) ∧
    (decode w = .ok .stiCheck ↔ w &&& 0xFFFFFFFF#32 = 0x00000005#32) ∧
    (decode w = .ok .cspecValidate ↔ w &&& 0xFFFFFFFF#32 = 0x00000010#32) ∧
    (decode w = .ok .pixUnpack ↔ w &&& 0xFFFFFFFF#32 = 0x00000011#32) ∧
    (decode w = .ok .pixPack ↔ w &&& 0xFFFFFFFF#32 = 0x00000012#32) ∧
    (decode w = .ok .pixDecode ↔ w &&& 0xFFFFFFFF#32 = 0x00000013#32) ∧
    (decode w = .ok .pixEncode ↔ w &&& 0xFFFFFFFF#32 = 0x00000014#32) ∧
    (decode w = .ok .etrleCompress ↔ w &&& 0xFFFFFFFF#32 = 0x00000020#32) ∧
    (decode w = .ok .etrleDecompress ↔ w &&& 0xFFFFFFFF#32 = 0x00000021#32)

/-- R84: a word that matches no row, or has LAYOUT 5 to 15, completes with ILLEGAL_COMMAND and its cause in ERRINFO,
and with no other effect than a failed command's. When that completion comes is log entry 6. -/
def Obligations.IllegalWordsReportTheirCause : Prop :=
  ∀ (s : State) (w : Word), s.dueWord = some w →
    ((w.extractLsb' 0 8).toNat ∉ [0x01, 0x02, 0x03, 0x04, 0x05, 0x10, 0x11, 0x12, 0x13, 0x14, 0x20, 0x21] →
      step s = .next (s.ended 0 .illegalCommand 0)) ∧
    (((w.extractLsb' 0 8).toNat ∈ [0x01, 0x02] ∧ w &&& 0xFFFFF000#32 ≠ 0 ∨
      (w.extractLsb' 0 8).toNat = 0x03 ∧ w &&& 0xFFE0F000#32 ≠ 0 ∨
      (w.extractLsb' 0 8).toNat = 0x04 ∧ w &&& 0xFEE0F000#32 ≠ 0 ∨
      (w.extractLsb' 0 8).toNat ∈ [0x05, 0x10, 0x11, 0x12, 0x13, 0x14, 0x20, 0x21] ∧ w &&& 0xFFFFFF00#32 ≠ 0) →
      step s = .next (s.ended 0 .illegalCommand 1)) ∧
    ((w &&& 0xFFFFF0FF#32 = 0x01#32 ∨ w &&& 0xFFFFF0FF#32 = 0x02#32 ∨ w &&& 0xFFE0F0FF#32 = 0x03#32 ∨
      w &&& 0xFEE0F0FF#32 = 0x04#32) → 5 ≤ (w.extractLsb' 8 4).toNat →
      step s = .next (s.ended 0 .illegalCommand 2))

/-- R92: the text of a command, with its fields as numbers, assembles to the command's word; a layout or flag may be
written by its name, and a field not written is 0. The text is taken split into its fields, which is the model's choice (log entry 17). -/
def Obligations.AssemblerAgreesWithEncoder : Prop :=
  (∀ l : BitVec 4, assemble ⟨"HDR_DECODE", [("LAYOUT", .number l.toNat)]⟩ = some (encode (.hdrDecode l))) ∧
  (∀ l : BitVec 4, assemble ⟨"HDR_ENCODE", [("LAYOUT", .number l.toNat)]⟩ = some (encode (.hdrEncode l))) ∧
  (∀ (l : BitVec 4) (i : BitVec 5),
    assemble ⟨"FLAG_GET", [("LAYOUT", .number l.toNat), ("FIDX", .number i.toNat)]⟩ = some (encode (.flagGet l i))) ∧
  (∀ (l : BitVec 4) (i : BitVec 5) (v : Bool),
    assemble ⟨"FLAG_PUT", [("LAYOUT", .number l.toNat), ("FIDX", .number i.toNat), ("FVAL", .number v.toNat)]⟩ =
      some (encode (.flagPut l i v))) ∧
  assemble ⟨"STI_CHECK", []⟩ = some (encode .stiCheck) ∧
  assemble ⟨"CSPEC_VALIDATE", []⟩ = some (encode .cspecValidate) ∧
  assemble ⟨"PIX_UNPACK", []⟩ = some (encode .pixUnpack) ∧
  assemble ⟨"PIX_PACK", []⟩ = some (encode .pixPack) ∧
  assemble ⟨"PIX_DECODE", []⟩ = some (encode .pixDecode) ∧
  assemble ⟨"PIX_ENCODE", []⟩ = some (encode .pixEncode) ∧
  assemble ⟨"ETRLE_COMPRESS", []⟩ = some (encode .etrleCompress) ∧
  assemble ⟨"ETRLE_DECOMPRESS", []⟩ = some (encode .etrleDecompress) ∧
  assemble ⟨"FLAG_GET", []⟩ = some (encode (.flagGet 0 0)) ∧
  (∀ p ∈ [("STI_HEADER", 0#4), ("TRUECOLOR_SUB", 1#4), ("INDEXED_SUB", 2#4), ("SUBIMAGE", 3#4), ("TILE", 4#4)],
    assemble ⟨"HDR_DECODE", [("LAYOUT", .name p.1)]⟩ = some (encode (.hdrDecode p.2))) ∧
  ∀ p ∈ [("AUX_OBJECT_DATA", 0#5), ("RGB", 2#5), ("INDEXED", 3#5), ("ZLIB", 4#5), ("ETRLE", 5#5), ("FULL_TILE", 0#5),
      ("ANIMATED_TILE", 1#5), ("DYNAMIC_TILE", 2#5), ("INTERACTIVE_TILE", 3#5), ("IGNORES_HEIGHT", 4#5),
      ("USES_LAND_Z", 5#5)],
    assemble ⟨"FLAG_GET", [("LAYOUT", .name "TILE"), ("FIDX", .name p.1)]⟩ = some (encode (.flagGet 4 p.2))

/-! ### The step and the invariant -/

/-- A step at which a command is due runs the command its word decodes to; a step at which none is due is the
environment's. Which of the two moves is the model's form of R241 (log entry 3); `withFetchWord` makes its command due
(log entry 5). -/
def Obligations.StepRunsTheDueCommand : Prop :=
  (∀ (s : State) (w : Word) (i : Instr), s.dueWord = some w → decode w = .ok i → step s = exec i s) ∧
  (∀ s : State, s.dueWord = none → step s = .next s.envStep) ∧
  (∀ (s : State) (nbits w : Nat) (i : Instr), decodeTableWord nbits w = some i →
    step (s.withFetchWord nbits w) = exec i (s.withFetchWord nbits w))

/-- No step faults or is refused: no access raises a bus error, no error is a trap, and nothing hangs
(spec/20_memory.md R63, spec/60_exceptions.md R242, spec/93_implementation_defined.md). -/
def Obligations.EveryStepHasANextState : Prop :=
  ∀ s : State, ∃ t, step s = .next t

/-- The state after power-on of any instance with legal buffer sizes is good, and so is the reset state, whose buffer sizes
are the model's choice (log entry 2). -/
def Obligations.PowerOnStatesAreGood : Prop :=
  (∀ (ib ob : Word) (p : Nat), legalSize ib = true → legalSize ob = true → (State.poweredOn ib ob p).Inv) ∧
  State.reset.Inv

/-- Every step from a good state leads to a good state. -/
def Obligations.EveryStepKeepsTheInvariant : Prop :=
  ∀ s t : State, s.Inv → step s = .next t → t.Inv

/-! ### The life of a command (spec/40_command.md) -/

/-- R101: the start of a command. The latency fields are the model's own (log entry 3), so they are only said to exist. -/
def Obligations.CmdWriteStartsTheCommand : Prop :=
  ∀ (s : State) (w : Word), s.busy = false →
    ∃ (n k : Nat) (rest : List Nat),
      s.hostWrite 0x0000010#26 (.d32 w) =
        { s with
          cmd := w
          done := false
          errcode := .none
          engine := some { word := w, operands := s.opr, remaining := n }
          latencies := rest
          started := k } ∧
      (s.hostWrite 0x0000010#26 (.d32 w)).busy = true ∧
      (s.hostWrite 0x0000010#26 (.d32 w)).irq = false

/-- R102: a CMD write while a command runs is ignored, and sets WLOST. -/
def Obligations.CmdWriteWhileBusyIsLost : Prop :=
  ∀ (s : State) (w : Word), s.busy = true → s.hostWrite 0x0000010#26 (.d32 w) = { s with wlost := true }

/-- R103, spec/70_reset_and_hazards.md R271, R272: while a command runs, a step that neither completes nor aborts it
changes nothing the command captured and no register but IE and WLOST. The count of steps left is the model's own (log
entry 3). -/
def Obligations.RunningCommandIsUndisturbed : Prop :=
  ∀ (s t : State) (f : InFlight), s.engine = some f → step s = .next t →
    t.engine = none ∨
      (t.engine = some { f with remaining := f.remaining - 1 } ∧ t.cmd = s.cmd ∧ t.opr = s.opr ∧ t.obuf = s.obuf ∧
        t.errcode = s.errcode ∧ t.errinfo = s.errinfo ∧ t.outLen = s.outLen ∧ t.flagres = s.flagres ∧
        t.lines = s.lines ∧ t.unterm = s.unterm ∧ t.lenmis = s.lenmis ∧ t.ibufSize = s.ibufSize ∧
        t.obufSize = s.obufSize ∧ (s.done = false → t.done = false))

/-- R104, R105: a started command completes unless a reset comes first. The step at which it does is the one its latency
names, which is the model's form of R104 (log entry 3). -/
def Obligations.StartedCommandCompletes : Prop :=
  ∀ (s : State) (f : InFlight), s.engine = some f →
    (∀ op ∈ s.env.take f.remaining, resets op = false) →
    ∃ t, Host.Core.run Sys2Proof.core (f.remaining + 1) s = .next t ∧
      t.busy = false ∧ t.done = true ∧ t.cmd = s.cmd ∧ t.env = s.env.drop f.remaining

/-- R105, spec/60_exceptions.md R230, R246, spec/10_state.md R26: every command completes, with BUSY = 0, DONE = 1, ERRINFO
0 on success, and the interrupt output equal to IE. In every state STATUS holds BUSY, DONE, ERR and WLOST in bits 0 to 3
and the number R230 gives the error code in bits 11:8, ERR is 1 exactly when that number is not 0, and every other bit
is 0. -/
def Obligations.CompletionSetsTheStatus : Prop :=
  (∀ (i : Instr) (s : State), ∃ t, exec i s = .next t ∧
    t.statusWord.getLsbD 0 = false ∧ t.statusWord.getLsbD 1 = true ∧
    (t.statusWord.getLsbD 2 = true ↔ t.errcode ≠ .none) ∧
    (t.statusWord.extractLsb' 8 4).toNat < 12 ∧
    (t.errcode = .none → t.errinfo = 0) ∧ t.irq = s.ie) ∧
  ∀ s : State,
    s.statusWord.getLsbD 0 = s.engine.isSome ∧ s.statusWord.getLsbD 1 = s.done ∧
    (s.statusWord.getLsbD 2 = true ↔ s.statusWord.extractLsb' 8 4 ≠ 0) ∧ s.statusWord.getLsbD 3 = s.wlost ∧
    s.statusWord.extractLsb' 4 4 = 0 ∧ s.statusWord.extractLsb' 12 20 = 0 ∧
    ∀ p ∈ [(ErrCode.none, 0#4), (.truncatedInput, 1#4), (.fieldOverflow, 2#4), (.unknownFlag, 3#4),
        (.invalidSpec, 4#4), (.invalidComponent, 5#4), (.malformedRun, 6#4), (.formatMismatch, 7#4),
        (.unsupportedFeature, 8#4), (.illegalCommand, 9#4), (.bufferRange, 10#4), (.outputOverflow, 11#4)],
      s.errcode = p.1 → s.statusWord.extractLsb' 8 4 = p.2

/-- R107: a command that fails writes OUT_LEN = 0 and the completion's registers, and nothing else. -/
def Obligations.FailedCommandWritesNothing : Prop :=
  ∀ (i : Instr) (s t : State), exec i s = .next t → t.errcode ≠ .none → t = s.ended 0 t.errcode t.errinfo

/-- R106 and the column "engine writes" of spec/10_state.md R21: each command writes only the registers, slots and
buffer its rule names. -/
def Obligations.CommandsKeepWhatTheyDoNotName : Prop :=
  ∀ (i : Instr) (s t : State), exec i s = .next t →
    (t.ie = s.ie ∧ t.wlost = s.wlost ∧ t.cmd = s.cmd ∧ t.ibufSize = s.ibufSize ∧ t.obufSize = s.obufSize ∧
      t.env = s.env ∧ t.readData = s.readData ∧ t.latencies = s.latencies ∧ t.started = s.started) ∧
    t.opr = { s.opr with
      frf := t.opr.frf, raw := t.opr.raw, compR := t.opr.compR, compG := t.opr.compG, compB := t.opr.compB,
      compA := t.opr.compA } ∧
    (i.opcode ≠ .hdrDecode → i.opcode ≠ .flagPut → t.opr.frf = s.opr.frf) ∧
    (i.opcode ≠ .pixPack → t.opr.raw = s.opr.raw) ∧
    (i.opcode ≠ .pixUnpack → t.opr.compR = s.opr.compR ∧ t.opr.compG = s.opr.compG ∧
      t.opr.compB = s.opr.compB ∧ t.opr.compA = s.opr.compA) ∧
    (i.opcode ≠ .flagGet → t.flagres = s.flagres) ∧
    (i.opcode ≠ .etrleDecompress → t.lines = s.lines ∧ t.unterm = s.unterm ∧ t.lenmis = s.lenmis) ∧
    (i.opcode ∉ [.hdrEncode, .pixDecode, .pixEncode, .etrleCompress, .etrleDecompress] →
      t.obuf = s.obuf ∧ t.outLen = 0) ∧
    SameOutside s t s.captured.dstOff.toNat t.outLen.toNat

/-- spec/10_state.md R31, spec/20_memory.md R60, R61: a command never writes OBUF outside its destination window, and
never writes IBUF. -/
def Obligations.OutputStaysInTheDestinationWindow : Prop :=
  ∀ (i : Instr) (s t : State), exec i s = .next t →
    SameOutside s t s.captured.dstOff.toNat s.captured.dstCap.toNat ∧
    t.outLen.toNat ≤ s.captured.dstCap.toNat ∧ t.opr.ibuf = s.opr.ibuf

/-- spec/10_state.md R30: a command never reads IBUF outside its source window. Let the captured IBUF be replaced by one
that agrees with it inside the window, and the IBUF that stands by any: the completion is the same, but for the IBUF
that stands, which it leaves as it is. -/
def Obligations.InputComesFromTheSourceWindow : Prop :=
  ∀ (i : Instr) (s : State) (f : InFlight) (captured standing : Memory), s.engine = some f →
    (∀ a, f.operands.srcOff.toNat ≤ a → a < f.operands.srcOff.toNat + f.operands.srcLen.toNat →
      captured.ibufByte a = f.operands.ibuf.ibufByte a) →
    ∃ t, exec i s = .next t ∧
      exec i { s with
          engine := some { f with operands := { f.operands with ibuf := captured } }
          opr := { s.opr with ibuf := standing } } =
        .next { t with opr := { t.opr with ibuf := standing } }

/-- R109, R108, R111: a window that leaves its buffer is reported before any other check of the commands that use it,
the source window first. -/
def Obligations.WindowsAreCheckedFirst : Prop :=
  ∀ (s : State) (l : Layout),
    (¬ SrcFits s →
      exec (.hdrDecode (layoutNumber l)) s = .next (s.ended 0 .bufferRange 0) ∧
      exec .pixDecode s = .next (s.ended 0 .bufferRange 0) ∧
      exec .pixEncode s = .next (s.ended 0 .bufferRange 0) ∧
      exec .etrleCompress s = .next (s.ended 0 .bufferRange 0) ∧
      exec .etrleDecompress s = .next (s.ended 0 .bufferRange 0)) ∧
    (¬ DstFits s →
      exec (.hdrEncode (layoutNumber l)) s = .next (s.ended 0 .bufferRange 1) ∧
      (SrcFits s →
        exec .pixDecode s = .next (s.ended 0 .bufferRange 1) ∧
        exec .pixEncode s = .next (s.ended 0 .bufferRange 1) ∧
        exec .etrleCompress s = .next (s.ended 0 .bufferRange 1) ∧
        exec .etrleDecompress s = .next (s.ended 0 .bufferRange 1)))

/-- spec/60_exceptions.md R241: a soft reset right after a completion and one right before it end in the same registers;
only OBUF may differ. -/
def Obligations.ResetAndCompletionCommute : Prop :=
  ∀ (i : Instr) (s t : State), exec i s = .next t → t.softReset = { s.softReset with obuf := t.obuf }

/-! ### The host port (spec/20_memory.md, spec/10_state.md, spec/70_reset_and_hazards.md) -/

/-- R271: while a command runs, exactly the listed writes are lost and set WLOST; every other write but one to CTRL or
STATUS has no effect at all. That a listed write of the value already there counts as lost is the model's reading (log
entry 10). -/
def Obligations.WritesWhileBusyAreLost : Prop :=
  ∀ (s : State) (a : Addr) (d : HostData), s.busy = true →
    (lostWrite s a d = true → s.hostWrite a d = { s with wlost := true }) ∧
    (lostWrite s a d = false → (data32 d = none ∨ (a ≠ 0x0000008#26 ∧ a ≠ 0x000000C#26)) → s.hostWrite a d = s)

/-- spec/70_reset_and_hazards.md R270, spec/10_state.md R25, R26, R47: CTRL and STATUS writes act at once, whether or not a
command runs, and change nothing but IE, DONE and WLOST, and with them the interrupt output. -/
def Obligations.CtrlAndStatusWritesActAtOnce : Prop :=
  ∀ (s : State) (v : Word),
    (v.getLsbD 1 = false → s.hostWrite 0x0000008#26 (.d32 v) = { s with ie := v.getLsbD 0 }) ∧
    s.hostWrite 0x000000C#26 (.d32 v) =
      { s with done := s.done && !v.getLsbD 1, wlost := s.wlost && !v.getLsbD 3 } ∧
    (v.getLsbD 1 = false → (s.hostWrite 0x0000008#26 (.d32 v)).irq = (v.getLsbD 0 && s.done)) ∧
    (s.hostWrite 0x000000C#26 (.d32 v)).irq = (s.ie && s.done && !v.getLsbD 1)

/-- R261: a soft reset gives every register and FRF slot its reset value, whatever IE is written, aborts a running command
and keeps the buffers; with SRST = 0 the write is an ordinary write of IE. -/
def Obligations.SoftResetGivesTheResetValues : Prop :=
  ∀ (s : State) (v : Word),
    (v.getLsbD 1 = false → s.hostWrite 0x0000008#26 (.d32 v) = { s with ie := v.getLsbD 0 }) ∧
    (v.getLsbD 1 = true → s.hostWrite 0x0000008#26 (.d32 v) =
      { s with
        ie := false, done := false, wlost := false, errcode := .none, cmd := 0, errinfo := 0, outLen := 0
        flagres := false, lines := 0, unterm := false, lenmis := false, engine := none
        opr :=
          { srcOff := 0, srcLen := 0, dstOff := 0, dstCap := 0, lineLen := 0, lineCnt := 0, pixCount := 0
            cmaskR := 0x0000F800#32, cmaskG := 0x000007E0#32, cmaskB := 0x0000001F#32, cmaskA := 0
            cdepth := 0x00050605#32, ctotal := 0x10#8, raw := 0, compR := 0, compG := 0, compB := 0, compA := 0
            frf := Vector.replicate 14 0, ibuf := s.opr.ibuf } })

/-- R260: after power-on every register reads its reset value, no command runs and the interrupt output is 0, whatever
the buffer sizes of the instance are; the reset input gives a power-on state of the same sizes, and keeps the model's
own fields (log entry 11). -/
def Obligations.PowerOnRegistersReadTheirResetValues : Prop :=
  ∀ (ib ob : Word) (p : Nat),
    (∀ q ∈ [((0x000 : Nat), (0x4C525445#32 : Word)), (0x004, 0x00010000#32), (0x008, 0), (0x00C, 0), (0x010, 0),
        (0x014, 0), (0x018, ib), (0x01C, ob), (0x020, 0), (0x024, 0), (0x028, 0), (0x02C, 0), (0x030, 0), (0x034, 0),
        (0x038, 0), (0x03C, 0), (0x040, 0), (0x044, 0), (0x048, 0), (0x050, 0x0000F800#32), (0x054, 0x000007E0#32),
        (0x058, 0x0000001F#32), (0x05C, 0), (0x060, 0x00050605#32), (0x064, 0x10#32), (0x068, 0), (0x070, 0),
        (0x074, 0), (0x078, 0), (0x07C, 0)],
      (State.poweredOn ib ob p).hostRead (BitVec.ofNat 26 q.1) .w32 = q.2) ∧
    (∀ k, k < 14 → (State.poweredOn ib ob p).hostRead (BitVec.ofNat 26 (0x100 + 4 * k)) .w32 = 0) ∧
    (State.poweredOn ib ob p).engine = none ∧ (State.poweredOn ib ob p).irq = false ∧
    ∀ s : State, ∃ q, s.envOp .powerOnReset =
      { State.poweredOn s.ibufSize s.obufSize q with
        env := s.env, readData := s.readData, latencies := s.latencies, started := s.started }

/-- spec/10_state.md R30 to R43: a 32-bit write to an RW register or FRF slot of an idle block is read back (CTOTAL keeps
its low byte), and every other address of the whole map reads as before. In every state each of these registers and
slots reads the operand it holds. -/
def Obligations.RegisterWritesAreReadBack : Prop :=
  (∀ (s : State) (off : Nat) (v : Word), s.busy = false → lostOffset off = true → off ≠ 0x010 →
    (s.hostWrite (BitVec.ofNat 26 off) (.d32 v)).hostRead (BitVec.ofNat 26 off) .w32 =
        (if off = 0x064 then v &&& 0xFF#32 else v) ∧
      ∀ (a : Addr) (w : Width), a ≠ BitVec.ofNat 26 off →
        (s.hostWrite (BitVec.ofNat 26 off) (.d32 v)).hostRead a w = s.hostRead a w) ∧
  ∀ s : State,
    (∀ q ∈ [((0x0000020#26 : Addr), s.opr.srcOff), (0x0000024#26, s.opr.srcLen), (0x0000028#26, s.opr.dstOff),
        (0x000002C#26, s.opr.dstCap), (0x0000034#26, s.opr.lineLen), (0x0000038#26, s.opr.lineCnt),
        (0x000003C#26, s.opr.pixCount), (0x0000050#26, s.opr.cmaskR), (0x0000054#26, s.opr.cmaskG),
        (0x0000058#26, s.opr.cmaskB), (0x000005C#26, s.opr.cmaskA), (0x0000060#26, s.opr.cdepth),
        (0x0000064#26, s.opr.ctotal.zeroExtend 32), (0x0000068#26, s.opr.raw), (0x0000070#26, s.opr.compR),
        (0x0000074#26, s.opr.compG), (0x0000078#26, s.opr.compB), (0x000007C#26, s.opr.compA)],
      s.hostRead q.1 .w32 = q.2) ∧
    ∀ k, k < 14 → s.hostRead (BitVec.ofNat 26 (0x100 + 4 * k)) .w32 = frfGet s.opr.frf k

/-- R22: reserved offsets of the register window read 0 and ignore writes. -/
def Obligations.ReservedOffsetsReadZero : Prop :=
  ∀ (s : State) (off : Nat) (w : Width) (d : HostData), off < 2 ^ 24 → reservedOffset off = true →
    s.hostRead (BitVec.ofNat 26 off) w = 0 ∧ s.hostWrite (BitVec.ofNat 26 off) d = s

/-- R23, R24, R29 and the access column of R21: the RO registers ignore writes; ID, VERSION and the size registers hold
their constants and parameters. In every state CTRL reads IE in bit 0, STATUS its word, CMD, ERRINFO, OUT_LEN and LINES
their values, FLAGRES its flag in bit 0, and INFO UNTERM in bit 0 and LENMIS in bit 1 (R25 to R28, R32, R35 to R37). -/
def Obligations.ReadOnlyRegistersIgnoreWrites : Prop :=
  ∀ (s : State) (v : Word),
    s.hostRead 0x0000000#26 .w32 = 0x4C525445#32 ∧ s.hostRead 0x0000004#26 .w32 = 0x00010000#32 ∧
    s.hostRead 0x0000018#26 .w32 = s.ibufSize ∧ s.hostRead 0x000001C#26 .w32 = s.obufSize ∧
    s.hostRead 0x0000008#26 .w32 = (if s.ie then 1#32 else 0#32) ∧
    s.hostRead 0x000000C#26 .w32 = s.statusWord ∧ s.hostRead 0x0000010#26 .w32 = s.cmd ∧
    s.hostRead 0x0000014#26 .w32 = s.errinfo ∧ s.hostRead 0x0000030#26 .w32 = s.outLen ∧
    s.hostRead 0x0000040#26 .w32 = (if s.flagres then 1#32 else 0#32) ∧ s.hostRead 0x0000044#26 .w32 = s.lines ∧
    s.hostRead 0x0000048#26 .w32 = (if s.unterm then 1#32 else 0#32) + (if s.lenmis then 2#32 else 0#32) ∧
    ∀ a ∈ [(0x0000000#26 : Addr), 0x0000004#26, 0x0000014#26, 0x0000018#26, 0x000001C#26, 0x0000030#26,
      0x0000040#26, 0x0000044#26, 0x0000048#26], s.hostWrite a (.d32 v) = s

/-- R66: the register window admits only aligned 32-bit accesses; any other reads 0 and writes nothing. -/
def Obligations.RegisterWindowAdmitsAlignedWordsOnly : Prop :=
  ∀ (s : State) (a : Addr) (w : Width) (d : HostData), a.toNat < 0x1000000 →
    ((w ≠ .w32 ∨ a.toNat % 4 ≠ 0) → s.hostRead a w = 0) ∧
    ((data32 d = none ∨ a.toNat % 4 ≠ 0) → s.hostWrite a d = s)

/-- R62, R63, R65: a misaligned buffer access, a buffer address past the buffer's end and an unmapped address read 0 and
ignore writes. -/
def Obligations.UnbackedAccessesReadZero : Prop :=
  ∀ (s : State) (a : Addr) (w : Width) (d : HostData),
    (0x1000000 ≤ a.toNat →
      (a.toNat % widthBytes w ≠ 0 → s.hostRead a w = 0) ∧
      (a.toNat % widthBytes (dataWidth d) ≠ 0 → s.hostWrite a d = s)) ∧
    ((0x1000000 + s.ibufSize.toNat ≤ a.toNat ∧ a.toNat < 0x2000000 ∨
      0x2000000 + s.obufSize.toNat ≤ a.toNat ∧ a.toNat < 0x3000000 ∨ 0x3000000 ≤ a.toNat) →
      s.hostRead a w = 0 ∧ s.hostWrite a d = s)

/-- R64, R65: an aligned write inside a buffer of an idle block is read back, little-endian, and changes no other byte
and nothing else. In every state an aligned read inside a buffer answers the little-endian number of its bytes. -/
def Obligations.BufferWritesAreReadBack : Prop :=
  (∀ (s : State) (w : Width) (off : Nat), off % widthBytes w = 0 → off < 2 ^ 24 →
    (off + widthBytes w ≤ s.ibufSize.toNat → s.hostRead (BitVec.ofNat 26 (0x1000000 + off)) w =
      BitVec.ofNat 32 (le (s.opr.ibuf.ibufBytes off (widthBytes w)))) ∧
    (off + widthBytes w ≤ s.obufSize.toNat → s.hostRead (BitVec.ofNat 26 (0x2000000 + off)) w =
      BitVec.ofNat 32 (le (s.obuf.obufBytes off (widthBytes w))))) ∧
  ∀ (s : State) (d : HostData) (off : Nat), s.busy = false → off % widthBytes (dataWidth d) = 0 →
    (off + widthBytes (dataWidth d) ≤ s.ibufSize.toNat → off < 2 ^ 24 →
      ∃ t, s.hostWrite (BitVec.ofNat 26 (0x1000000 + off)) d = t ∧
        t.hostRead (BitVec.ofNat 26 (0x1000000 + off)) (dataWidth d) = dataWord d ∧
        (∀ j, j < widthBytes (dataWidth d) →
          t.opr.ibuf.ibufByte (off + j) = (dataWord d).extractLsb' (8 * j) 8) ∧
        (∀ x, x < off ∨ off + widthBytes (dataWidth d) ≤ x →
          t.opr.ibuf.ibufByte x = s.opr.ibuf.ibufByte x) ∧
        t = { s with opr := { s.opr with ibuf := t.opr.ibuf } }) ∧
    (off + widthBytes (dataWidth d) ≤ s.obufSize.toNat → off < 2 ^ 24 →
      ∃ t, s.hostWrite (BitVec.ofNat 26 (0x2000000 + off)) d = t ∧
        t.hostRead (BitVec.ofNat 26 (0x2000000 + off)) (dataWidth d) = dataWord d ∧
        (∀ j, j < widthBytes (dataWidth d) → t.obuf.obufByte (off + j) = (dataWord d).extractLsb' (8 * j) 8) ∧
        SameOutside s t off (widthBytes (dataWidth d)) ∧ t = { s with obuf := t.obuf })

/-- R68, R272: a host read answers the value that stands, and changes nothing a later read could see, nor the running
command but for the step that passes. The list of accesses and the answer's field are the model's own (log entries 4 and
12). -/
def Obligations.ReadsHaveNoSideEffect : Prop :=
  ∀ (s : State) (a : Addr) (w : Width) (rest : List EnvOp), s.dueWord = none → s.env = .read a w :: rest →
    ∃ t, step s = .next t ∧ t.readData = some (s.hostRead a w) ∧ t.env = rest ∧ t.captured = s.captured ∧
      t.busy = s.busy ∧ ∀ (a' : Addr) (w' : Width), t.hostRead a' w' = s.hostRead a' w'

/-! ### The header unit (spec/41_header.md) -/

/-- R130 with the tables of R121 to R125: HDR_DECODE completes, fills each slot of its layout with the little-endian
value of its bytes, and changes no other slot and nothing else. -/
def Obligations.HdrDecodeFillsTheSlots : Prop :=
  ∀ (s : State) (l : Layout), SrcFits s → layoutBytes l ≤ s.captured.srcLen.toNat →
    ∃ t, exec (.hdrDecode (layoutNumber l)) s = .next t ∧
      t = { s.ended 0 .none 0 with opr := { s.opr with frf := t.opr.frf } } ∧
      (∀ p ∈ slotTable l, frfGet t.opr.frf p.1 =
        BitVec.ofNat 32 (le (s.captured.ibuf.ibufBytes (s.captured.srcOff.toNat + p.2.1) p.2.2))) ∧
      ∀ k, (∀ p ∈ slotTable l, p.1 ≠ k) → frfGet t.opr.frf k = frfGet s.opr.frf k

/-- R130, R112: HDR_DECODE of a window shorter than the layout fails with TRUNCATED_INPUT and the size needed. -/
def Obligations.HdrDecodeOfAShortWindowFails : Prop :=
  ∀ (s : State) (l : Layout), SrcFits s → s.captured.srcLen.toNat < layoutBytes l →
    exec (.hdrDecode (layoutNumber l)) s =
      .next (s.ended 0 .truncatedInput (BitVec.ofNat 32 (layoutBytes l)))

/-- R135, R126, R127, R129: HDR_ENCODE completes when every slot fits, writes each slot's bytes at its place and zeros as
padding, and changes no other byte and nothing else. -/
def Obligations.HdrEncodeWritesTheHeader : Prop :=
  ∀ (s : State) (l : Layout), DstFits s → (∀ p ∈ slotTable l, slotFits s.captured.frf p) →
    layoutBytes l ≤ s.captured.dstCap.toNat →
    ∃ t, exec (.hdrEncode (layoutNumber l)) s = .next t ∧
      t = { s.ended (BitVec.ofNat 32 (layoutBytes l)) .none 0 with obuf := t.obuf } ∧
      (∀ p ∈ slotTable l, t.obuf.obufBytes (s.captured.dstOff.toNat + p.2.1) p.2.2 =
        leBytes p.2.2 (frfGet s.captured.frf p.1).toNat) ∧
      (∀ i, i < layoutBytes l → coveredByte l i = false → t.obuf.obufByte (s.captured.dstOff.toNat + i) = 0) ∧
      SameOutside s t s.captured.dstOff.toNat (layoutBytes l)

/-- R135: the first field, in layout order, that does not fit is reported, before the output budget; then the budget. -/
def Obligations.HdrEncodeReportsTheFirstOverflow : Prop :=
  ∀ (s : State) (l : Layout), DstFits s →
    (∀ before p after, slotTable l = before ++ p :: after → (∀ q ∈ before, slotFits s.captured.frf q) →
      ¬ slotFits s.captured.frf p →
      exec (.hdrEncode (layoutNumber l)) s = .next (s.ended 0 .fieldOverflow (BitVec.ofNat 32 p.1))) ∧
    ((∀ p ∈ slotTable l, slotFits s.captured.frf p) → s.captured.dstCap.toNat < layoutBytes l →
      exec (.hdrEncode (layoutNumber l)) s =
        .next (s.ended 0 .outputOverflow (BitVec.ofNat 32 (layoutBytes l))))

/-- R155: HDR_DECODE followed by HDR_ENCODE of the same layout gives the header back, its padding bytes 0. -/
def Obligations.HeaderRoundTrip : Prop :=
  ∀ (s : State) (l : Layout) (n : Nat), s.captured = s.opr → SrcFits s → DstFits s →
    layoutBytes l ≤ s.opr.srcLen.toNat → layoutBytes l ≤ s.opr.dstCap.toNat →
    ∃ t u, exec (.hdrDecode (layoutNumber l)) s = .next t ∧
      exec (.hdrEncode (layoutNumber l)) (t.start (encode (.hdrEncode (layoutNumber l))) n) = .next u ∧
      u.errcode = .none ∧ u.outLen = BitVec.ofNat 32 (layoutBytes l) ∧
      ∀ i, i < layoutBytes l → u.obuf.obufByte (s.opr.dstOff.toNat + i) =
        if coveredByte l i then s.opr.ibuf.ibufByte (s.opr.srcOff.toNat + i) else 0

/-- R140, R128: FLAG_GET of a named flag answers its bit in FLAGRES and changes nothing else. -/
def Obligations.FlagGetReadsTheFlag : Prop :=
  ∀ (s : State) (i : BitVec 5),
    (i.toNat ∈ [0, 2, 3, 4, 5] → exec (.flagGet 0 i) s =
      .next { s.ended 0 .none 0 with flagres := (frfGet s.captured.frf 4).getLsbD i.toNat }) ∧
    (i.toNat ≤ 5 → exec (.flagGet 4 i) s =
      .next { s.ended 0 .none 0 with flagres := (frfGet s.captured.frf 5).getLsbD i.toNat })

/-- R145, R128: FLAG_PUT of a named flag sets its bit to FVAL, keeps every other bit of the slot and every other slot, and
changes nothing else. -/
def Obligations.FlagPutWritesTheFlag : Prop :=
  ∀ (s : State) (l : BitVec 4) (slot : Nat) (i : BitVec 5) (v : Bool),
    (l = 0 ∧ slot = 4 ∧ i.toNat ∈ [0, 2, 3, 4, 5] ∨ l = 4 ∧ slot = 5 ∧ i.toNat ≤ 5) →
    ∃ t, exec (.flagPut l i v) s = .next t ∧
      t = { s.ended 0 .none 0 with opr := { s.opr with frf := t.opr.frf } } ∧
      (∀ j, j < 32 → (frfGet t.opr.frf slot).getLsbD j =
        if j = i.toNat then v else (frfGet s.captured.frf slot).getLsbD j) ∧
      ∀ k, k ≠ slot → frfGet t.opr.frf k = frfGet s.opr.frf k

/-- R140, R145, R128: a FIDX that names no flag of the layout, or a layout without a flag field, gives UNKNOWN_FLAG. -/
def Obligations.UnnamedFlagsAreUnknown : Prop :=
  ∀ (s : State) (l : BitVec 4) (i : BitVec 5) (v : Bool),
    (l = 0 ∧ (i.toNat = 1 ∨ 6 ≤ i.toNat) ∨ l = 1 ∨ l = 2 ∨ l = 3 ∨ l = 4 ∧ 6 ≤ i.toNat) →
    exec (.flagGet l i) s = .next (s.ended 0 .unknownFlag (BitVec.ofNat 32 i.toNat)) ∧
    exec (.flagPut l i v) s = .next (s.ended 0 .unknownFlag (BitVec.ofNat 32 i.toNat))

/-- R150: STI_CHECK tests the magic, then RGB against INDEXED, then ZLIB, then AUX_OBJECT_DATA with RGB, then
AUX_OBJECT_DATA with INDEXED and without ETRLE, and accepts every other header. -/
def Obligations.StiCheckTestsInOrder : Prop :=
  ∀ (s : State) (f : Word), frfGet s.captured.frf 4 = f →
    exec .stiCheck s = .next (
      if frfGet s.captured.frf 0 ≠ 0x49435453#32 then s.ended 0 .formatMismatch 0
      else if f.getLsbD 2 = f.getLsbD 3 then s.ended 0 .formatMismatch 1
      else if f.getLsbD 4 = true then s.ended 0 .unsupportedFeature 0
      else if f.getLsbD 0 = true ∧ f.getLsbD 2 = true then s.ended 0 .unsupportedFeature 1
      else if f.getLsbD 0 = true ∧ f.getLsbD 3 = true ∧ f.getLsbD 5 = false then s.ended 0 .unsupportedFeature 2
      else s.ended 0 .none 0)

/-! ### The colour converter (spec/42_color.md) -/

/-- R161: a mask and depth agree exactly when the mask is `depth` contiguous ones at some position. -/
def Obligations.MaskCheckMeansContiguousOnes : Prop :=
  ∀ c : Channel, maskOk c = true ↔ MaskAgrees c

/-- R162, R163: CSPEC_VALIDATE tests the four channels in order, then the total depth, then the sum of the depths, and
accepts every valid spec. -/
def Obligations.CspecValidateTestsInOrder : Prop :=
  ∀ (s : State) (c : ColorSpec), colorSpec s.captured = c →
    (¬ MaskAgrees c.r → exec .cspecValidate s = .next (s.ended 0 .invalidSpec 0)) ∧
    (MaskAgrees c.r → ¬ MaskAgrees c.g → exec .cspecValidate s = .next (s.ended 0 .invalidSpec 1)) ∧
    (MaskAgrees c.r → MaskAgrees c.g → ¬ MaskAgrees c.b →
      exec .cspecValidate s = .next (s.ended 0 .invalidSpec 2)) ∧
    (MaskAgrees c.r → MaskAgrees c.g → MaskAgrees c.b → ¬ MaskAgrees c.a →
      exec .cspecValidate s = .next (s.ended 0 .invalidSpec 3)) ∧
    (MaskAgrees c.r → MaskAgrees c.g → MaskAgrees c.b → MaskAgrees c.a →
      (c.total = 0 ∨ c.total % 8 ≠ 0 ∨ 64 < c.total → exec .cspecValidate s = .next (s.ended 0 .invalidSpec 4)) ∧
      (0 < c.total → c.total % 8 = 0 → c.total ≤ 64 →
        c.total < c.r.depth + c.g.depth + c.b.depth + c.a.depth →
        exec .cspecValidate s = .next (s.ended 0 .invalidSpec 5))) ∧
    (SpecValid c → exec .cspecValidate s = .next (s.ended 0 .none 0))

/-- R162: every colour command validates the spec before anything else of its own, with the same error. -/
def Obligations.ColourCommandsValidateFirst : Prop :=
  ∀ (s : State) (k : Word), exec .cspecValidate s = .next (s.ended 0 .invalidSpec k) →
    exec .pixUnpack s = .next (s.ended 0 .invalidSpec k) ∧
    exec .pixPack s = .next (s.ended 0 .invalidSpec k) ∧
    (SrcFits s → DstFits s →
      exec .pixDecode s = .next (s.ended 0 .invalidSpec k) ∧
      exec .pixEncode s = .next (s.ended 0 .invalidSpec k))

/-- R168, R164: PIX_UNPACK of a valid spec writes the four channels of RAW, each 0 to 255, and nothing else. -/
def Obligations.PixUnpackWritesTheComponents : Prop :=
  ∀ s : State, SpecValid (colorSpec s.captured) →
    ∃ t r g b a, exec .pixUnpack s = .next t ∧
      t = { s.ended 0 .none 0 with opr := { s.opr with
        compR := BitVec.ofNat 32 r, compG := BitVec.ofNat 32 g, compB := BitVec.ofNat 32 b,
        compA := BitVec.ofNat 32 a } } ∧
      Unpacks s.captured.raw (colorSpec s.captured).r r ∧ Unpacks s.captured.raw (colorSpec s.captured).g g ∧
      Unpacks s.captured.raw (colorSpec s.captured).b b ∧ Unpacks s.captured.raw (colorSpec s.captured).a a ∧
      r ≤ 255 ∧ g ≤ 255 ∧ b ≤ 255 ∧ a ≤ 255

/-- R169, R165, R174: PIX_PACK of a valid spec and components up to 255 writes the OR of the four packed channels to RAW,
each inside its mask, and nothing else. -/
def Obligations.PixPackWritesThePixel : Prop :=
  ∀ s : State, SpecValid (colorSpec s.captured) → s.captured.compR.toNat ≤ 255 → s.captured.compG.toNat ≤ 255 →
    s.captured.compB.toNat ≤ 255 → s.captured.compA.toNat ≤ 255 →
    ∃ r g b a : Word, exec .pixPack s =
        .next { s.ended 0 .none 0 with opr := { s.opr with raw := r ||| g ||| b ||| a } } ∧
      Packs s.captured.compR.toNat (colorSpec s.captured).r r ∧
      Packs s.captured.compG.toNat (colorSpec s.captured).g g ∧
      Packs s.captured.compB.toNat (colorSpec s.captured).b b ∧
      Packs s.captured.compA.toNat (colorSpec s.captured).a a ∧
      r &&& s.captured.cmaskR = r ∧ g &&& s.captured.cmaskG = g ∧ b &&& s.captured.cmaskB = b ∧
      a &&& s.captured.cmaskA = a

/-- R169: the first component above 255, in channel order, is reported. -/
def Obligations.PixPackRejectsLargeComponents : Prop :=
  ∀ s : State, SpecValid (colorSpec s.captured) →
    (255 < s.captured.compR.toNat → exec .pixPack s = .next (s.ended 0 .invalidComponent 0)) ∧
    (s.captured.compR.toNat ≤ 255 → 255 < s.captured.compG.toNat →
      exec .pixPack s = .next (s.ended 0 .invalidComponent 1)) ∧
    (s.captured.compR.toNat ≤ 255 → s.captured.compG.toNat ≤ 255 → 255 < s.captured.compB.toNat →
      exec .pixPack s = .next (s.ended 0 .invalidComponent 2)) ∧
    (s.captured.compR.toNat ≤ 255 → s.captured.compG.toNat ≤ 255 → s.captured.compB.toNat ≤ 255 →
      255 < s.captured.compA.toNat → exec .pixPack s = .next (s.ended 0 .invalidComponent 3))

/-- R173: PIX_UNPACK of what PIX_PACK made gives each channel whose mask meets no other back within its bound. -/
def Obligations.PackThenUnpackIsWithinTheBound : Prop :=
  ∀ (s : State) (n : Nat), s.captured = s.opr → SpecValid (colorSpec s.opr) → s.opr.compR.toNat ≤ 255 →
    s.opr.compG.toNat ≤ 255 → s.opr.compB.toNat ≤ 255 → s.opr.compA.toNat ≤ 255 →
    ∃ t u, exec .pixPack s = .next t ∧ exec .pixUnpack (t.start (encode .pixUnpack) n) = .next u ∧
      u.errcode = .none ∧
      (s.opr.cmaskR &&& (s.opr.cmaskG ||| s.opr.cmaskB ||| s.opr.cmaskA) = 0 →
        RoundTripBound (colorSpec s.opr).r.depth s.opr.compR.toNat u.opr.compR.toNat) ∧
      (s.opr.cmaskG &&& (s.opr.cmaskR ||| s.opr.cmaskB ||| s.opr.cmaskA) = 0 →
        RoundTripBound (colorSpec s.opr).g.depth s.opr.compG.toNat u.opr.compG.toNat) ∧
      (s.opr.cmaskB &&& (s.opr.cmaskR ||| s.opr.cmaskG ||| s.opr.cmaskA) = 0 →
        RoundTripBound (colorSpec s.opr).b.depth s.opr.compB.toNat u.opr.compB.toNat) ∧
      (s.opr.cmaskA &&& (s.opr.cmaskR ||| s.opr.cmaskG ||| s.opr.cmaskB) = 0 →
        RoundTripBound (colorSpec s.opr).a.depth s.opr.compA.toNat u.opr.compA.toNat)

/-- R171, R167: PIX_DECODE completes and writes the R, G, B, A bytes of every pixel, whose value is the little-endian
number of its first four bytes at most, and nothing else. -/
def Obligations.PixDecodeWritesThePixels : Prop :=
  ∀ (s : State) (bpp : Nat), SpecValid (colorSpec s.captured) → (colorSpec s.captured).total = 8 * bpp →
    SrcFits s → DstFits s → s.captured.pixCount.toNat * bpp ≤ s.captured.srcLen.toNat →
    s.captured.pixCount.toNat * 4 ≤ s.captured.dstCap.toNat →
    ∃ t, exec .pixDecode s = .next t ∧
      t = { s.ended (BitVec.ofNat 32 (s.captured.pixCount.toNat * 4)) .none 0 with obuf := t.obuf } ∧
      (∀ i, i < s.captured.pixCount.toNat → ∃ r g b a,
        t.obuf.obufBytes (s.captured.dstOff.toNat + 4 * i) 4 =
          [BitVec.ofNat 8 r, BitVec.ofNat 8 g, BitVec.ofNat 8 b, BitVec.ofNat 8 a] ∧
        r ≤ 255 ∧ g ≤ 255 ∧ b ≤ 255 ∧ a ≤ 255 ∧
        ∀ raw, raw = BitVec.ofNat 32
            (le (s.captured.ibuf.ibufBytes (s.captured.srcOff.toNat + i * bpp) (min bpp 4))) →
          Unpacks raw (colorSpec s.captured).r r ∧ Unpacks raw (colorSpec s.captured).g g ∧
          Unpacks raw (colorSpec s.captured).b b ∧ Unpacks raw (colorSpec s.captured).a a) ∧
      SameOutside s t s.captured.dstOff.toNat (s.captured.pixCount.toNat * 4)

/-- R172, R166, R175: PIX_ENCODE completes and writes every pixel's low `bpp` bytes, those past the fourth 0, and nothing
else. -/
def Obligations.PixEncodeWritesThePixels : Prop :=
  ∀ (s : State) (bpp : Nat), SpecValid (colorSpec s.captured) → (colorSpec s.captured).total = 8 * bpp →
    SrcFits s → DstFits s → s.captured.pixCount.toNat * 4 ≤ s.captured.srcLen.toNat →
    s.captured.pixCount.toNat * bpp ≤ s.captured.dstCap.toNat →
    ∃ t, exec .pixEncode s = .next t ∧
      t = { s.ended (BitVec.ofNat 32 (s.captured.pixCount.toNat * bpp)) .none 0 with obuf := t.obuf } ∧
      (∀ i, i < s.captured.pixCount.toNat → ∃ r g b a : Word,
        Packs (s.captured.ibuf.ibufByte (s.captured.srcOff.toNat + 4 * i)).toNat (colorSpec s.captured).r r ∧
        Packs (s.captured.ibuf.ibufByte (s.captured.srcOff.toNat + 4 * i + 1)).toNat (colorSpec s.captured).g g ∧
        Packs (s.captured.ibuf.ibufByte (s.captured.srcOff.toNat + 4 * i + 2)).toNat (colorSpec s.captured).b b ∧
        Packs (s.captured.ibuf.ibufByte (s.captured.srcOff.toNat + 4 * i + 3)).toNat (colorSpec s.captured).a a ∧
        ∀ j, j < bpp → t.obuf.obufByte (s.captured.dstOff.toNat + i * bpp + j) =
          (r ||| g ||| b ||| a).extractLsb' (8 * j) 8) ∧
      SameOutside s t s.captured.dstOff.toNat (s.captured.pixCount.toNat * bpp)

/-- R171, R172, R112: a pixel stream command whose window is too short fails with TRUNCATED_INPUT, and then one whose
budget is too small with OUTPUT_OVERFLOW, each with the saturated size. -/
def Obligations.PixelStreamsReportTheSizeNeeded : Prop :=
  ∀ (s : State) (n bpp : Nat), SpecValid (colorSpec s.captured) → (colorSpec s.captured).total = 8 * bpp →
    SrcFits s → DstFits s → s.captured.pixCount.toNat = n →
    (s.captured.srcLen.toNat < n * bpp →
      exec .pixDecode s = .next (s.ended 0 .truncatedInput (BitVec.ofNat 32 (min (n * bpp) 0xFFFFFFFF)))) ∧
    (n * bpp ≤ s.captured.srcLen.toNat → s.captured.dstCap.toNat < n * 4 →
      exec .pixDecode s = .next (s.ended 0 .outputOverflow (BitVec.ofNat 32 (min (n * 4) 0xFFFFFFFF)))) ∧
    (s.captured.srcLen.toNat < n * 4 →
      exec .pixEncode s = .next (s.ended 0 .truncatedInput (BitVec.ofNat 32 (min (n * 4) 0xFFFFFFFF)))) ∧
    (n * 4 ≤ s.captured.srcLen.toNat → s.captured.dstCap.toNat < n * bpp →
      exec .pixEncode s = .next (s.ended 0 .outputOverflow (BitVec.ofNat 32 (min (n * bpp) 0xFFFFFFFF))))

/-! ### The ETRLE unit (spec/43_etrle.md) -/

/-- R201, R203, R204 (properties 1 and 3), spec/30_encoding.md R89, R90: a compressed line is records that stand for the
line's bytes, each of length 1 to 127, no two neighbours of one kind unless the first has length 127, and one
end-of-line byte. -/
def Obligations.CompressedLineIsRunsAndOneEnd : Prop :=
  ∀ line : List Byte, ∃ rs : List Record,
    compressLine line = streamOf rs ++ [0x00#8] ∧ outputOf rs = line ∧
    (∀ r ∈ rs, r.wf = true ∧ r ≠ .eol ∧ r ≠ .zeros 0) ∧
    ∀ before r r' after, rs = before ++ r :: r' :: after → r.output.length < 127 →
      (∃ n, r = .zeros n ∧ ∃ bs, r' = .literal bs) ∨ (∃ bs, r = .literal bs ∧ ∃ n, r' = .zeros n)

/-- R202, R204 (property 2): a compressed run holds only zeros that are not isolated, and a literal run only non-zero
bytes and isolated zeros, so an isolated zero is never coded as a compressed run of its own. Byte `k` of a line is
isolated when it is 0 and both its neighbours exist and are not. -/
def Obligations.IsolatedZerosStayLiteral : Prop :=
  ∀ line : List Byte, ∃ rs : List Record,
    compressLine line = streamOf rs ++ [0x00#8] ∧ outputOf rs = line ∧ (∀ r ∈ rs, r.wf = true ∧ r ≠ .eol) ∧
    ∀ before r after, rs = before ++ r :: after → ∀ j, j < r.output.length →
      ∀ k, k = (outputOf before).length + j →
        ((∃ n, r = .zeros n) ↔
          line.getD k 0 = 0 ∧
            ¬ (0 < k ∧ k + 1 < line.length ∧ line.getD (k - 1) 0 ≠ 0 ∧ line.getD (k + 1) 0 ≠ 0))

/-- R204 (property 4): the length of a compressed line. -/
def Obligations.CompressedLineLengthBound : Prop :=
  ∀ line : List Byte, (compressLine line).length ≤ line.length + (line.length + 126) / 127 + 1 ∧
    ((∀ b ∈ line, b ≠ 0) → (compressLine line).length = line.length + (line.length + 126) / 127 + 1)

/-- R204 (property 5): decompressing compressed lines gives back exactly the lines and counts them; no line is found of
a wrong length when all have the length asked for, or when none is asked for (width 0). -/
def Obligations.DecompressOfCompressIsTheLines : Prop :=
  ∀ (ls : List (List Byte)) (cap width : Nat), ls.flatten.length ≤ cap →
    (width = 0 ∨ ∀ l ∈ ls, l.length = width) →
    ∃ d, decompressStream (ls.flatMap compressLine) cap width = .ok d ∧
      d.out = ls.flatten ∧ d.lines = ls.length ∧ d.unterm = false ∧ d.lenmis = false

/-- R205: ETRLE_COMPRESS completes when its input and output fit, and writes the compressed lines, in order, and nothing
else. -/
def Obligations.EtrleCompressWritesTheLines : Prop :=
  ∀ (s : State) (out : List Byte), SrcFits s → DstFits s →
    s.captured.lineLen.toNat * s.captured.lineCnt.toNat ≤ s.captured.srcLen.toNat →
    out = (List.range s.captured.lineCnt.toNat).flatMap (fun r => compressLine
      (s.captured.ibuf.ibufBytes (s.captured.srcOff.toNat + r * s.captured.lineLen.toNat)
        s.captured.lineLen.toNat)) →
    out.length ≤ s.captured.dstCap.toNat →
    ∃ t, exec .etrleCompress s = .next t ∧
      t = { s.ended (BitVec.ofNat 32 out.length) .none 0 with obuf := t.obuf } ∧
      t.obuf.obufBytes s.captured.dstOff.toNat out.length = out ∧
      SameOutside s t s.captured.dstOff.toNat out.length

/-- R205, R112, R110: ETRLE_COMPRESS of too short a window, and then one whose output exceeds the budget, fail with the
saturated size. -/
def Obligations.EtrleCompressReportsTheSizeNeeded : Prop :=
  ∀ s : State, SrcFits s → DstFits s →
    (s.captured.srcLen.toNat < s.captured.lineLen.toNat * s.captured.lineCnt.toNat →
      exec .etrleCompress s = .next (s.ended 0 .truncatedInput
        (BitVec.ofNat 32 (min (s.captured.lineLen.toNat * s.captured.lineCnt.toNat) 0xFFFFFFFF)))) ∧
    (s.captured.lineLen.toNat * s.captured.lineCnt.toNat ≤ s.captured.srcLen.toNat →
      s.captured.dstCap.toNat < (compressedLines s.captured).length →
      exec .etrleCompress s = .next (s.ended 0 .outputOverflow
        (BitVec.ofNat 32 (min (compressedLines s.captured).length 0xFFFFFFFF))))

/-- R206, R207, spec/30_encoding.md R89: ETRLE_DECOMPRESS of any sequence of records completes when the output fits; it
writes the records' bytes, counts the end-of-line records, reports an unterminated stream and a line of another length
than LINE_LEN, and changes nothing else. -/
def Obligations.EtrleDecompressDecodesAnyRecords : Prop :=
  ∀ (s : State) (rs : List Record), SrcFits s → DstFits s → (∀ r ∈ rs, r.wf = true) →
    s.captured.ibuf.ibufBytes s.captured.srcOff.toNat s.captured.srcLen.toNat = streamOf rs →
    (outputOf rs).length ≤ s.captured.dstCap.toNat →
    ∃ t, exec .etrleDecompress s = .next t ∧
      t = { s.ended (BitVec.ofNat 32 (outputOf rs).length) .none 0 with
        obuf := t.obuf
        lines := BitVec.ofNat 32 (rs.count .eol)
        unterm := unterminated rs
        lenmis := s.captured.lineLen != 0 &&
          (endedLengths 0 rs).any (fun n => n != s.captured.lineLen.toNat) } ∧
      t.obuf.obufBytes s.captured.dstOff.toNat (outputOf rs).length = outputOf rs ∧
      SameOutside s t s.captured.dstOff.toNat (outputOf rs).length

/-- R206, R207: the first control byte at fault is reported by its offset: MALFORMED_RUN for a literal run that passes the
window's end, OUTPUT_OVERFLOW for a run that passes the budget, the former tested first. -/
def Obligations.EtrleDecompressReportsTheFirstFault : Prop :=
  ∀ (s : State) (rs : List Record) (rest : List Byte), SrcFits s → DstFits s → (∀ r ∈ rs, r.wf = true) →
    (outputOf rs).length ≤ s.captured.dstCap.toNat →
    (∀ c : Byte, 1 ≤ c.toNat → c.toNat ≤ 127 → rest.length < c.toNat →
      s.captured.ibuf.ibufBytes s.captured.srcOff.toNat s.captured.srcLen.toNat = streamOf rs ++ c :: rest →
      exec .etrleDecompress s =
        .next (s.ended 0 .malformedRun (BitVec.ofNat 32 (streamOf rs).length))) ∧
    (∀ r : Record, r.wf = true → s.captured.dstCap.toNat < (outputOf rs).length + r.output.length →
      s.captured.ibuf.ibufBytes s.captured.srcOff.toNat s.captured.srcLen.toNat = streamOf rs ++ (r.bytes ++ rest) →
      exec .etrleDecompress s =
        .next (s.ended 0 .outputOverflow (BitVec.ofNat 32 (streamOf rs).length)))

/-- R205, R207, R208: a machine that decompresses, from a source window holding what ETRLE_COMPRESS wrote, restores the
compressed lines, counts them, and reports nothing in INFO. -/
def Obligations.DecompressAfterCompressRestoresTheLines : Prop :=
  ∀ s t u : State, exec .etrleCompress s = .next t → t.errcode = .none → SrcFits u → DstFits u →
    u.captured.ibuf.ibufBytes u.captured.srcOff.toNat u.captured.srcLen.toNat =
      t.obuf.obufBytes s.captured.dstOff.toNat t.outLen.toNat →
    (u.captured.lineLen = s.captured.lineLen ∨ u.captured.lineLen = 0) →
    s.captured.lineLen.toNat * s.captured.lineCnt.toNat ≤ u.captured.dstCap.toNat →
    ∃ v, exec .etrleDecompress u = .next v ∧ v.errcode = .none ∧ v.lines = s.captured.lineCnt ∧
      v.unterm = false ∧ v.lenmis = false ∧
      v.obuf.obufBytes u.captured.dstOff.toNat v.outLen.toNat =
        s.captured.ibuf.ibufBytes s.captured.srcOff.toNat
          (s.captured.lineLen.toNat * s.captured.lineCnt.toNat)
end

