-- ==== Sys2Proof/Laws/Bits.lean ====
section
/-! SUPPORT. Byte order: `le` and `leBytes` are inverse (spec/00_scope.md R10), and `sat32`. -/

namespace Sys2Proof.Machine

@[simp] theorem le_nil : le [] = 0 := rfl

@[simp] theorem le_cons (b : Byte) (bs : List Byte) : le (b :: bs) = b.toNat + 256 * le bs := rfl

@[simp] theorem leBytes_zero (v : Nat) : leBytes 0 v = [] := rfl

@[simp] theorem leBytes_succ (n v : Nat) :
    leBytes (n + 1) v = BitVec.ofNat 8 v :: leBytes n (v / 256) := rfl

@[simp] theorem leBytes_length (n v : Nat) : (leBytes n v).length = n := by
  induction n generalizing v with
  | zero => rfl
  | succ n ih => simp only [leBytes_succ, List.length_cons, ih]

/-- The number of `n` bytes is below `256 ^ n`. -/
theorem le_lt (bs : List Byte) : le bs < 256 ^ bs.length := by
  induction bs with
  | nil => simp
  | cons b bs ih =>
    have hb : b.toNat < 256 := b.isLt
    rw [le_cons, List.length_cons, Nat.pow_succ]
    omega

/-- Splitting a number into `n` bytes and joining them keeps its low `8 n` bits. -/
theorem le_leBytes (n v : Nat) : le (leBytes n v) = v % 256 ^ n := by
  induction n generalizing v with
  | zero => simp [Nat.mod_one]
  | succ n ih =>
    have h : 256 ^ (n + 1) = 256 * 256 ^ n := Nat.pow_succ'
    rw [leBytes_succ, le_cons, ih, h, Nat.mod_mul]
    rfl

/-- Joining bytes and splitting them again gives the bytes. -/
theorem leBytes_le (bs : List Byte) : leBytes bs.length (le bs) = bs := by
  induction bs with
  | nil => rfl
  | cons b bs ih =>
    have hb : b.toNat < 256 := b.isLt
    rw [List.length_cons, leBytes_succ, le_cons]
    have h1 : BitVec.ofNat 8 (b.toNat + 256 * le bs) = b := by
      apply BitVec.eq_of_toNat_eq
      rw [BitVec.toNat_ofNat]
      omega
    have h2 : (b.toNat + 256 * le bs) / 256 = le bs := by omega
    rw [h1, h2, ih]

/-- The i-th byte of a number. -/
theorem leBytes_getElem (n v i : Nat) (h : i < (leBytes n v).length) :
    (leBytes n v)[i] = BitVec.ofNat 8 (v / 256 ^ i) := by
  induction n generalizing v i with
  | zero => simp at h
  | succ n ih =>
    cases i with
    | zero => simp
    | succ i =>
      have h' : i < (leBytes n (v / 256)).length := by simpa using h
      have := ih (v / 256) i h'
      simp only [leBytes_succ, List.getElem_cons_succ, this, Nat.div_div_eq_div_mul, Nat.pow_succ,
        Nat.mul_comm]

/-- A count of at most 32 bits is reported as it is. -/
theorem sat32_toNat (v : Nat) : (sat32 v).toNat = min v 0xFFFFFFFF := by
  rw [sat32, BitVec.toNat_ofNat]
  omega

end Sys2Proof.Machine
end

