-- ==== Sys2Proof/Laws/Memory.lean ====
section
/-! SUPPORT. The buffers: read after write, every other byte unchanged, the canonical form kept, and equal contents
are equal data. -/

namespace Sys2Proof.Machine

/-! ### Cells -/

theorem lookupCell_insertCell_same (cs : List Host.Cell) (a : Nat) (b : Byte) :
    lookupCell (insertCell cs a b) a = some b := by
  induction cs with
  | nil => simp [insertCell, lookupCell]
  | cons c cs ih =>
    simp only [insertCell]
    split
    · simp [lookupCell]
    · split
      · simp [lookupCell]
      · simp [lookupCell, *]

theorem lookupCell_insertCell_other (cs : List Host.Cell) {a x : Nat} (b : Byte) (h : x ≠ a) :
    lookupCell (insertCell cs a b) x = lookupCell cs x := by
  induction cs with
  | nil => simp [insertCell, lookupCell, h]
  | cons c cs ih =>
    simp only [insertCell]
    split
    · simp [lookupCell, h]
    · split
      · next h2 => simp [lookupCell, h, ← h2]
      · simp [lookupCell, ih]

/-- A list of cells is canonical when its head lies below every other offset and its tail is canonical. -/
theorem cellsSorted_cons (c : Host.Cell) (cs : List Host.Cell) :
    cellsSorted (c :: cs) = true ↔ (∀ d ∈ cs.head?, c.1 < d.1) ∧ cellsSorted cs = true := by
  cases cs with
  | nil => simp [cellsSorted]
  | cons d cs => simp [cellsSorted]

theorem insertCell_head (cs : List Host.Cell) (a : Nat) (b : Byte) (k : Nat) (hk : k < a)
    (h : ∀ d ∈ cs.head?, k < d.1) : ∀ d ∈ (insertCell cs a b).head?, k < d.1 := by
  cases cs with
  | nil => simpa [insertCell] using hk
  | cons c cs =>
    simp only [insertCell]
    split
    · simpa using hk
    · split
      · simpa using hk
      · simpa using h

theorem cellsSorted_insertCell (cs : List Host.Cell) (a : Nat) (b : Byte) (h : cellsSorted cs = true) :
    cellsSorted (insertCell cs a b) = true := by
  induction cs with
  | nil => rfl
  | cons c cs ih =>
    obtain ⟨hc, hs⟩ := (cellsSorted_cons c cs).1 h
    simp only [insertCell]
    split
    · next h1 => exact (cellsSorted_cons _ _).2 ⟨by simpa using h1, h⟩
    · split
      · next h2 => exact (cellsSorted_cons _ _).2 ⟨by simpa only [h2] using hc, hs⟩
      · next h1 h2 =>
        exact (cellsSorted_cons _ _).2 ⟨insertCell_head cs a b c.1 (by omega) hc, ih hs⟩

/-- Below a canonical list's head nothing is listed. -/
theorem lookupCell_below (cs : List Host.Cell) (a : Nat) (hs : cellsSorted cs = true)
    (h : ∀ d ∈ cs.head?, a < d.1) : lookupCell cs a = none := by
  induction cs with
  | nil => rfl
  | cons c cs ih =>
    obtain ⟨hc, hs'⟩ := (cellsSorted_cons c cs).1 hs
    have hac : a < c.1 := by simpa using h
    have := ih hs' (fun d hd => Nat.lt_trans hac (hc d hd))
    simp only [lookupCell, Nat.ne_of_lt hac, if_false, this]

theorem lookupCell_head (c : Host.Cell) (cs : List Host.Cell) : lookupCell (c :: cs) c.1 = some c.2 := by
  simp [lookupCell]

/-- Canonical lists with the same bytes are the same list. -/
theorem cells_ext (cs ds : List Host.Cell) (hc : cellsSorted cs = true) (hd : cellsSorted ds = true)
    (h : ∀ a, lookupCell cs a = lookupCell ds a) : cs = ds := by
  induction cs generalizing ds with
  | nil =>
    cases ds with
    | nil => rfl
    | cons d ds => simpa [lookupCell] using h d.1
  | cons c cs ih =>
    cases ds with
    | nil => simpa [lookupCell] using h c.1
    | cons d ds =>
      obtain ⟨hc1, hc2⟩ := (cellsSorted_cons c cs).1 hc
      obtain ⟨hd1, hd2⟩ := (cellsSorted_cons d ds).1 hd
      have hlt : ¬ c.1 < d.1 := fun hl => by
        have := lookupCell_below (d :: ds) c.1 hd (by simpa using hl)
        rw [← h, lookupCell_head] at this
        cases this
      have hgt : ¬ d.1 < c.1 := fun hl => by
        have := lookupCell_below (c :: cs) d.1 hc (by simpa using hl)
        rw [h, lookupCell_head] at this
        cases this
      have h1 : c.1 = d.1 := by omega
      have h2 : c.2 = d.2 := by
        have := h c.1
        rw [lookupCell_head, h1, lookupCell_head] at this
        simpa using this
      have h3 : cs = ds := ih ds hc2 hd2 fun a => by
        by_cases ha : a = c.1
        · subst ha
          rw [lookupCell_below cs _ hc2 hc1, lookupCell_below ds _ hd2 (by simpa only [h1] using hd1)]
        · have := h a
          simpa only [lookupCell, ← h1, ha, if_false] using this
      rw [show c = d from Prod.ext h1 h2, h3]

/-! ### Buffers -/

@[simp] theorem Memory.writeBytes_nil (m : Memory) (off : Nat) : m.writeBytes off [] = m := rfl

@[simp] theorem Memory.writeBytes_cons (m : Memory) (off : Nat) (b : Byte) (bs : List Byte) :
    m.writeBytes off (b :: bs) = (m.writeByte off b).writeBytes (off + 1) bs := rfl

@[simp] theorem Memory.writeByte_power (m : Memory) (off : Nat) (b : Byte) :
    (m.writeByte off b).power = m.power := rfl

@[simp] theorem Memory.writeBytes_power (m : Memory) (off : Nat) (bs : List Byte) :
    (m.writeBytes off bs).power = m.power := by
  induction bs generalizing m off with
  | nil => rfl
  | cons b bs ih => simp only [Memory.writeBytes_cons, ih, Memory.writeByte_power]

/-- The canonical form at reset. -/
@[simp] theorem Memory.wf_unwritten (power : Nat) : (Memory.unwritten power).wf = true := rfl

@[simp] theorem Memory.within_unwritten (power size : Nat) :
    (Memory.unwritten power).within size = true := rfl

/-- A byte's write keeps the canonical form. -/
theorem Memory.wf_writeByte {m : Memory} (h : m.wf = true) (off : Nat) (b : Byte) :
    (m.writeByte off b).wf = true := cellsSorted_insertCell m.cells off b h

/-- Every write keeps the canonical form. -/
theorem Memory.wf_writeBytes {m : Memory} (h : m.wf = true) (off : Nat) (bs : List Byte) :
    (m.writeBytes off bs).wf = true := by
  induction bs generalizing m off with
  | nil => exact h
  | cons b bs ih => exact ih (Memory.wf_writeByte h off b) (off + 1)

theorem insertCell_within {cs : List Host.Cell} {size : Nat} (h : cs.all (fun c => decide (c.1 < size)) = true)
    {a : Nat} (ha : a < size) (b : Byte) :
    (insertCell cs a b).all (fun c => decide (c.1 < size)) = true := by
  induction cs with
  | nil => simpa [insertCell] using ha
  | cons c cs ih =>
    simp only [List.all_cons, Bool.and_eq_true, decide_eq_true_eq] at h
    simp only [insertCell]
    split
    · simp only [List.all_cons, Bool.and_eq_true, decide_eq_true_eq]
      exact ⟨ha, h.1, h.2⟩
    · split
      · simp only [List.all_cons, Bool.and_eq_true, decide_eq_true_eq]
        exact ⟨ha, h.2⟩
      · simp only [List.all_cons, Bool.and_eq_true, decide_eq_true_eq]
        exact ⟨h.1, ih h.2⟩

/-- A write inside a buffer keeps every listed byte inside it. -/
theorem Memory.within_writeBytes {m : Memory} {size : Nat} (h : m.within size = true) (off : Nat)
    (bs : List Byte) (hb : off + bs.length ≤ size) : (m.writeBytes off bs).within size = true := by
  induction bs generalizing m off with
  | nil => exact h
  | cons b bs ih =>
    simp only [List.length_cons] at hb
    exact ih (m := m.writeByte off b) (insertCell_within h (by omega) b) (off + 1) (by omega)

/-- What is listed after a write: the bytes written, at their offsets, and everything else as before. -/
theorem Memory.lookup_writeBytes (m : Memory) (off : Nat) (bs : List Byte) (a : Nat) :
    lookupCell (m.writeBytes off bs).cells a =
      if off ≤ a ∧ a < off + bs.length then bs[a - off]? else lookupCell m.cells a := by
  induction bs generalizing m off with
  | nil => simp
  | cons b bs ih =>
    rw [Memory.writeBytes_cons, ih]
    by_cases h1 : off + 1 ≤ a ∧ a < off + 1 + bs.length
    · have h2 : off ≤ a ∧ a < off + (b :: bs).length := by simp only [List.length_cons]; omega
      have h3 : a - off = (a - (off + 1)) + 1 := by omega
      simp only [h1, h2, if_true, h3, List.getElem?_cons_succ, and_self]
    · rw [if_neg h1]
      by_cases h4 : a = off
      · subst h4
        simp [Memory.writeByte, lookupCell_insertCell_same]
      · have h5 : ¬ (off ≤ a ∧ a < off + (b :: bs).length) := by simp only [List.length_cons]; omega
        rw [if_neg h5]
        exact lookupCell_insertCell_other m.cells b h4

/-- IBUF: a byte written is read back. -/
theorem Memory.ibufByte_writeBytes_inside (m : Memory) (off : Nat) (bs : List Byte) (i : Nat)
    (h : i < bs.length) : (m.writeBytes off bs).ibufByte (off + i) = bs[i] := by
  have h1 : off ≤ off + i ∧ off + i < off + bs.length := by omega
  simp only [Memory.ibufByte, Memory.lookup_writeBytes, h1, and_self, if_true, Nat.add_sub_cancel_left,
    List.getElem?_eq_getElem h, Option.getD_some]

/-- IBUF: every byte outside a write is unchanged. -/
theorem Memory.ibufByte_writeBytes_outside (m : Memory) (off : Nat) (bs : List Byte) (a : Nat)
    (h : a < off ∨ off + bs.length ≤ a) : (m.writeBytes off bs).ibufByte a = m.ibufByte a := by
  have h1 : ¬ (off ≤ a ∧ a < off + bs.length) := by omega
  simp only [Memory.ibufByte, Memory.lookup_writeBytes, h1, if_false, Memory.writeBytes_power]

/-- OBUF: a byte written is read back. -/
theorem Memory.obufByte_writeBytes_inside (m : Memory) (off : Nat) (bs : List Byte) (i : Nat)
    (h : i < bs.length) : (m.writeBytes off bs).obufByte (off + i) = bs[i] := by
  have h1 : off ≤ off + i ∧ off + i < off + bs.length := by omega
  simp only [Memory.obufByte, Memory.lookup_writeBytes, h1, and_self, if_true, Nat.add_sub_cancel_left,
    List.getElem?_eq_getElem h, Option.getD_some]

/-- OBUF: every byte outside a write is unchanged. -/
theorem Memory.obufByte_writeBytes_outside (m : Memory) (off : Nat) (bs : List Byte) (a : Nat)
    (h : a < off ∨ off + bs.length ≤ a) : (m.writeBytes off bs).obufByte a = m.obufByte a := by
  have h1 : ¬ (off ≤ a ∧ a < off + bs.length) := by omega
  simp only [Memory.obufByte, Memory.lookup_writeBytes, h1, if_false, Memory.writeBytes_power]

@[simp] theorem Memory.ibufBytes_length (m : Memory) (off n : Nat) : (m.ibufBytes off n).length = n := by
  simp only [Memory.ibufBytes, List.length_map, List.length_range]

@[simp] theorem Memory.obufBytes_length (m : Memory) (off n : Nat) : (m.obufBytes off n).length = n := by
  simp only [Memory.obufBytes, List.length_map, List.length_range]

@[simp] theorem Memory.ibufBytes_getElem (m : Memory) (off n i : Nat) (h : i < (m.ibufBytes off n).length) :
    (m.ibufBytes off n)[i] = m.ibufByte (off + i) := by
  simp only [Memory.ibufBytes, List.getElem_map, List.getElem_range]

@[simp] theorem Memory.obufBytes_getElem (m : Memory) (off n i : Nat) (h : i < (m.obufBytes off n).length) :
    (m.obufBytes off n)[i] = m.obufByte (off + i) := by
  simp only [Memory.obufBytes, List.getElem_map, List.getElem_range]

/-- IBUF: a write is read back whole. -/
theorem Memory.ibufBytes_writeBytes (m : Memory) (off : Nat) (bs : List Byte) :
    (m.writeBytes off bs).ibufBytes off bs.length = bs := by
  apply List.ext_getElem
  · simp
  · intro i h1 h2
    rw [Memory.ibufBytes_getElem, Memory.ibufByte_writeBytes_inside m off bs i h2]

/-- OBUF: a write is read back whole. -/
theorem Memory.obufBytes_writeBytes (m : Memory) (off : Nat) (bs : List Byte) :
    (m.writeBytes off bs).obufBytes off bs.length = bs := by
  apply List.ext_getElem
  · simp
  · intro i h1 h2
    rw [Memory.obufBytes_getElem, Memory.obufByte_writeBytes_inside m off bs i h2]

/-- Buffers in canonical form that list the same bytes over the same power-on are equal. -/
theorem Memory.ext_lookup {m n : Memory} (hm : m.wf = true) (hn : n.wf = true) (hp : m.power = n.power)
    (h : ∀ a, lookupCell m.cells a = lookupCell n.cells a) : m = n := by
  obtain ⟨cs, p⟩ := m
  obtain ⟨ds, q⟩ := n
  exact Memory.mk.injEq cs p ds q ▸ ⟨cells_ext cs ds hm hn h, hp⟩

end Sys2Proof.Machine
end

