-- ==== Sys2Proof/Laws/State.lean ====
section
/-! SUPPORT. One lemma for each field under each named update of the state, true by definition. -/

namespace Sys2Proof.Machine

variable (s : State)

@[simp] theorem State.start_ie (w : Word) (n : Nat) : (s.start w n).ie = s.ie := rfl
@[simp] theorem State.start_done (w : Word) (n : Nat) : (s.start w n).done = false := rfl
@[simp] theorem State.start_wlost (w : Word) (n : Nat) : (s.start w n).wlost = s.wlost := rfl
@[simp] theorem State.start_errcode (w : Word) (n : Nat) : (s.start w n).errcode = .none := rfl
@[simp] theorem State.start_cmd (w : Word) (n : Nat) : (s.start w n).cmd = w := rfl
@[simp] theorem State.start_errinfo (w : Word) (n : Nat) : (s.start w n).errinfo = s.errinfo := rfl
@[simp] theorem State.start_ibufSize (w : Word) (n : Nat) : (s.start w n).ibufSize = s.ibufSize := rfl
@[simp] theorem State.start_obufSize (w : Word) (n : Nat) : (s.start w n).obufSize = s.obufSize := rfl
@[simp] theorem State.start_outLen (w : Word) (n : Nat) : (s.start w n).outLen = s.outLen := rfl
@[simp] theorem State.start_flagres (w : Word) (n : Nat) : (s.start w n).flagres = s.flagres := rfl
@[simp] theorem State.start_lines (w : Word) (n : Nat) : (s.start w n).lines = s.lines := rfl
@[simp] theorem State.start_unterm (w : Word) (n : Nat) : (s.start w n).unterm = s.unterm := rfl
@[simp] theorem State.start_lenmis (w : Word) (n : Nat) : (s.start w n).lenmis = s.lenmis := rfl
@[simp] theorem State.start_opr (w : Word) (n : Nat) : (s.start w n).opr = s.opr := rfl
@[simp] theorem State.start_obuf (w : Word) (n : Nat) : (s.start w n).obuf = s.obuf := rfl
@[simp] theorem State.start_engine (w : Word) (n : Nat) : (s.start w n).engine = some { word := w, operands := s.opr, remaining := n } := rfl
@[simp] theorem State.start_env (w : Word) (n : Nat) : (s.start w n).env = s.env := rfl
@[simp] theorem State.start_readData (w : Word) (n : Nat) : (s.start w n).readData = s.readData := rfl
@[simp] theorem State.start_latencies (w : Word) (n : Nat) : (s.start w n).latencies = s.latencies := rfl
@[simp] theorem State.start_started (w : Word) (n : Nat) : (s.start w n).started = s.started := rfl

@[simp] theorem State.drawLatency_ie : s.drawLatency.ie = s.ie := rfl
@[simp] theorem State.drawLatency_done : s.drawLatency.done = s.done := rfl
@[simp] theorem State.drawLatency_wlost : s.drawLatency.wlost = s.wlost := rfl
@[simp] theorem State.drawLatency_errcode : s.drawLatency.errcode = s.errcode := rfl
@[simp] theorem State.drawLatency_cmd : s.drawLatency.cmd = s.cmd := rfl
@[simp] theorem State.drawLatency_errinfo : s.drawLatency.errinfo = s.errinfo := rfl
@[simp] theorem State.drawLatency_ibufSize : s.drawLatency.ibufSize = s.ibufSize := rfl
@[simp] theorem State.drawLatency_obufSize : s.drawLatency.obufSize = s.obufSize := rfl
@[simp] theorem State.drawLatency_outLen : s.drawLatency.outLen = s.outLen := rfl
@[simp] theorem State.drawLatency_flagres : s.drawLatency.flagres = s.flagres := rfl
@[simp] theorem State.drawLatency_lines : s.drawLatency.lines = s.lines := rfl
@[simp] theorem State.drawLatency_unterm : s.drawLatency.unterm = s.unterm := rfl
@[simp] theorem State.drawLatency_lenmis : s.drawLatency.lenmis = s.lenmis := rfl
@[simp] theorem State.drawLatency_opr : s.drawLatency.opr = s.opr := rfl
@[simp] theorem State.drawLatency_obuf : s.drawLatency.obuf = s.obuf := rfl
@[simp] theorem State.drawLatency_engine : s.drawLatency.engine = s.engine := rfl
@[simp] theorem State.drawLatency_env : s.drawLatency.env = s.env := rfl
@[simp] theorem State.drawLatency_readData : s.drawLatency.readData = s.readData := rfl
@[simp] theorem State.drawLatency_latencies : s.drawLatency.latencies = s.latencies.tail := rfl
@[simp] theorem State.drawLatency_started : s.drawLatency.started = s.started + 1 := rfl

@[simp] theorem State.complete_ie (c : ErrCode) (x : Word) : (s.complete c x).ie = s.ie := rfl
@[simp] theorem State.complete_done (c : ErrCode) (x : Word) : (s.complete c x).done = true := rfl
@[simp] theorem State.complete_wlost (c : ErrCode) (x : Word) : (s.complete c x).wlost = s.wlost := rfl
@[simp] theorem State.complete_errcode (c : ErrCode) (x : Word) : (s.complete c x).errcode = c := rfl
@[simp] theorem State.complete_cmd (c : ErrCode) (x : Word) : (s.complete c x).cmd = s.cmd := rfl
@[simp] theorem State.complete_errinfo (c : ErrCode) (x : Word) : (s.complete c x).errinfo = x := rfl
@[simp] theorem State.complete_ibufSize (c : ErrCode) (x : Word) : (s.complete c x).ibufSize = s.ibufSize := rfl
@[simp] theorem State.complete_obufSize (c : ErrCode) (x : Word) : (s.complete c x).obufSize = s.obufSize := rfl
@[simp] theorem State.complete_outLen (c : ErrCode) (x : Word) : (s.complete c x).outLen = s.outLen := rfl
@[simp] theorem State.complete_flagres (c : ErrCode) (x : Word) : (s.complete c x).flagres = s.flagres := rfl
@[simp] theorem State.complete_lines (c : ErrCode) (x : Word) : (s.complete c x).lines = s.lines := rfl
@[simp] theorem State.complete_unterm (c : ErrCode) (x : Word) : (s.complete c x).unterm = s.unterm := rfl
@[simp] theorem State.complete_lenmis (c : ErrCode) (x : Word) : (s.complete c x).lenmis = s.lenmis := rfl
@[simp] theorem State.complete_opr (c : ErrCode) (x : Word) : (s.complete c x).opr = s.opr := rfl
@[simp] theorem State.complete_obuf (c : ErrCode) (x : Word) : (s.complete c x).obuf = s.obuf := rfl
@[simp] theorem State.complete_engine (c : ErrCode) (x : Word) : (s.complete c x).engine = none := rfl
@[simp] theorem State.complete_env (c : ErrCode) (x : Word) : (s.complete c x).env = s.env := rfl
@[simp] theorem State.complete_readData (c : ErrCode) (x : Word) : (s.complete c x).readData = s.readData := rfl
@[simp] theorem State.complete_latencies (c : ErrCode) (x : Word) : (s.complete c x).latencies = s.latencies := rfl
@[simp] theorem State.complete_started (c : ErrCode) (x : Word) : (s.complete c x).started = s.started := rfl

@[simp] theorem State.fail_ie (e : Err) : (s.fail e).ie = s.ie := rfl
@[simp] theorem State.fail_done (e : Err) : (s.fail e).done = true := rfl
@[simp] theorem State.fail_wlost (e : Err) : (s.fail e).wlost = s.wlost := rfl
@[simp] theorem State.fail_errcode (e : Err) : (s.fail e).errcode = e.code := rfl
@[simp] theorem State.fail_cmd (e : Err) : (s.fail e).cmd = s.cmd := rfl
@[simp] theorem State.fail_errinfo (e : Err) : (s.fail e).errinfo = e.info := rfl
@[simp] theorem State.fail_ibufSize (e : Err) : (s.fail e).ibufSize = s.ibufSize := rfl
@[simp] theorem State.fail_obufSize (e : Err) : (s.fail e).obufSize = s.obufSize := rfl
@[simp] theorem State.fail_outLen (e : Err) : (s.fail e).outLen = 0 := rfl
@[simp] theorem State.fail_flagres (e : Err) : (s.fail e).flagres = s.flagres := rfl
@[simp] theorem State.fail_lines (e : Err) : (s.fail e).lines = s.lines := rfl
@[simp] theorem State.fail_unterm (e : Err) : (s.fail e).unterm = s.unterm := rfl
@[simp] theorem State.fail_lenmis (e : Err) : (s.fail e).lenmis = s.lenmis := rfl
@[simp] theorem State.fail_opr (e : Err) : (s.fail e).opr = s.opr := rfl
@[simp] theorem State.fail_obuf (e : Err) : (s.fail e).obuf = s.obuf := rfl
@[simp] theorem State.fail_engine (e : Err) : (s.fail e).engine = none := rfl
@[simp] theorem State.fail_env (e : Err) : (s.fail e).env = s.env := rfl
@[simp] theorem State.fail_readData (e : Err) : (s.fail e).readData = s.readData := rfl
@[simp] theorem State.fail_latencies (e : Err) : (s.fail e).latencies = s.latencies := rfl
@[simp] theorem State.fail_started (e : Err) : (s.fail e).started = s.started := rfl

@[simp] theorem State.succeed_ie (w : Writes) : (s.succeed w).ie = s.ie := rfl
@[simp] theorem State.succeed_done (w : Writes) : (s.succeed w).done = true := rfl
@[simp] theorem State.succeed_wlost (w : Writes) : (s.succeed w).wlost = s.wlost := rfl
@[simp] theorem State.succeed_errcode (w : Writes) : (s.succeed w).errcode = .none := rfl
@[simp] theorem State.succeed_cmd (w : Writes) : (s.succeed w).cmd = s.cmd := rfl
@[simp] theorem State.succeed_errinfo (w : Writes) : (s.succeed w).errinfo = 0 := rfl
@[simp] theorem State.succeed_ibufSize (w : Writes) : (s.succeed w).ibufSize = s.ibufSize := rfl
@[simp] theorem State.succeed_obufSize (w : Writes) : (s.succeed w).obufSize = s.obufSize := rfl
@[simp] theorem State.succeed_outLen (w : Writes) : (s.succeed w).outLen = BitVec.ofNat 32 w.obuf.length := rfl
@[simp] theorem State.succeed_flagres (w : Writes) : (s.succeed w).flagres = w.flagres.getD s.flagres := rfl
@[simp] theorem State.succeed_lines (w : Writes) : (s.succeed w).lines = w.lines.getD s.lines := rfl
@[simp] theorem State.succeed_unterm (w : Writes) : (s.succeed w).unterm = (w.info.getD (s.unterm, s.lenmis)).1 := rfl
@[simp] theorem State.succeed_lenmis (w : Writes) : (s.succeed w).lenmis = (w.info.getD (s.unterm, s.lenmis)).2 := rfl
@[simp] theorem State.succeed_opr (w : Writes) : (s.succeed w).opr = (s.store w).opr := rfl
@[simp] theorem State.succeed_obuf (w : Writes) : (s.succeed w).obuf = s.obuf.writeBytes s.captured.dstOff.toNat w.obuf := rfl
@[simp] theorem State.succeed_engine (w : Writes) : (s.succeed w).engine = none := rfl
@[simp] theorem State.succeed_env (w : Writes) : (s.succeed w).env = s.env := rfl
@[simp] theorem State.succeed_readData (w : Writes) : (s.succeed w).readData = s.readData := rfl
@[simp] theorem State.succeed_latencies (w : Writes) : (s.succeed w).latencies = s.latencies := rfl
@[simp] theorem State.succeed_started (w : Writes) : (s.succeed w).started = s.started := rfl

@[simp] theorem State.softReset_ie : s.softReset.ie = false := rfl
@[simp] theorem State.softReset_done : s.softReset.done = false := rfl
@[simp] theorem State.softReset_wlost : s.softReset.wlost = false := rfl
@[simp] theorem State.softReset_errcode : s.softReset.errcode = .none := rfl
@[simp] theorem State.softReset_cmd : s.softReset.cmd = 0 := rfl
@[simp] theorem State.softReset_errinfo : s.softReset.errinfo = 0 := rfl
@[simp] theorem State.softReset_ibufSize : s.softReset.ibufSize = s.ibufSize := rfl
@[simp] theorem State.softReset_obufSize : s.softReset.obufSize = s.obufSize := rfl
@[simp] theorem State.softReset_outLen : s.softReset.outLen = 0 := rfl
@[simp] theorem State.softReset_flagres : s.softReset.flagres = false := rfl
@[simp] theorem State.softReset_lines : s.softReset.lines = 0 := rfl
@[simp] theorem State.softReset_unterm : s.softReset.unterm = false := rfl
@[simp] theorem State.softReset_lenmis : s.softReset.lenmis = false := rfl
@[simp] theorem State.softReset_opr : s.softReset.opr = Operands.reset s.opr.ibuf := rfl
@[simp] theorem State.softReset_obuf : s.softReset.obuf = s.obuf := rfl
@[simp] theorem State.softReset_engine : s.softReset.engine = none := rfl
@[simp] theorem State.softReset_env : s.softReset.env = s.env := rfl
@[simp] theorem State.softReset_readData : s.softReset.readData = s.readData := rfl
@[simp] theorem State.softReset_latencies : s.softReset.latencies = s.latencies := rfl
@[simp] theorem State.softReset_started : s.softReset.started = s.started := rfl

@[simp] theorem State.powerOn_ie : s.powerOn.ie = false := rfl
@[simp] theorem State.powerOn_done : s.powerOn.done = false := rfl
@[simp] theorem State.powerOn_wlost : s.powerOn.wlost = false := rfl
@[simp] theorem State.powerOn_errcode : s.powerOn.errcode = .none := rfl
@[simp] theorem State.powerOn_cmd : s.powerOn.cmd = 0 := rfl
@[simp] theorem State.powerOn_errinfo : s.powerOn.errinfo = 0 := rfl
@[simp] theorem State.powerOn_ibufSize : s.powerOn.ibufSize = s.ibufSize := rfl
@[simp] theorem State.powerOn_obufSize : s.powerOn.obufSize = s.obufSize := rfl
@[simp] theorem State.powerOn_outLen : s.powerOn.outLen = 0 := rfl
@[simp] theorem State.powerOn_flagres : s.powerOn.flagres = false := rfl
@[simp] theorem State.powerOn_lines : s.powerOn.lines = 0 := rfl
@[simp] theorem State.powerOn_unterm : s.powerOn.unterm = false := rfl
@[simp] theorem State.powerOn_lenmis : s.powerOn.lenmis = false := rfl
@[simp] theorem State.powerOn_opr : s.powerOn.opr = Operands.reset (Memory.unwritten (s.obuf.power + 1)) := rfl
@[simp] theorem State.powerOn_obuf : s.powerOn.obuf = Memory.unwritten (s.obuf.power + 1) := rfl
@[simp] theorem State.powerOn_engine : s.powerOn.engine = none := rfl
@[simp] theorem State.powerOn_env : s.powerOn.env = s.env := rfl
@[simp] theorem State.powerOn_readData : s.powerOn.readData = s.readData := rfl
@[simp] theorem State.powerOn_latencies : s.powerOn.latencies = s.latencies := rfl
@[simp] theorem State.powerOn_started : s.powerOn.started = s.started := rfl

@[simp] theorem State.setIe_ie (v : Word) : (s.setIe v).ie = v.getLsbD 0 := rfl
@[simp] theorem State.setIe_done (v : Word) : (s.setIe v).done = s.done := rfl
@[simp] theorem State.setIe_wlost (v : Word) : (s.setIe v).wlost = s.wlost := rfl
@[simp] theorem State.setIe_errcode (v : Word) : (s.setIe v).errcode = s.errcode := rfl
@[simp] theorem State.setIe_cmd (v : Word) : (s.setIe v).cmd = s.cmd := rfl
@[simp] theorem State.setIe_errinfo (v : Word) : (s.setIe v).errinfo = s.errinfo := rfl
@[simp] theorem State.setIe_ibufSize (v : Word) : (s.setIe v).ibufSize = s.ibufSize := rfl
@[simp] theorem State.setIe_obufSize (v : Word) : (s.setIe v).obufSize = s.obufSize := rfl
@[simp] theorem State.setIe_outLen (v : Word) : (s.setIe v).outLen = s.outLen := rfl
@[simp] theorem State.setIe_flagres (v : Word) : (s.setIe v).flagres = s.flagres := rfl
@[simp] theorem State.setIe_lines (v : Word) : (s.setIe v).lines = s.lines := rfl
@[simp] theorem State.setIe_unterm (v : Word) : (s.setIe v).unterm = s.unterm := rfl
@[simp] theorem State.setIe_lenmis (v : Word) : (s.setIe v).lenmis = s.lenmis := rfl
@[simp] theorem State.setIe_opr (v : Word) : (s.setIe v).opr = s.opr := rfl
@[simp] theorem State.setIe_obuf (v : Word) : (s.setIe v).obuf = s.obuf := rfl
@[simp] theorem State.setIe_engine (v : Word) : (s.setIe v).engine = s.engine := rfl
@[simp] theorem State.setIe_env (v : Word) : (s.setIe v).env = s.env := rfl
@[simp] theorem State.setIe_readData (v : Word) : (s.setIe v).readData = s.readData := rfl
@[simp] theorem State.setIe_latencies (v : Word) : (s.setIe v).latencies = s.latencies := rfl
@[simp] theorem State.setIe_started (v : Word) : (s.setIe v).started = s.started := rfl

@[simp] theorem State.ackStatus_ie (v : Word) : (s.ackStatus v).ie = s.ie := rfl
@[simp] theorem State.ackStatus_done (v : Word) : (s.ackStatus v).done = (s.done && !v.getLsbD 1) := rfl
@[simp] theorem State.ackStatus_wlost (v : Word) : (s.ackStatus v).wlost = (s.wlost && !v.getLsbD 3) := rfl
@[simp] theorem State.ackStatus_errcode (v : Word) : (s.ackStatus v).errcode = s.errcode := rfl
@[simp] theorem State.ackStatus_cmd (v : Word) : (s.ackStatus v).cmd = s.cmd := rfl
@[simp] theorem State.ackStatus_errinfo (v : Word) : (s.ackStatus v).errinfo = s.errinfo := rfl
@[simp] theorem State.ackStatus_ibufSize (v : Word) : (s.ackStatus v).ibufSize = s.ibufSize := rfl
@[simp] theorem State.ackStatus_obufSize (v : Word) : (s.ackStatus v).obufSize = s.obufSize := rfl
@[simp] theorem State.ackStatus_outLen (v : Word) : (s.ackStatus v).outLen = s.outLen := rfl
@[simp] theorem State.ackStatus_flagres (v : Word) : (s.ackStatus v).flagres = s.flagres := rfl
@[simp] theorem State.ackStatus_lines (v : Word) : (s.ackStatus v).lines = s.lines := rfl
@[simp] theorem State.ackStatus_unterm (v : Word) : (s.ackStatus v).unterm = s.unterm := rfl
@[simp] theorem State.ackStatus_lenmis (v : Word) : (s.ackStatus v).lenmis = s.lenmis := rfl
@[simp] theorem State.ackStatus_opr (v : Word) : (s.ackStatus v).opr = s.opr := rfl
@[simp] theorem State.ackStatus_obuf (v : Word) : (s.ackStatus v).obuf = s.obuf := rfl
@[simp] theorem State.ackStatus_engine (v : Word) : (s.ackStatus v).engine = s.engine := rfl
@[simp] theorem State.ackStatus_env (v : Word) : (s.ackStatus v).env = s.env := rfl
@[simp] theorem State.ackStatus_readData (v : Word) : (s.ackStatus v).readData = s.readData := rfl
@[simp] theorem State.ackStatus_latencies (v : Word) : (s.ackStatus v).latencies = s.latencies := rfl
@[simp] theorem State.ackStatus_started (v : Word) : (s.ackStatus v).started = s.started := rfl

@[simp] theorem State.loseWrite_ie : s.loseWrite.ie = s.ie := rfl
@[simp] theorem State.loseWrite_done : s.loseWrite.done = s.done := rfl
@[simp] theorem State.loseWrite_wlost : s.loseWrite.wlost = true := rfl
@[simp] theorem State.loseWrite_errcode : s.loseWrite.errcode = s.errcode := rfl
@[simp] theorem State.loseWrite_cmd : s.loseWrite.cmd = s.cmd := rfl
@[simp] theorem State.loseWrite_errinfo : s.loseWrite.errinfo = s.errinfo := rfl
@[simp] theorem State.loseWrite_ibufSize : s.loseWrite.ibufSize = s.ibufSize := rfl
@[simp] theorem State.loseWrite_obufSize : s.loseWrite.obufSize = s.obufSize := rfl
@[simp] theorem State.loseWrite_outLen : s.loseWrite.outLen = s.outLen := rfl
@[simp] theorem State.loseWrite_flagres : s.loseWrite.flagres = s.flagres := rfl
@[simp] theorem State.loseWrite_lines : s.loseWrite.lines = s.lines := rfl
@[simp] theorem State.loseWrite_unterm : s.loseWrite.unterm = s.unterm := rfl
@[simp] theorem State.loseWrite_lenmis : s.loseWrite.lenmis = s.lenmis := rfl
@[simp] theorem State.loseWrite_opr : s.loseWrite.opr = s.opr := rfl
@[simp] theorem State.loseWrite_obuf : s.loseWrite.obuf = s.obuf := rfl
@[simp] theorem State.loseWrite_engine : s.loseWrite.engine = s.engine := rfl
@[simp] theorem State.loseWrite_env : s.loseWrite.env = s.env := rfl
@[simp] theorem State.loseWrite_readData : s.loseWrite.readData = s.readData := rfl
@[simp] theorem State.loseWrite_latencies : s.loseWrite.latencies = s.latencies := rfl
@[simp] theorem State.loseWrite_started : s.loseWrite.started = s.started := rfl

@[simp] theorem State.store_opr_srcOff (w : Writes) : (s.store w).opr.srcOff = s.opr.srcOff := rfl
@[simp] theorem State.store_opr_srcLen (w : Writes) : (s.store w).opr.srcLen = s.opr.srcLen := rfl
@[simp] theorem State.store_opr_dstOff (w : Writes) : (s.store w).opr.dstOff = s.opr.dstOff := rfl
@[simp] theorem State.store_opr_dstCap (w : Writes) : (s.store w).opr.dstCap = s.opr.dstCap := rfl
@[simp] theorem State.store_opr_lineLen (w : Writes) : (s.store w).opr.lineLen = s.opr.lineLen := rfl
@[simp] theorem State.store_opr_lineCnt (w : Writes) : (s.store w).opr.lineCnt = s.opr.lineCnt := rfl
@[simp] theorem State.store_opr_pixCount (w : Writes) : (s.store w).opr.pixCount = s.opr.pixCount := rfl
@[simp] theorem State.store_opr_cmaskR (w : Writes) : (s.store w).opr.cmaskR = s.opr.cmaskR := rfl
@[simp] theorem State.store_opr_cmaskG (w : Writes) : (s.store w).opr.cmaskG = s.opr.cmaskG := rfl
@[simp] theorem State.store_opr_cmaskB (w : Writes) : (s.store w).opr.cmaskB = s.opr.cmaskB := rfl
@[simp] theorem State.store_opr_cmaskA (w : Writes) : (s.store w).opr.cmaskA = s.opr.cmaskA := rfl
@[simp] theorem State.store_opr_cdepth (w : Writes) : (s.store w).opr.cdepth = s.opr.cdepth := rfl
@[simp] theorem State.store_opr_ctotal (w : Writes) : (s.store w).opr.ctotal = s.opr.ctotal := rfl
@[simp] theorem State.store_opr_ibuf (w : Writes) : (s.store w).opr.ibuf = s.opr.ibuf := rfl
@[simp] theorem State.store_opr_frf (w : Writes) : (s.store w).opr.frf = frfSetAll s.opr.frf w.frf := rfl
@[simp] theorem State.store_opr_raw (w : Writes) : (s.store w).opr.raw = w.raw.getD s.opr.raw := rfl
@[simp] theorem State.store_opr_compR (w : Writes) : (s.store w).opr.compR = (w.comp.getD (s.opr.compR, s.opr.compG, s.opr.compB, s.opr.compA)).1 := rfl
@[simp] theorem State.store_opr_compG (w : Writes) : (s.store w).opr.compG = (w.comp.getD (s.opr.compR, s.opr.compG, s.opr.compB, s.opr.compA)).2.1 := rfl
@[simp] theorem State.store_opr_compB (w : Writes) : (s.store w).opr.compB = (w.comp.getD (s.opr.compR, s.opr.compG, s.opr.compB, s.opr.compA)).2.2.1 := rfl
@[simp] theorem State.store_opr_compA (w : Writes) : (s.store w).opr.compA = (w.comp.getD (s.opr.compR, s.opr.compG, s.opr.compB, s.opr.compA)).2.2.2 := rfl

/-! ### The states a command or the environment meets -/

@[simp] theorem State.captured_start (w : Word) (n : Nat) : (s.start w n).captured = s.opr := rfl
@[simp] theorem State.busy_start (w : Word) (n : Nat) : (s.start w n).busy = true := rfl
@[simp] theorem State.busy_complete (c : ErrCode) (x : Word) : (s.complete c x).busy = false := rfl
@[simp] theorem State.busy_fail (e : Err) : (s.fail e).busy = false := rfl
@[simp] theorem State.busy_succeed (w : Writes) : (s.succeed w).busy = false := rfl
@[simp] theorem State.busy_softReset : s.softReset.busy = false := rfl
@[simp] theorem State.busy_powerOn : s.powerOn.busy = false := rfl

variable {s}

theorem State.captured_of_running {f : InFlight} (h : s.engine = some f) : s.captured = f.operands := by
  simp only [State.captured, h]

theorem State.captured_of_idle (h : s.engine = none) : s.captured = s.opr := by
  simp only [State.captured, h]

theorem State.busy_iff : s.busy = true ↔ ∃ f, s.engine = some f := by
  simp only [State.busy, Option.isSome_iff_exists]

theorem State.idle_iff : s.busy = false ↔ s.engine = none := by
  simp only [State.busy, Option.isSome_eq_false_iff, Option.isNone_iff_eq_none]

/-- A good state's command computes with the registers as they stand. -/
theorem State.Inv.captured (h : s.Inv) : s.captured = s.opr := by
  cases he : s.engine with
  | none => exact State.captured_of_idle he
  | some f => rw [State.captured_of_running he, h.running_operands f he]

theorem State.putOperands_of_busy (h : s.busy = true) (o : Operands) : s.putOperands o = s.loseWrite := by
  simp only [State.putOperands, h, if_true]

theorem State.putOperands_of_idle (h : s.busy = false) (o : Operands) : s.putOperands o = { s with opr := o } := by
  simp only [State.putOperands, h, Bool.false_eq_true, if_false]

theorem State.putObuf_of_busy (h : s.busy = true) (m : Memory) : s.putObuf m = s.loseWrite := by
  simp only [State.putObuf, h, if_true]

theorem State.putObuf_of_idle (h : s.busy = false) (m : Memory) : s.putObuf m = { s with obuf := m } := by
  simp only [State.putObuf, h, Bool.false_eq_true, if_false]

theorem State.putCmd_of_busy (h : s.busy = true) (w : Word) : s.putCmd w = s.loseWrite := by
  simp only [State.putCmd, h, if_true]

theorem State.putCmd_of_idle (h : s.busy = false) (w : Word) :
    s.putCmd w = (s.start w s.nextLatency).drawLatency := by
  simp only [State.putCmd, h, Bool.false_eq_true, if_false]

end Sys2Proof.Machine
end

