-- ==== Sys2Proof/Laws/Ops.lean ====
section
/-! SUPPORT. The shared operations of a command: the order of checks, the completion, the windows and the field
register file. One lemma says everything each can do. -/

namespace Sys2Proof.Machine

/-! ### The order of checks (spec/40_command.md R111) -/

@[simp] theorem firstError_nil : firstError [] = none := rfl

@[simp] theorem firstError_some (e : Err) (cs : List (Option Err)) : firstError (some e :: cs) = some e := rfl

@[simp] theorem firstError_none_cons (cs : List (Option Err)) : firstError (none :: cs) = firstError cs := rfl

/-- No error is reported exactly when every check passes. -/
theorem firstError_eq_none (cs : List (Option Err)) : firstError cs = none ↔ ∀ c ∈ cs, c = none := by
  induction cs with
  | nil => simp
  | cons c cs ih => cases c <;> simp [ih]

/-- The error reported is one of the checks'. -/
theorem firstError_mem {cs : List (Option Err)} {e : Err} (h : firstError cs = some e) : some e ∈ cs := by
  induction cs with
  | nil => cases h
  | cons c cs ih =>
    cases c with
    | none => exact List.mem_cons_of_mem _ (ih h)
    | some d =>
      rw [firstError_some] at h
      rw [h]
      exact List.mem_cons_self

/-- Checks in two parts: the second part is reached only when the first passes. -/
theorem firstError_append (cs ds : List (Option Err)) :
    firstError (cs ++ ds) = (firstError cs).or (firstError ds) := by
  induction cs with
  | nil => simp
  | cons c cs ih => cases c <;> simp [ih]

@[simp] theorem raiseIf_eq_none (c : Bool) (e : Err) : raiseIf c e = none ↔ c = false := by
  cases c <;> simp [raiseIf]

@[simp] theorem raiseIf_eq_some (c : Bool) (e d : Err) : raiseIf c e = some d ↔ c = true ∧ e = d := by
  cases c <;> simp [raiseIf]

/-! ### Completion (spec/40_command.md R105 to R107) -/

/-- A command's completion: the first failing check's error, or all of its writes. -/
theorem State.conclude_cases (s : State) (cs : List (Option Err)) (w : Writes) :
    (∃ e, firstError cs = some e ∧ s.conclude cs w = s.fail e) ∨
      (firstError cs = none ∧ s.conclude cs w = s.succeed w) := by
  unfold State.conclude
  cases h : firstError cs with
  | some e => exact .inl ⟨e, rfl, rfl⟩
  | none => exact .inr ⟨rfl, rfl⟩

theorem State.conclude_of_pass {cs : List (Option Err)} (h : firstError cs = none) (s : State) (w : Writes) :
    s.conclude cs w = s.succeed w := by
  simp only [State.conclude, h]

theorem State.conclude_of_error {cs : List (Option Err)} {e : Err} (h : firstError cs = some e) (s : State)
    (w : Writes) : s.conclude cs w = s.fail e := by
  simp only [State.conclude, h]

/-- A successful command whose entry is absent leaves that register as it is (spec/40_command.md R106). -/
theorem State.succeed_empty (s : State) :
    s.succeed {} = { s with outLen := 0, errinfo := 0, errcode := .none, engine := none, done := true } := rfl

/-! ### Windows (spec/40_command.md R109 to R112) -/

theorem checkSrc_eq_none (o : Operands) (size : Word) :
    checkSrc o size = none ↔ o.srcOff.toNat + o.srcLen.toNat ≤ size.toNat := by
  simp only [checkSrc, raiseIf_eq_none, decide_eq_false_iff_not, Nat.not_lt]

theorem checkDst_eq_none (o : Operands) (size : Word) :
    checkDst o size = none ↔ o.dstOff.toNat + o.dstCap.toNat ≤ size.toNat := by
  simp only [checkDst, raiseIf_eq_none, decide_eq_false_iff_not, Nat.not_lt]

theorem checkInput_eq_none (o : Operands) (need : Nat) :
    checkInput o need = none ↔ need ≤ o.srcLen.toNat := by
  simp only [checkInput, raiseIf_eq_none, decide_eq_false_iff_not, Nat.not_lt]

theorem checkOutput_eq_none (o : Operands) (need : Nat) :
    checkOutput o need = none ↔ need ≤ o.dstCap.toNat := by
  simp only [checkOutput, raiseIf_eq_none, decide_eq_false_iff_not, Nat.not_lt]

@[simp] theorem srcBytes_length (o : Operands) (i n : Nat) : (srcBytes o i n).length = n := by
  simp only [srcBytes, Memory.ibufBytes_length]

@[simp] theorem srcBytes_getElem (o : Operands) (i n j : Nat) (h : j < (srcBytes o i n).length) :
    (srcBytes o i n)[j] = o.ibuf.ibufByte (o.srcOff.toNat + i + j) := by
  simp only [srcBytes, Memory.ibufBytes_getElem]

/-! ### The field register file (spec/10_state.md R43) -/

/-- A slot that exists is an element of the file. -/
theorem frfGet_eq_getElem (frf : Vector Word 14) (k : Nat) (h : k < 14) : frfGet frf k = frf[k] := by
  simp [frfGet, Vector.getD, h]

/-- A slot that does not exist reads 0. -/
theorem frfGet_of_le (frf : Vector Word 14) (k : Nat) (h : 14 ≤ k) : frfGet frf k = 0 := by
  simp [frfGet, Vector.getD, Nat.not_lt.2 h]

@[simp] theorem frfGet_frfSet_same (frf : Vector Word 14) (k : Nat) (v : Word) (h : k < 14) :
    frfGet (frfSet frf k v) k = v := by
  simp [frfGet, frfSet, Vector.getD, h]

theorem frfGet_frfSet_other (frf : Vector Word 14) (j k : Nat) (v : Word) (h : j ≠ k) :
    frfGet (frfSet frf k v) j = frfGet frf j := by
  by_cases hj : j < 14
  · rw [frfGet_eq_getElem _ _ hj, frfGet_eq_getElem _ _ hj]
    exact Vector.getElem_setIfInBounds_ne hj (fun hk => h hk.symm)
  · rw [frfGet_of_le _ _ (Nat.not_lt.1 hj), frfGet_of_le _ _ (Nat.not_lt.1 hj)]

@[simp] theorem frfSetAll_nil (frf : Vector Word 14) : frfSetAll frf [] = frf := rfl

@[simp] theorem frfSetAll_cons (frf : Vector Word 14) (p : Nat × Word) (ps : List (Nat × Word)) :
    frfSetAll frf (p :: ps) = frfSetAll (frfSet frf p.1 p.2) ps := rfl

/-- A slot that no write names keeps its value. -/
theorem frfGet_frfSetAll_other (frf : Vector Word 14) (ps : List (Nat × Word)) (k : Nat)
    (h : ∀ p ∈ ps, p.1 ≠ k) : frfGet (frfSetAll frf ps) k = frfGet frf k := by
  induction ps generalizing frf with
  | nil => rfl
  | cons p ps ih =>
    rw [frfSetAll_cons, ih _ (fun q hq => h q (List.mem_cons_of_mem _ hq)),
      frfGet_frfSet_other _ _ _ _ (fun hk => h p List.mem_cons_self hk.symm)]

/-- A slot that one write names, and no other, holds its value. -/
theorem frfGet_frfSetAll_mem (frf : Vector Word 14) (ps : List (Nat × Word)) (k : Nat) (v : Word)
    (hk : k < 14) (hm : (k, v) ∈ ps) (hd : (ps.map Prod.fst).Nodup) :
    frfGet (frfSetAll frf ps) k = v := by
  induction ps generalizing frf with
  | nil => cases hm
  | cons p ps ih =>
    rw [List.map_cons, List.nodup_cons] at hd
    rw [frfSetAll_cons]
    rcases List.mem_cons.1 hm with hp | hp
    · subst hp
      rw [frfGet_frfSetAll_other, frfGet_frfSet_same _ _ _ hk]
      exact fun q hq hqk => hd.1 (List.mem_map.2 ⟨q, hq, hqk⟩)
    · exact ih _ hp hd.2

/-- Equal slots make equal files. -/
theorem frf_ext {f g : Vector Word 14} (h : ∀ k, k < 14 → frfGet f k = frfGet g k) : f = g := by
  apply Vector.ext
  intro i hi
  rw [← frfGet_eq_getElem f i hi, ← frfGet_eq_getElem g i hi, h i hi]

end Sys2Proof.Machine
end

