-- ==== Sys2Proof/Laws/Exec.lean ====
section
/-! SUPPORT. What each command can do, said once: it completes with an error, or it passes its checks and
completes with exactly the writes its rule names. `exec_cases` gathers the twelve. -/

namespace Sys2Proof.Machine

/-- A command's completion with an error. -/
def EndsInError (s : State) (r : Host.Outcome State Fault Refusal) : Prop :=
  ∃ e : Err, e.code ≠ .none ∧ r = .next (s.fail e)

/-- The output lies in the destination window, and the window in OBUF. -/
def Fits (s : State) (w : Writes) : Prop :=
  w.obuf = [] ∨
    (s.captured.dstOff.toNat + s.captured.dstCap.toNat ≤ s.obufSize.toNat ∧
      w.obuf.length ≤ s.captured.dstCap.toNat)

/-! ### Every check reports an error -/

/-- No check of a list reports code NONE. -/
def Reports (cs : List (Option Err)) : Prop := ∀ e, some e ∈ cs → e.code ≠ .none

theorem Reports.nil : Reports [] := fun _ h => nomatch h

theorem Reports.cons {c : Option Err} {cs : List (Option Err)} (hc : ∀ e, c = some e → e.code ≠ .none)
    (h : Reports cs) : Reports (c :: cs) := fun e he => by
  rcases List.mem_cons.1 he with h1 | h1
  · exact hc e h1.symm
  · exact h e h1

theorem Reports.append {cs ds : List (Option Err)} (hc : Reports cs) (hd : Reports ds) : Reports (cs ++ ds) :=
  fun e he => (List.mem_append.1 he).elim (hc e) (hd e)

theorem raiseIf_reports {c : Bool} {d : Err} (hd : d.code ≠ .none) : ∀ e, raiseIf c d = some e → e.code ≠ .none := by
  intro e he
  rw [← ((raiseIf_eq_some c d e).1 he).2]
  exact hd

theorem checkSrc_reports (o : Operands) (size : Word) : ∀ e, checkSrc o size = some e → e.code ≠ .none :=
  raiseIf_reports (by decide)

theorem checkDst_reports (o : Operands) (size : Word) : ∀ e, checkDst o size = some e → e.code ≠ .none :=
  raiseIf_reports (by decide)

theorem checkInput_reports (o : Operands) (n : Nat) : ∀ e, checkInput o n = some e → e.code ≠ .none :=
  raiseIf_reports (fun h => nomatch h)

theorem checkOutput_reports (o : Operands) (n : Nat) : ∀ e, checkOutput o n = some e → e.code ≠ .none :=
  raiseIf_reports (fun h => nomatch h)

theorem checkFields_reports (l : Layout) (frf : Vector Word 14) :
    ∀ e, checkFields l frf = some e → e.code ≠ .none := by
  intro e he
  obtain ⟨f, -, rfl⟩ := Option.map_eq_some_iff.1 he
  exact fun h => nomatch h

theorem windowChecks_reports (o : Operands) (i b : Word) : Reports (windowChecks o i b) :=
  .cons (checkSrc_reports o i) (.cons (checkDst_reports o b) .nil)

theorem validate_reports (c : ColorSpec) : Reports (validate c) :=
  .cons (raiseIf_reports (by decide)) <| .cons (raiseIf_reports (by decide)) <|
    .cons (raiseIf_reports (by decide)) <| .cons (raiseIf_reports (by decide)) <|
      .cons (raiseIf_reports (by decide)) <| .cons (raiseIf_reports (by decide)) .nil

theorem stiChecks_reports (frf : Vector Word 14) : Reports (stiChecks frf) :=
  .cons (raiseIf_reports (by decide)) <| .cons (raiseIf_reports (by decide)) <|
    .cons (raiseIf_reports (by decide)) <| .cons (raiseIf_reports (by decide)) <|
      .cons (raiseIf_reports (by decide)) .nil

theorem pixPackChecks_reports (o : Operands) : Reports (pixPackChecks o) :=
  (validate_reports _).append <| .cons (raiseIf_reports (fun h => nomatch h)) <|
    .cons (raiseIf_reports (fun h => nomatch h)) <| .cons (raiseIf_reports (fun h => nomatch h)) <|
      .cons (raiseIf_reports (fun h => nomatch h)) .nil

theorem pixStreamChecks_reports (o : Operands) (i b : Word) (n m : Nat) : Reports (pixStreamChecks o i b n m) :=
  ((windowChecks_reports o i b).append (validate_reports _)).append
    (.cons (checkInput_reports o n) (.cons (checkOutput_reports o m) .nil))

theorem compressChecks_reports (o : Operands) (i b : Word) : Reports (compressChecks o i b) :=
  (windowChecks_reports o i b).append (.cons (checkInput_reports o _) .nil)

/-! ### The output of each command -/

/-- HDR_ENCODE writes exactly `SIZE(L)` bytes (spec/41_header.md R135). -/
@[simp] theorem encodeFields_length (l : Layout) (frf : Vector Word 14) :
    (encodeFields l frf).length = layoutSize l := by
  cases l <;> rfl

@[simp] theorem rgbaBytes_length (c : ColorSpec) (raw : Word) : (rgbaBytes c raw).length = 4 := rfl

@[simp] theorem decodedPixel_length (o : Operands) (i : Nat) : (decodedPixel o i).length = 4 := rfl

/-- A valid pixel serialises to `bpp` bytes (spec/42_color.md R166). -/
theorem serialize_length (raw : Word) (bpp : Nat) (h : 1 ≤ bpp) : (serialize raw bpp).length = bpp := by
  unfold serialize
  split
  · next h1 => simp [h1]
  · split
    · next h1 => simp [h1]
    · split
      · next h1 => simp [h1]
      · rw [List.length_append, leBytes_length, List.length_replicate]
        omega

/-- A list made of `n` parts of equal length. -/
theorem length_flatMap_const {α : Type} (f : Nat → List α) (k n : Nat) (h : ∀ i, (f i).length = k) :
    ((List.range n).flatMap f).length = n * k := by
  rw [List.length_flatMap, List.map_congr_left (fun i _ => h i), List.map_const', List.sum_replicate,
    List.length_range, smul_eq_mul]

theorem decodedPixels_length (o : Operands) (n : Nat) :
    ((List.range n).flatMap (decodedPixel o)).length = n * 4 :=
  length_flatMap_const _ 4 n (decodedPixel_length o)

/-- Every spec that passes Validate has a pixel of 1 to 8 bytes (spec/42_color.md R162, R166). -/
theorem validate_bytesPerPixel {c : ColorSpec} (h : firstError (validate c) = none) :
    1 ≤ bytesPerPixel c ∧ bytesPerPixel c ≤ 8 ∧ c.total = 8 * bytesPerPixel c := by
  have h4 := (firstError_eq_none _).1 h
    (raiseIf (c.total == 0 || c.total % 8 != 0 || decide (64 < c.total)) ⟨.invalidSpec, 4⟩) (by simp [validate])
  simp only [raiseIf_eq_none, Bool.or_eq_false_iff, beq_eq_false_iff_ne, bne_eq_false_iff_eq,
    decide_eq_false_iff_not] at h4
  unfold bytesPerPixel
  omega

theorem encodedPixel_length (o : Operands) (i : Nat) (h : 1 ≤ bytesPerPixel (colorSpec o)) :
    (encodedPixel o i).length = bytesPerPixel (colorSpec o) := serialize_length _ _ h

theorem encodedPixels_length (o : Operands) (n : Nat) (h : 1 ≤ bytesPerPixel (colorSpec o)) :
    ((List.range n).flatMap (encodedPixel o)).length = n * bytesPerPixel (colorSpec o) :=
  length_flatMap_const _ _ n (fun i => encodedPixel_length o i h)

/-- R206's loop never lets the output exceed the budget. -/
theorem decompressFrom_length {cap width fuel p : Nat} {rest : List Byte} {d d' : Decoded}
    (h : decompressFrom cap width fuel p rest d = .ok d') (hd : d.out.length ≤ cap) :
    d'.out.length ≤ cap := by
  induction fuel generalizing p rest d with
  | zero =>
    rw [decompressFrom] at h
    cases h
    exact hd
  | succ fuel ih =>
    cases rest with
    | nil =>
      rw [decompressFrom] at h
      cases h
      exact hd
    | cons c rest =>
      rw [decompressFrom] at h
      split at h
      · exact ih h hd
      · split at h
        · split at h
          · cases h
          · next hfit =>
            refine ih h ?_
            simp only [appendRun, List.length_append, List.length_replicate]
            omega
        · split at h
          · cases h
          · split at h
            · cases h
            · next hlen hfit =>
              refine ih h ?_
              simp only [appendRun, List.length_append, List.length_take]
              omega

theorem decompressFrom_reports {cap width fuel p : Nat} {rest : List Byte} {d : Decoded} {e : Err}
    (h : decompressFrom cap width fuel p rest d = .error e) : e.code ≠ .none := by
  induction fuel generalizing p rest d with
  | zero =>
    rw [decompressFrom] at h
    cases h
  | succ fuel ih =>
    cases rest with
    | nil =>
      rw [decompressFrom] at h
      cases h
    | cons c rest =>
      rw [decompressFrom] at h
      split at h
      · exact ih h
      · split at h
        · split at h
          · cases h
            exact fun h => nomatch h
          · exact ih h
        · split at h
          · cases h
            exact fun h => nomatch h
          · split at h
            · cases h
              exact fun h => nomatch h
            · exact ih h

theorem decompressStream_length {stream : List Byte} {cap width : Nat} {d : Decoded}
    (h : decompressStream stream cap width = .ok d) : d.out.length ≤ cap :=
  decompressFrom_length h (Nat.zero_le cap)

/-! ### What each command can do -/

theorem conclude_cases_reporting (s : State) {cs : List (Option Err)} (h : Reports cs) (w : Writes) :
    EndsInError s (.next (s.conclude cs w)) ∨
      (firstError cs = none ∧ Host.Outcome.next (φ := Fault) (ρ := Refusal) (s.conclude cs w) = .next (s.succeed w)) := by
  rcases s.conclude_cases cs w with ⟨e, he, h1⟩ | ⟨h0, h1⟩
  · exact .inl ⟨e, h e (firstError_mem he), by rw [h1]⟩
  · exact .inr ⟨h0, by rw [h1]⟩

theorem execHdrDecode_cases (layout : BitVec 4) (s : State) :
    EndsInError s (execHdrDecode layout s) ∨
      ∃ l, layoutOfBits layout = some l ∧
        firstError (hdrDecodeChecks l s.captured s.ibufSize) = none ∧
        execHdrDecode layout s =
          .next (s.succeed { frf := decodeFields l (srcBytes s.captured 0 (layoutSize l)) }) := by
  unfold execHdrDecode
  cases hl : layoutOfBits layout with
  | none => exact .inl ⟨_, by decide, rfl⟩
  | some l =>
    rcases conclude_cases_reporting s
      (Reports.cons (checkSrc_reports s.captured s.ibufSize) (.cons (checkInput_reports _ (layoutSize l)) .nil))
      { frf := decodeFields l (srcBytes s.captured 0 (layoutSize l)) } with h | ⟨h0, h1⟩
    · exact .inl h
    · exact .inr ⟨l, rfl, h0, h1⟩

theorem execHdrEncode_cases (layout : BitVec 4) (s : State) :
    EndsInError s (execHdrEncode layout s) ∨
      ∃ l, layoutOfBits layout = some l ∧
        firstError (hdrEncodeChecks l s.captured s.obufSize) = none ∧
        execHdrEncode layout s = .next (s.succeed { obuf := encodeFields l s.captured.frf }) := by
  unfold execHdrEncode
  cases hl : layoutOfBits layout with
  | none => exact .inl ⟨_, by decide, rfl⟩
  | some l =>
    rcases conclude_cases_reporting s
      (Reports.cons (checkDst_reports s.captured s.obufSize)
        (.cons (checkFields_reports l _) (.cons (checkOutput_reports _ (layoutSize l)) .nil)))
      { obuf := encodeFields l s.captured.frf } with h | ⟨h0, h1⟩
    · exact .inl h
    · exact .inr ⟨l, rfl, h0, h1⟩

theorem execFlagGet_cases (layout : BitVec 4) (fidx : BitVec 5) (s : State) :
    EndsInError s (execFlagGet layout fidx s) ∨
      ∃ l slot, layoutOfBits layout = some l ∧ namedFlag l fidx.toNat = some slot ∧
        execFlagGet layout fidx s =
          .next (s.succeed { flagres := some ((frfGet s.captured.frf slot).getLsbD fidx.toNat) }) := by
  unfold execFlagGet
  cases hl : layoutOfBits layout with
  | none => exact .inl ⟨_, by decide, rfl⟩
  | some l =>
    dsimp only
    cases hs : namedFlag l fidx.toNat with
    | none => exact .inl ⟨unknownFlag fidx, ErrCode.noConfusion, rfl⟩
    | some slot => exact .inr ⟨l, slot, rfl, hs, rfl⟩

theorem execFlagPut_cases (layout : BitVec 4) (fidx : BitVec 5) (fval : Bool) (s : State) :
    EndsInError s (execFlagPut layout fidx fval s) ∨
      ∃ l slot, layoutOfBits layout = some l ∧ namedFlag l fidx.toNat = some slot ∧
        execFlagPut layout fidx fval s =
          .next (s.succeed
            { frf := [(slot, putBit (frfGet s.captured.frf slot) fidx.toNat fval)] }) := by
  unfold execFlagPut
  cases hl : layoutOfBits layout with
  | none => exact .inl ⟨_, by decide, rfl⟩
  | some l =>
    dsimp only
    cases hs : namedFlag l fidx.toNat with
    | none => exact .inl ⟨unknownFlag fidx, ErrCode.noConfusion, rfl⟩
    | some slot => exact .inr ⟨l, slot, rfl, hs, rfl⟩

theorem execStiCheck_cases (s : State) :
    EndsInError s (execStiCheck s) ∨
      (firstError (stiChecks s.captured.frf) = none ∧ execStiCheck s = .next (s.succeed {})) :=
  conclude_cases_reporting s (stiChecks_reports _) {}

theorem execCspecValidate_cases (s : State) :
    EndsInError s (execCspecValidate s) ∨
      (firstError (validate (colorSpec s.captured)) = none ∧ execCspecValidate s = .next (s.succeed {})) :=
  conclude_cases_reporting s (validate_reports _) {}

theorem execPixUnpack_cases (s : State) :
    EndsInError s (execPixUnpack s) ∨
      (firstError (validate (colorSpec s.captured)) = none ∧
        execPixUnpack s =
          .next (s.succeed { comp := some (unpackedWords (colorSpec s.captured) s.captured.raw) })) :=
  conclude_cases_reporting s (validate_reports _) _

theorem execPixPack_cases (s : State) :
    EndsInError s (execPixPack s) ∨
      (firstError (pixPackChecks s.captured) = none ∧
        execPixPack s =
          .next (s.succeed
            { raw := some (packPixel (colorSpec s.captured) s.captured.compR.toNat s.captured.compG.toNat
                s.captured.compB.toNat s.captured.compA.toNat) })) :=
  conclude_cases_reporting s (pixPackChecks_reports _) _

theorem execPixDecode_cases (s : State) :
    EndsInError s (execPixDecode s) ∨
      (firstError (pixStreamChecks s.captured s.ibufSize s.obufSize
          (s.captured.pixCount.toNat * bytesPerPixel (colorSpec s.captured)) (s.captured.pixCount.toNat * 4)) = none ∧
        execPixDecode s =
          .next (s.succeed
            { obuf := (List.range s.captured.pixCount.toNat).flatMap (decodedPixel s.captured) })) := by
  unfold execPixDecode
  dsimp only
  cases he : firstError (pixStreamChecks s.captured s.ibufSize s.obufSize
    (s.captured.pixCount.toNat * bytesPerPixel (colorSpec s.captured)) (s.captured.pixCount.toNat * 4)) with
  | some e => exact .inl ⟨e, pixStreamChecks_reports _ _ _ _ _ e (firstError_mem he), rfl⟩
  | none => exact .inr ⟨rfl, rfl⟩

theorem execPixEncode_cases (s : State) :
    EndsInError s (execPixEncode s) ∨
      (firstError (pixStreamChecks s.captured s.ibufSize s.obufSize
          (s.captured.pixCount.toNat * 4) (s.captured.pixCount.toNat * bytesPerPixel (colorSpec s.captured))) = none ∧
        execPixEncode s =
          .next (s.succeed
            { obuf := (List.range s.captured.pixCount.toNat).flatMap (encodedPixel s.captured) })) := by
  unfold execPixEncode
  dsimp only
  cases he : firstError (pixStreamChecks s.captured s.ibufSize s.obufSize
    (s.captured.pixCount.toNat * 4) (s.captured.pixCount.toNat * bytesPerPixel (colorSpec s.captured))) with
  | some e => exact .inl ⟨e, pixStreamChecks_reports _ _ _ _ _ e (firstError_mem he), rfl⟩
  | none => exact .inr ⟨rfl, rfl⟩

theorem execEtrleCompress_cases (s : State) :
    EndsInError s (execEtrleCompress s) ∨
      (firstError (compressChecks s.captured s.ibufSize s.obufSize) = none ∧
        (compressedLines s.captured).length ≤ s.captured.dstCap.toNat ∧
        execEtrleCompress s = .next (s.succeed { obuf := compressedLines s.captured })) := by
  unfold execEtrleCompress
  dsimp only
  cases he : firstError (compressChecks s.captured s.ibufSize s.obufSize) with
  | some e => exact .inl ⟨e, compressChecks_reports _ _ _ e (firstError_mem he), rfl⟩
  | none =>
    rcases conclude_cases_reporting s
      (Reports.cons (checkOutput_reports s.captured (compressedLines s.captured).length) .nil)
      { obuf := compressedLines s.captured } with h | ⟨h0, h1⟩
    · exact .inl h
    · exact .inr ⟨rfl, (checkOutput_eq_none _ _).1 ((firstError_eq_none _).1 h0 _ List.mem_cons_self), h1⟩

theorem execEtrleDecompress_cases (s : State) :
    EndsInError s (execEtrleDecompress s) ∨
      ∃ d, firstError (windowChecks s.captured s.ibufSize s.obufSize) = none ∧
        decompressStream (srcBytes s.captured 0 s.captured.srcLen.toNat) s.captured.dstCap.toNat
          s.captured.lineLen.toNat = .ok d ∧
        execEtrleDecompress s = .next (s.succeed (decompressWrites d)) := by
  unfold execEtrleDecompress
  dsimp only
  cases he : firstError (windowChecks s.captured s.ibufSize s.obufSize) with
  | some e => exact .inl ⟨e, windowChecks_reports _ _ _ e (firstError_mem he), rfl⟩
  | none =>
    dsimp only
    cases hd : decompressStream (srcBytes s.captured 0 s.captured.srcLen.toNat) s.captured.dstCap.toNat
      s.captured.lineLen.toNat with
    | error e => exact .inl ⟨e, decompressFrom_reports hd, rfl⟩
    | ok d => exact .inr ⟨d, rfl, rfl, rfl⟩

/-- The window checks passed, so the destination window lies in OBUF. -/
theorem windowChecks_dst {o : Operands} {i b : Word} (h : firstError (windowChecks o i b) = none) :
    o.dstOff.toNat + o.dstCap.toNat ≤ b.toNat :=
  (checkDst_eq_none o b).1 ((firstError_eq_none _).1 h _ (by simp [windowChecks]))

theorem pixStreamChecks_dst {o : Operands} {i b : Word} {n m : Nat}
    (h : firstError (pixStreamChecks o i b n m) = none) :
    o.dstOff.toNat + o.dstCap.toNat ≤ b.toNat ∧ m ≤ o.dstCap.toNat ∧
      firstError (validate (colorSpec o)) = none := by
  have h' := (firstError_eq_none _).1 h
  refine ⟨(checkDst_eq_none o b).1 (h' _ (by simp [pixStreamChecks, windowChecks])),
    (checkOutput_eq_none o m).1 (h' _ (by simp [pixStreamChecks])),
    (firstError_eq_none _).2 fun c hc => h' c ?_⟩
  simp only [pixStreamChecks, List.mem_append]
  exact .inl (.inr hc)

/-- EVERYTHING A COMMAND CAN DO: it completes with an error, or it completes with writes that stay inside its
destination window. -/
theorem exec_cases (i : Instr) (s : State) :
    EndsInError s (exec i s) ∨ ∃ w, Fits s w ∧ exec i s = .next (s.succeed w) := by
  cases i with
  | hdrDecode layout =>
    rcases execHdrDecode_cases layout s with h | ⟨l, -, -, h⟩
    · exact .inl h
    · exact .inr ⟨_, .inl rfl, h⟩
  | hdrEncode layout =>
    rcases execHdrEncode_cases layout s with h | ⟨l, -, hc, h⟩
    · exact .inl h
    · have hc' := (firstError_eq_none _).1 hc
      exact .inr ⟨_, .inr ⟨(checkDst_eq_none _ _).1 (hc' _ (by simp [hdrEncodeChecks])), by
        rw [encodeFields_length]
        exact (checkOutput_eq_none _ _).1 (hc' _ (by simp [hdrEncodeChecks]))⟩, h⟩
  | flagGet layout fidx =>
    rcases execFlagGet_cases layout fidx s with h | ⟨l, slot, -, -, h⟩
    · exact .inl h
    · exact .inr ⟨_, .inl rfl, h⟩
  | flagPut layout fidx fval =>
    rcases execFlagPut_cases layout fidx fval s with h | ⟨l, slot, -, -, h⟩
    · exact .inl h
    · exact .inr ⟨_, .inl rfl, h⟩
  | stiCheck =>
    rcases execStiCheck_cases s with h | ⟨-, h⟩
    · exact .inl h
    · exact .inr ⟨_, .inl rfl, h⟩
  | cspecValidate =>
    rcases execCspecValidate_cases s with h | ⟨-, h⟩
    · exact .inl h
    · exact .inr ⟨_, .inl rfl, h⟩
  | pixUnpack =>
    rcases execPixUnpack_cases s with h | ⟨-, h⟩
    · exact .inl h
    · exact .inr ⟨_, .inl rfl, h⟩
  | pixPack =>
    rcases execPixPack_cases s with h | ⟨-, h⟩
    · exact .inl h
    · exact .inr ⟨_, .inl rfl, h⟩
  | pixDecode =>
    rcases execPixDecode_cases s with h | ⟨hc, h⟩
    · exact .inl h
    · obtain ⟨h1, h2, -⟩ := pixStreamChecks_dst hc
      exact .inr ⟨_, .inr ⟨h1, by rw [decodedPixels_length]; exact h2⟩, h⟩
  | pixEncode =>
    rcases execPixEncode_cases s with h | ⟨hc, h⟩
    · exact .inl h
    · obtain ⟨h1, h2, h3⟩ := pixStreamChecks_dst hc
      exact .inr ⟨_, .inr ⟨h1, by
        rw [encodedPixels_length _ _ (validate_bytesPerPixel h3).1]; exact h2⟩, h⟩
  | etrleCompress =>
    rcases execEtrleCompress_cases s with h | ⟨hc, hl, h⟩
    · exact .inl h
    · refine .inr ⟨_, .inr ⟨windowChecks_dst (i := s.ibufSize) ?_, hl⟩, h⟩
      rw [compressChecks, firstError_append, Option.or_eq_none_iff] at hc
      exact hc.1
  | etrleDecompress =>
    rcases execEtrleDecompress_cases s with h | ⟨d, hc, hd, h⟩
    · exact .inl h
    · exact .inr ⟨_, .inr ⟨windowChecks_dst hc, decompressStream_length hd⟩, h⟩

end Sys2Proof.Machine
end

