-- ==== Sys2Proof/Laws/HostPort.lean ====
section
/-! SUPPORT. Everything a host write, and a step of the environment, can do to the state. -/

namespace Sys2Proof.Machine

@[simp] theorem dataBytes_length (d : HostData) : (dataBytes d).length = widthBytes (dataWidth d) := by
  cases d <;> simp [dataBytes, dataWidth, widthBytes]

/-- A register found at an offset stands in the register map there (spec/10_state.md R21). -/
theorem regAt_mem {off : Nat} {r : RegName} (h : regAt off = some r) : (off, r) ∈ regTable := by
  obtain ⟨p, hp, rfl⟩ := Option.map_eq_some_iff.1 h
  have h1 := List.find?_some hp
  have h2 := List.mem_of_find?_eq_some hp
  rw [beq_iff_eq] at h1
  rw [← h1]
  exact h2

/-- The register map gives every register one offset, a multiple of 4 below 0x138. -/
theorem regTable_offsets : ∀ p ∈ regTable, p.1 % 4 = 0 ∧ p.1 < 0x138 := by decide

/-- CTRL stands at 0x008 only. -/
theorem regTable_ctrl : ∀ p ∈ regTable, p.2 = .ctrl → p.1 = 0x008 := by decide

/-- STATUS stands at 0x00C only. -/
theorem regTable_status : ∀ p ∈ regTable, p.2 = .status → p.1 = 0x00C := by decide

/-- A host address is its window and its offset (spec/20_memory.md R62). -/
theorem addr_toNat (a : Addr) : a.toNat = (a.extractLsb' 24 2).toNat * 2 ^ 24 + offsetOf a := by
  have h : a.toNat < 2 ^ 26 := a.isLt
  simp only [offsetOf, BitVec.extractLsb'_toNat, Nat.shiftRight_eq_div_pow]
  omega

theorem windowOf_registers {a : Addr} (h : windowOf a = .registers) : a.toNat = offsetOf a := by
  have h1 := addr_toNat a
  have h2 : (a.extractLsb' 24 2).toNat < 4 := (a.extractLsb' 24 2).isLt
  unfold windowOf at h
  split at h
  · next h3 =>
    rw [h3] at h1
    omega
  · cases h
  · cases h
  · cases h

/-- IBUF byte `off`'s host address has offset `off` in the IBUF window (spec/20_memory.md R62). -/
theorem offsetOf_ibuf {off : Nat} (h : off < 2 ^ 24) : offsetOf (BitVec.ofNat 26 (0x1000000 + off)) = off := by
  simp only [offsetOf, BitVec.extractLsb'_toNat, BitVec.toNat_ofNat, Nat.shiftRight_eq_div_pow]
  omega

theorem windowOf_ibuf {off : Nat} (h : off < 2 ^ 24) : windowOf (BitVec.ofNat 26 (0x1000000 + off)) = .ibuf := by
  have h1 : ((BitVec.ofNat 26 (0x1000000 + off)).extractLsb' 24 2).toNat = 1 := by
    simp only [BitVec.extractLsb'_toNat, BitVec.toNat_ofNat, Nat.shiftRight_eq_div_pow]
    omega
  simp only [windowOf, h1]

/-- OBUF byte `off`'s host address has offset `off` in the OBUF window (R62). -/
theorem offsetOf_obuf {off : Nat} (h : off < 2 ^ 24) : offsetOf (BitVec.ofNat 26 (0x2000000 + off)) = off := by
  simp only [offsetOf, BitVec.extractLsb'_toNat, BitVec.toNat_ofNat, Nat.shiftRight_eq_div_pow]
  omega

theorem windowOf_obuf {off : Nat} (h : off < 2 ^ 24) : windowOf (BitVec.ofNat 26 (0x2000000 + off)) = .obuf := by
  have h1 : ((BitVec.ofNat 26 (0x2000000 + off)).extractLsb' 24 2).toNat = 2 := by
    simp only [BitVec.extractLsb'_toNat, BitVec.toNat_ofNat, Nat.shiftRight_eq_div_pow]
    omega
  simp only [windowOf, h1]

/-- An access is admitted exactly when it is aligned and backed (R62, R65). -/
theorem admitted_eq_true (off n : Nat) (size : Word) :
    admitted off n size = true ↔ off % n = 0 ∧ off + n ≤ size.toNat := by
  simp only [admitted, Bool.and_eq_true, beq_iff_eq, decide_eq_true_eq]

/-! ### Writes -/

/-- What a host write can do: nothing, a soft reset, a CTRL or STATUS write that acts at once, a lost write while
a command runs, and while none runs the start of a command or a change of operand registers or buffer bytes. -/
inductive HostEffect (s : State) : State → Prop where
  | nothing : HostEffect s s
  | softReset : HostEffect s s.softReset
  | setIe (v : Word) : HostEffect s (s.setIe v)
  | ackStatus (v : Word) : HostEffect s (s.ackStatus v)
  | lost (busy : s.busy = true) : HostEffect s s.loseWrite
  | start (idle : s.busy = false) (w : Word) : HostEffect s (s.start w s.nextLatency).drawLatency
  | operands (idle : s.busy = false) (o : Operands) (keeps : o.ibuf = s.opr.ibuf) :
      HostEffect s { s with opr := o }
  | ibuf (idle : s.busy = false) (off : Nat) (bs : List Byte) (fits : off + bs.length ≤ s.ibufSize.toNat) :
      HostEffect s { s with opr := { s.opr with ibuf := s.opr.ibuf.writeBytes off bs } }
  | obuf (idle : s.busy = false) (off : Nat) (bs : List Byte) (fits : off + bs.length ≤ s.obufSize.toNat) :
      HostEffect s { s with obuf := s.obuf.writeBytes off bs }

theorem putOperands_effect (s : State) (o : Operands) (h : o.ibuf = s.opr.ibuf) :
    HostEffect s (s.putOperands o) := by
  cases hb : s.busy with
  | true => exact State.putOperands_of_busy hb o ▸ .lost hb
  | false => exact State.putOperands_of_idle hb o ▸ .operands hb o h

theorem putCmd_effect (s : State) (w : Word) : HostEffect s (s.putCmd w) := by
  cases hb : s.busy with
  | true => exact State.putCmd_of_busy hb w ▸ .lost hb
  | false => exact State.putCmd_of_idle hb w ▸ .start hb w

theorem putCtrl_effect (s : State) (v : Word) : HostEffect s (s.putCtrl v) := by
  unfold State.putCtrl
  split
  · exact .softReset
  · exact .setIe v

theorem regWrite_effect (s : State) (r : RegName) (v : Word) : HostEffect s (s.regWrite r v) := by
  cases r with
  | ctrl => exact putCtrl_effect s v
  | status => exact .ackStatus v
  | cmd => exact putCmd_effect s v
  | id | version | errinfo | ibufSize | obufSize | outLen | flagres | lines | info => exact .nothing
  | srcOff | srcLen | dstOff | dstCap | lineLen | lineCnt | pixCount | cmaskR | cmaskG | cmaskB | cmaskA
    | cdepth | ctotal | raw | compR | compG | compB | compA | frf k => exact putOperands_effect s _ rfl

/-- EVERYTHING A HOST WRITE CAN DO. -/
theorem hostWrite_effect (s : State) (a : Addr) (d : HostData) : HostEffect s (s.hostWrite a d) := by
  unfold State.hostWrite
  dsimp only
  split
  · split
    · split
      · exact regWrite_effect s _ _
      · exact .nothing
    · exact .nothing
    · exact .nothing
  · split
    · next ha =>
      have hfit := (Bool.and_eq_true_iff.1 ha).2
      rw [decide_eq_true_eq, ← dataBytes_length] at hfit
      cases hb : s.busy with
      | true => exact State.putOperands_of_busy hb _ ▸ .lost hb
      | false => exact State.putOperands_of_idle hb _ ▸ .ibuf hb _ _ hfit
    · exact .nothing
  · split
    · next ha =>
      have hfit := (Bool.and_eq_true_iff.1 ha).2
      rw [decide_eq_true_eq, ← dataBytes_length] at hfit
      cases hb : s.busy with
      | true => exact State.putObuf_of_busy hb _ ▸ .lost hb
      | false => exact State.putObuf_of_idle hb _ ▸ .obuf hb _ _ hfit
    · exact .nothing
  · exact .nothing

/-- A host write that is no reset neither aborts the running command nor changes what it captured or when it
completes (spec/40_command.md R103, spec/70_reset_and_hazards.md R270, R271). -/
theorem hostWrite_keeps_running {s : State} {f : InFlight} (hf : s.engine = some f) {a : Addr} {d : HostData}
    (hr : resets (.write a d) = false) : (s.hostWrite a d).engine = some f := by
  have hb : s.busy = true := State.busy_iff.2 ⟨f, hf⟩
  unfold State.hostWrite
  dsimp only
  split
  · next hw =>
    split
    · next v =>
      split
      · next r hreg =>
        cases r with
        | ctrl =>
          have h8 : offsetOf a = 0x008 := regTable_ctrl _ (regAt_mem hreg) rfl
          have ha : a = 0x0000008#26 := BitVec.eq_of_toNat_eq (by rw [windowOf_registers hw, h8]; rfl)
          have hv : v.getLsbD 1 = false := by simpa [resets, ha] using hr
          simp only [State.regWrite, State.putCtrl, hv, Bool.false_eq_true, if_false, State.setIe_engine, hf]
        | status => exact hf
        | cmd => simp only [State.regWrite, State.putCmd_of_busy hb, State.loseWrite_engine, hf]
        | id | version | errinfo | ibufSize | obufSize | outLen | flagres | lines | info => exact hf
        | srcOff | srcLen | dstOff | dstCap | lineLen | lineCnt | pixCount | cmaskR | cmaskG | cmaskB | cmaskA
          | cdepth | ctotal | raw | compR | compG | compB | compA | frf k =>
          simp only [State.regWrite, State.putOperands_of_busy hb, State.loseWrite_engine, hf]
      · exact hf
    · exact hf
    · exact hf
  · split
    · rw [State.putOperands_of_busy hb, State.loseWrite_engine, hf]
    · exact hf
  · split
    · rw [State.putObuf_of_busy hb, State.loseWrite_engine, hf]
    · exact hf
  · exact hf

/-! ### The environment's step -/

/-- A tick of an idle block changes nothing. -/
theorem State.tick_of_idle {s : State} (h : s.engine = none) : s.tick = s := by
  simp only [State.tick, h]

/-- A tick of a running command changes its remaining latency only. -/
theorem State.tick_of_running {s : State} {f : InFlight} (h : s.engine = some f) :
    s.tick = { s with engine := some { f with remaining := f.remaining - 1 } } := by
  simp only [State.tick, h]

/-- With nothing left in its list the environment lets a step pass. -/
theorem State.envStep_of_nil {s : State} (h : s.env = []) : s.envStep = s.tick := by
  have : s.tick.env = [] := by
    cases he : s.engine <;> simp [State.tick, he, h]
  simp only [State.envStep, this]

/-- The environment's next item acts on the state after the tick. -/
theorem State.envStep_of_cons {s : State} {op : EnvOp} {rest : List EnvOp} (h : s.env = op :: rest) :
    s.envStep = State.envOp { s.tick with env := rest } op := by
  have : s.tick.env = op :: rest := by
    cases he : s.engine <;> simp [State.tick, he, h]
  simp only [State.envStep, this]

end Sys2Proof.Machine
end

