-- ==== Sys2Proof/Laws/PerInstr.lean ====
section
/-! SUPPORT. Per command: the encoder's word matches the row of spec/30_encoding.md R83 that bears the command's
opcode. -/

namespace Sys2Proof.Laws.TableRow

/-- The command's word, under its row's mask, is its row's pattern. -/
def Statement (i : Instr) : Prop :=
  ∃ r ∈ opcodeTable, r.op = i.opcode ∧ encode i &&& r.mask = r.pattern

theorem hdrDecode : ∀ layout, Statement (.hdrDecode layout) := fun layout =>
  ⟨⟨.hdrDecode, "HDR_DECODE", 0x00000001#32, 0xFFFFF0FF#32⟩, by decide, rfl, by revert layout; decide⟩

theorem hdrEncode : ∀ layout, Statement (.hdrEncode layout) := fun layout =>
  ⟨⟨.hdrEncode, "HDR_ENCODE", 0x00000002#32, 0xFFFFF0FF#32⟩, by decide, rfl, by revert layout; decide⟩

theorem flagGet : ∀ layout fidx, Statement (.flagGet layout fidx) := fun layout fidx =>
  ⟨⟨.flagGet, "FLAG_GET", 0x00000003#32, 0xFFE0F0FF#32⟩, by decide, rfl, by revert layout fidx; decide⟩

theorem flagPut : ∀ layout fidx fval, Statement (.flagPut layout fidx fval) := fun layout fidx fval =>
  ⟨⟨.flagPut, "FLAG_PUT", 0x00000004#32, 0xFEE0F0FF#32⟩, by decide, rfl, by revert layout fidx fval; decide⟩

theorem stiCheck : Statement .stiCheck :=
  ⟨⟨.stiCheck, "STI_CHECK", 0x00000005#32, 0xFFFFFFFF#32⟩, by decide, rfl, by decide⟩

theorem cspecValidate : Statement .cspecValidate :=
  ⟨⟨.cspecValidate, "CSPEC_VALIDATE", 0x00000010#32, 0xFFFFFFFF#32⟩, by decide, rfl, by decide⟩

theorem pixUnpack : Statement .pixUnpack :=
  ⟨⟨.pixUnpack, "PIX_UNPACK", 0x00000011#32, 0xFFFFFFFF#32⟩, by decide, rfl, by decide⟩

theorem pixPack : Statement .pixPack :=
  ⟨⟨.pixPack, "PIX_PACK", 0x00000012#32, 0xFFFFFFFF#32⟩, by decide, rfl, by decide⟩

theorem pixDecode : Statement .pixDecode :=
  ⟨⟨.pixDecode, "PIX_DECODE", 0x00000013#32, 0xFFFFFFFF#32⟩, by decide, rfl, by decide⟩

theorem pixEncode : Statement .pixEncode :=
  ⟨⟨.pixEncode, "PIX_ENCODE", 0x00000014#32, 0xFFFFFFFF#32⟩, by decide, rfl, by decide⟩

theorem etrleCompress : Statement .etrleCompress :=
  ⟨⟨.etrleCompress, "ETRLE_COMPRESS", 0x00000020#32, 0xFFFFFFFF#32⟩, by decide, rfl, by decide⟩

theorem etrleDecompress : Statement .etrleDecompress :=
  ⟨⟨.etrleDecompress, "ETRLE_DECOMPRESS", 0x00000021#32, 0xFFFFFFFF#32⟩, by decide, rfl, by decide⟩

end Sys2Proof.Laws.TableRow
end

