-- ==== Sys2Proof/Laws/Step.lean ====
section
/-! SUPPORT. Everything a step can do (spec/60_exceptions.md R241): the environment moves, or the due command
completes. -/

namespace Sys2Proof.Machine

/-- A command is due exactly when one runs and no environment step is left before its completion. -/
theorem State.dueWord_eq_some {s : State} {w : Word} :
    s.dueWord = some w ↔ ∃ f, s.engine = some f ∧ f.remaining = 0 ∧ f.word = w := by
  unfold State.dueWord
  cases s.engine with
  | none => simp
  | some f => by_cases h : f.remaining = 0 <;> simp [h]

theorem step_of_not_due {s : State} (h : s.dueWord = none) : step s = .next s.envStep := by
  simp only [step, h]

/-- EVERYTHING A STEP CAN DO: an environment step, an error completion, or a successful completion whose output
lies in the destination window. -/
theorem step_cases (s : State) :
    (s.dueWord = none ∧ step s = .next s.envStep) ∨
      (s.busy = true ∧ EndsInError s (step s)) ∨
        (s.busy = true ∧ ∃ w, Fits s w ∧ step s = .next (s.succeed w)) := by
  cases hd : s.dueWord with
  | none => exact .inl ⟨rfl, step_of_not_due hd⟩
  | some w =>
    obtain ⟨f, hf, -, -⟩ := State.dueWord_eq_some.1 hd
    have hb : s.busy = true := State.busy_iff.2 ⟨f, hf⟩
    cases hw : decode w with
    | error e =>
      refine .inr (.inl ⟨hb, illegalWord e, ?_, ?_⟩)
      · cases e <;> decide
      · simp only [step, hd, hw, State.reject]
    | ok i =>
      have hstep : step s = exec i s := by simp only [step, hd, hw]
      rw [hstep]
      rcases exec_cases i s with h | h
      · exact .inr (.inl ⟨hb, h⟩)
      · exact .inr (.inr ⟨hb, h⟩)

end Sys2Proof.Machine
end

