-- ==== Sys2Proof/Tests/Slice0.lean ====
section
/-! SUPPORT. The model's own tests: the well-formedness smoke test, the command words bit by bit, one or two
commands of spec/95_test_vectors.md for each instruction, and a witness for the hypotheses of every statement. -/

namespace Sys2Proof.Tests

open Sys2Proof.Machine

/-! ### Small states -/

/-- A command's next state. -/
def nextOf : Host.Outcome State Fault Refusal → Option State
  | .next t => some t
  | .fault _ => none
  | .refused _ => none

/-- Bytes from their numbers. -/
def bytes (l : List Nat) : List Byte := l.map (BitVec.ofNat 8)

/-- The operands with some bytes at the start of IBUF as source window, and room for 64 bytes. -/
def withBytes (l : List Nat) : Operands :=
  { Operands.reset ((Memory.unwritten 0).writeBytes 0 (bytes l)) with
    srcLen := BitVec.ofNat 32 l.length
    dstCap := 64#32 }

/-- The operands with FRF[0], FRF[1], … set, and room for 64 bytes. -/
def withSlots (l : List Nat) : Operands :=
  { withBytes [] with
    frf := frfSetAll (Vector.replicate 14 0) ((List.range l.length).zip (l.map (BitVec.ofNat 32))) }

/-- The operands with COMP_R, COMP_G, COMP_B, COMP_A set, over the reset colour spec 5-6-5. -/
def withComponents (r g b a : Nat) : Operands :=
  { withBytes [] with
    compR := BitVec.ofNat 32 r
    compG := BitVec.ofNat 32 g
    compB := BitVec.ofNat 32 b
    compA := BitVec.ofNat 32 a }

/-- A command of the given word due to complete with the given operands. -/
def due (w : Word) (o : Operands) : State := State.start { State.reset with opr := o } w 0

/-- What a completion reports: ERRCODE, ERRINFO, OUT_LEN. -/
def report (t : State) : ErrCode × Nat × Nat := (t.errcode, t.errinfo.toNat, t.outLen.toNat)

/-- The numbers of the first OBUF bytes. -/
def output (n : Nat) (t : State) : List Nat := (t.obuf.obufBytes 0 n).map (fun b => b.toNat)

/-! ### Well-formedness: an ill-formed term for each check, which the check refuses -/

theorem test_wellFormed_refuses_hdrDecode_layout : (Instr.hdrDecode 5).wellFormed = false := by decide
theorem test_wellFormed_refuses_hdrEncode_layout : (Instr.hdrEncode 15).wellFormed = false := by decide
theorem test_wellFormed_refuses_flagGet_layout : (Instr.flagGet 5 0).wellFormed = false := by decide
theorem test_wellFormed_refuses_flagPut_layout : (Instr.flagPut 8 0 true).wellFormed = false := by decide
theorem test_wellFormed_accepts_every_layout :
    ∀ l : BitVec 4, l.toNat ≤ 4 → (Instr.hdrDecode l).wellFormed = true := by decide
theorem test_wellFormed_accepts_every_flag :
    ∀ i : BitVec 5, (Instr.flagPut 4 i false).wellFormed = true := by decide

/-! ### Decoding: each word written field by field as R80 lays it out (bits 31:25, FVAL, 23:21, FIDX, 15:12, LAYOUT,
OPC), its OPC from R82 -/

theorem test_decode_hdrDecode :
    decode (0b0000000#7 ++ 0b0#1 ++ 0b000#3 ++ 0b00000#5 ++ 0b0000#4 ++ 0b0010#4 ++ 0b00000001#8) =
      .ok (.hdrDecode 2) := by decide
theorem test_decode_hdrEncode :
    decode (0b0000000#7 ++ 0b0#1 ++ 0b000#3 ++ 0b00000#5 ++ 0b0000#4 ++ 0b0011#4 ++ 0b00000010#8) =
      .ok (.hdrEncode 3) := by decide
theorem test_decode_flagGet :
    decode (0b0000000#7 ++ 0b0#1 ++ 0b000#3 ++ 0b00101#5 ++ 0b0000#4 ++ 0b0100#4 ++ 0b00000011#8) =
      .ok (.flagGet 4 5) := by decide
theorem test_decode_flagPut :
    decode (0b0000000#7 ++ 0b1#1 ++ 0b000#3 ++ 0b10001#5 ++ 0b0000#4 ++ 0b0100#4 ++ 0b00000100#8) =
      .ok (.flagPut 4 17 true) := by decide
theorem test_decode_stiCheck :
    decode (0b0000000#7 ++ 0b0#1 ++ 0b000#3 ++ 0b00000#5 ++ 0b0000#4 ++ 0b0000#4 ++ 0b00000101#8) =
      .ok .stiCheck := by decide
theorem test_decode_cspecValidate :
    decode (0b0000000#7 ++ 0b0#1 ++ 0b000#3 ++ 0b00000#5 ++ 0b0000#4 ++ 0b0000#4 ++ 0b00010000#8) =
      .ok .cspecValidate := by decide
theorem test_decode_pixUnpack :
    decode (0b0000000#7 ++ 0b0#1 ++ 0b000#3 ++ 0b00000#5 ++ 0b0000#4 ++ 0b0000#4 ++ 0b00010001#8) =
      .ok .pixUnpack := by decide
theorem test_decode_pixPack :
    decode (0b0000000#7 ++ 0b0#1 ++ 0b000#3 ++ 0b00000#5 ++ 0b0000#4 ++ 0b0000#4 ++ 0b00010010#8) =
      .ok .pixPack := by decide
theorem test_decode_pixDecode :
    decode (0b0000000#7 ++ 0b0#1 ++ 0b000#3 ++ 0b00000#5 ++ 0b0000#4 ++ 0b0000#4 ++ 0b00010011#8) =
      .ok .pixDecode := by decide
theorem test_decode_pixEncode :
    decode (0b0000000#7 ++ 0b0#1 ++ 0b000#3 ++ 0b00000#5 ++ 0b0000#4 ++ 0b0000#4 ++ 0b00010100#8) =
      .ok .pixEncode := by decide
theorem test_decode_etrleCompress :
    decode (0b0000000#7 ++ 0b0#1 ++ 0b000#3 ++ 0b00000#5 ++ 0b0000#4 ++ 0b0000#4 ++ 0b00100000#8) =
      .ok .etrleCompress := by decide
theorem test_decode_etrleDecompress :
    decode (0b0000000#7 ++ 0b0#1 ++ 0b000#3 ++ 0b00000#5 ++ 0b0000#4 ++ 0b0000#4 ++ 0b00100001#8) =
      .ok .etrleDecompress := by decide

/-- V-L1, V-L2: no opcode. -/
theorem test_decode_unknown :
    decode 0x00000000#32 = .error .unknownOpcode ∧ decode 0x00000006#32 = .error .unknownOpcode := by decide

/-- V-H6, V-H7, V-F13, V-L3, V-L5: a reserved or unused field is not 0. -/
theorem test_decode_fieldNotZero :
    decode 0x00001001#32 = .error .fieldNotZero ∧ decode 0x00050001#32 = .error .fieldNotZero ∧
    decode 0x01050003#32 = .error .fieldNotZero ∧ decode 0x00000120#32 = .error .fieldNotZero ∧
    decode 0x80000001#32 = .error .fieldNotZero := by decide

/-- The table's numbering: a FLAG_PUT word with every bit above `nbits` dropped. -/
theorem test_decodeTableWord :
    decodeTableWord 32 0x01030404 = some (.flagPut 4 3 true) ∧ decodeTableWord 8 0x00000005 = some .stiCheck := by
  decide

/-! ### One or two commands for each instruction (spec/95_test_vectors.md) -/

/-- V-H12: the tile record's six slots, the bytes being `03 01 02 01 00 00 00 04 07 05` and padding. -/
theorem test_hdrDecode_tile :
    (nextOf (exec (.hdrDecode 4) (due 0 (withBytes [3, 1, 2, 1, 0, 0, 0, 4, 7, 5, 0, 0, 0, 0, 0, 0])))).map
        (fun t => (report t, [0, 1, 2, 3, 4, 5].map (fun k => (frfGet t.opr.frf k).toNat))) =
      some ((.none, 0, 0), [3, 1, 0x0102, 4, 7, 5]) := by decide

/-- V-H5: LAYOUT 5 is an illegal command. -/
theorem test_hdrDecode_layout5 :
    (nextOf (exec (.hdrDecode 5) (due 0 (withBytes [])))).map report = some (.illegalCommand, 2, 0) := by decide

/-- V-H11: the descriptor of a sub-image at (1,2). -/
theorem test_hdrEncode_subImage :
    (nextOf (exec (.hdrEncode 3) (due 0 (withSlots [8, 6, 1, 2, 2, 2])))).map
        (fun t => (report t, output 16 t)) =
      some ((.none, 0, 16), [8, 0, 0, 0, 6, 0, 0, 0, 1, 0, 2, 0, 2, 0, 2, 0]) := by decide

/-- V-H18: FIELD_OVERFLOW comes before the output budget. -/
theorem test_hdrEncode_overflow :
    (nextOf (exec (.hdrEncode 4) (due 0 { withSlots [3, 1, 0x10000, 4, 7, 5] with dstCap := 15#32 }))).map report =
      some (.fieldOverflow, 2, 0) := by decide

/-- V-F1: ETRLE is set in 0x29. -/
theorem test_flagGet_etrle :
    (nextOf (exec (.flagGet 0 5) (due 0 (withSlots [0, 0, 0, 0, 0x29])))).map (fun t => (report t, t.flagres)) =
      some ((.none, 0, 0), true) := by decide

/-- V-F3: bit 1 of the outer flags names no flag. -/
theorem test_flagGet_unknown :
    (nextOf (exec (.flagGet 0 1) (due 0 (withSlots [0, 0, 0, 0, 0x29])))).map report =
      some (.unknownFlag, 1, 0) := by decide

/-- V-F10: ZLIB set in 0x29 gives 0x39. -/
theorem test_flagPut_set :
    (nextOf (exec (.flagPut 0 4 true) (due 0 (withSlots [0, 0, 0, 0, 0x29])))).map
        (fun t => (report t, frfGet t.opr.frf 4)) = some ((.none, 0, 0), 0x39#32) := by decide

/-- V-F9: AUX_OBJECT_DATA cleared in 0x29 gives 0x28. -/
theorem test_flagPut_clear :
    (nextOf (exec (.flagPut 0 0 false) (due 0 (withSlots [0, 0, 0, 0, 0x29])))).map
        (fun t => frfGet t.opr.frf 4) = some 0x28#32 := by decide

/-- V-S1: AUX, INDEXED and ETRLE pass. -/
theorem test_stiCheck_accepts :
    (nextOf (exec .stiCheck (due 0 (withSlots [0x49435453, 0, 0, 0, 0x29])))).map report =
      some (.none, 0, 0) := by decide

/-- V-S11: ZLIB is tested before AUX with INDEXED. -/
theorem test_stiCheck_zlib :
    (nextOf (exec .stiCheck (due 0 (withSlots [0x49435453, 0, 0, 0, 0x19])))).map report =
      some (.unsupportedFeature, 0, 0) := by decide

/-- V-P50: the reset spec is valid. -/
theorem test_cspecValidate_reset :
    (nextOf (exec .cspecValidate (due 0 (withBytes [])))).map report = some (.none, 0, 0) := by decide

/-- V-P65: the masks are tested before the total depth. -/
theorem test_cspecValidate_order :
    (nextOf (exec .cspecValidate (due 0 { withBytes [] with cmaskR := 0xF000#32, ctotal := 12#8 }))).map report =
      some (.invalidSpec, 0, 0) := by decide

/-- V-P15: floor division. -/
theorem test_pixUnpack_floor :
    (nextOf (exec .pixUnpack (due 0 { withBytes [] with raw := 0x8410#32 }))).map
        (fun t => (t.opr.compR.toNat, t.opr.compG.toNat, t.opr.compB.toNat, t.opr.compA.toNat)) =
      some (131, 129, 131, 0) := by decide

/-- V-P12: saturation, and an absent alpha. -/
theorem test_pixUnpack_saturates :
    (nextOf (exec .pixUnpack (due 0 { withBytes [] with raw := 0xFFFF#32 }))).map
        (fun t => (t.opr.compR.toNat, t.opr.compG.toNat, t.opr.compB.toNat, t.opr.compA.toNat)) =
      some (255, 255, 255, 0) := by decide

/-- V-P5: (200, 100, 50, 128) packs to 0xCB26. -/
theorem test_pixPack_mixed :
    (nextOf (exec .pixPack (due 0 (withComponents 200 100 50 128)))).map (fun t => t.opr.raw) =
      some 0xCB26#32 := by decide

/-- V-P9: the first component above 255. -/
theorem test_pixPack_large :
    (nextOf (exec .pixPack (due 0 (withComponents 0 0 300 256)))).map report =
      some (.invalidComponent, 2, 0) := by decide

/-- V-P42: two pixels decoded. -/
theorem test_pixDecode_two :
    (nextOf (exec .pixDecode (due 0 { withBytes [0x00, 0xF8, 0x1F, 0x00] with pixCount := 2#32 }))).map
        (fun t => (report t, output 8 t)) =
      some ((.none, 0, 8), [0xFF, 0, 0, 0, 0, 0, 0xFF, 0]) := by decide

/-- V-P45: three bytes are too few for two pixels. -/
theorem test_pixDecode_short :
    (nextOf (exec .pixDecode (due 0 { withBytes [0x00, 0xF8, 0x1F] with pixCount := 2#32 }))).map report =
      some (.truncatedInput, 4, 0) := by decide

/-- V-P43: two pixels encoded. -/
theorem test_pixEncode_two :
    (nextOf (exec .pixEncode (due 0 { withBytes [0xFF, 0, 0, 0, 0, 0, 0xFF, 0] with pixCount := 2#32 }))).map
        (fun t => (report t, output 4 t)) = some ((.none, 0, 4), [0x00, 0xF8, 0x1F, 0x00]) := by decide

/-- V-P67: a 48-bit pixel ends in two zero bytes. -/
theorem test_pixEncode_wide :
    (nextOf (exec .pixEncode (due 0
        { withBytes [0xC8, 0x64, 0x32, 0x80] with
          pixCount := 1#32, cmaskR := 0xFF0000#32, cmaskG := 0xFF00#32, cmaskB := 0xFF#32, cdepth := 0x00080808#32
          ctotal := 48#8 }))).map (fun t => (report t, output 6 t)) =
      some ((.none, 0, 6), [0x32, 0x64, 0xC8, 0, 0, 0]) := by decide

/-- V-E30: two lines compressed. -/
theorem test_etrleCompress_two :
    (nextOf (exec .etrleCompress (due 0
        { withBytes [0, 0, 0, 5, 6, 0, 7, 0, 1, 2, 3, 0, 0, 0, 0, 9] with lineLen := 8#32, lineCnt := 2#32 }))).map
        (fun t => (report t, output 16 t)) =
      some ((.none, 0, 16),
        [0x83, 4, 5, 6, 0, 7, 0x81, 0, 3, 1, 2, 3, 0x84, 1, 9, 0]) := by decide

/-- V-E12 and V-E20: the 127-byte cap, for zeros and for an isolated zero after a full run. -/
theorem test_compressLine_cap :
    compressLine (List.replicate 128 0#8) = bytes [0xFF, 0x81, 0] ∧
    compressLine (List.replicate 127 9#8 ++ bytes [0, 0x33]) =
      0x7F#8 :: (List.replicate 127 9#8 ++ bytes [2, 0, 0x33, 0]) := by decide +kernel

/-- V-D16: two lines decompressed, the first of another length than LINE_LEN. -/
theorem test_etrleDecompress_two :
    (nextOf (exec .etrleDecompress (due 0 { withBytes [3, 1, 2, 3, 0, 2, 4, 5, 0] with lineLen := 2#32 }))).map
        (fun t => (report t, output 5 t, t.lines.toNat, t.unterm, t.lenmis)) =
      some ((.none, 0, 5), [1, 2, 3, 4, 5], 2, false, true) := by decide

/-- V-D6: a literal run that passes the window's end. -/
theorem test_etrleDecompress_malformed :
    (nextOf (exec .etrleDecompress (due 0 (withBytes [0x82, 0, 2, 9])))).map report =
      some (.malformedRun, 2, 0) := by decide

/-! ### The host port and the life of a command (spec/95_test_vectors.md section 6) -/

/-- V-L14: SRST with IE: a soft reset, and IE is discarded. -/
theorem test_softReset_discards_ie :
    ((due 1 (withBytes [1])).hostWrite 0x0000008#26 (.d32 3#32)).hostRead 0x0000008#26 .w32 = 0 := by decide

/-- INFO holds UNTERM in bit 0 and LENMIS in bit 1 (10_state.md R37; V-D8, V-D15). -/
theorem test_info_bits :
    ({ State.reset with unterm := true } : State).hostRead 0x0000048#26 .w32 = 1#32 ∧
    ({ State.reset with lenmis := true } : State).hostRead 0x0000048#26 .w32 = 2#32 := by decide

/-- V-L12: little-endian. -/
theorem test_ibuf_little_endian :
    [0, 1, 2, 3].map (fun o =>
      (State.reset.hostWrite 0x1000000#26 (.d32 0x04030201#32)).hostRead (BitVec.ofNat 26 (0x1000000 + o)) .w8) =
      [1#32, 2#32, 3#32, 4#32] := by decide

/-- P5: a lost write sets WLOST, and STATUS reads BUSY and WLOST. -/
theorem test_lost_write :
    ((due 0x20 (withBytes [1])).hostWrite 0x0000024#26 (.d32 0)).hostRead 0x000000C#26 .w32 = 0x9#32 := by decide

/-- V-L2 through a step: the word 6 completes with ILLEGAL_COMMAND, and STATUS reads 0x906. -/
theorem test_step_illegal :
    (nextOf (step (due 0x00000006#32 (withBytes [])))).map (fun t => t.statusWord) = some 0x906#32 := by decide

/-! ### Witnesses: concrete states that meet the hypotheses of each statement that has any -/

/-- The numbers 0 to n - 1 as source bytes. -/
def counting (n : Nat) : Operands := withBytes (List.range n)

/-- HDR_DECODE of a tile record that lies at the very end of IBUF, its window exactly its size. -/
def atEnd : State := due 0x00000401#32 { withBytes [] with srcOff := 65520#32, srcLen := 16#32 }

/-- The reset colour spec is valid (spec/42_color.md R176). -/
theorem witness_resetSpec_valid : SpecValid (colorSpec (Operands.reset (Memory.unwritten 0))) where
  r := .inr ⟨by decide, 11, by decide⟩
  g := .inr ⟨by decide, 5, by decide⟩
  b := .inr ⟨by decide, 0, by decide⟩
  a := .inl ⟨by decide, by decide⟩
  total_pos := by decide
  total_bytes := by decide
  total_le := by decide
  depths := by decide

theorem witness_EncodeOfDecodeIsTheWord : decode 0x01110404#32 = .ok (.flagPut 4 17 true) := by decide

/-- Clause 1: no opcode, at the edges of the gaps of the opcode map. -/
theorem witness_IllegalWords_unknown :
    (∀ w, (due w (withBytes [])).dueWord = some w) ∧
    [0x00000000#32, 0x00000006#32, 0x0000000F#32, 0x00000015#32, 0x0000001F#32, 0x00000022#32, 0xFFFFFFFF#32].all
      (fun w => decide ((w.extractLsb' 0 8).toNat ∉
        [0x01, 0x02, 0x03, 0x04, 0x05, 0x10, 0x11, 0x12, 0x13, 0x14, 0x20, 0x21])) = true :=
  ⟨fun _ => rfl, by decide⟩

/-- Clause 2, one word for each alternative. -/
theorem witness_IllegalWords_field :
    ((0x00001001#32).extractLsb' 0 8).toNat ∈ [0x01, 0x02] ∧ (0x00001001#32) &&& 0xFFFFF000#32 ≠ 0 ∧
    ((0x00200003#32).extractLsb' 0 8).toNat = 0x03 ∧ (0x00200003#32) &&& 0xFFE0F000#32 ≠ 0 ∧
    ((0x02000004#32).extractLsb' 0 8).toNat = 0x04 ∧ (0x02000004#32) &&& 0xFEE0F000#32 ≠ 0 ∧
    ((0x00000105#32).extractLsb' 0 8).toNat ∈ [0x05, 0x10, 0x11, 0x12, 0x13, 0x14, 0x20, 0x21] ∧
      (0x00000105#32) &&& 0xFFFFFF00#32 ≠ 0 ∧
    (due 0x00001001#32 (withBytes [])).dueWord = some 0x00001001#32 := by decide

/-- Clause 3, LAYOUT 5 and 15. -/
theorem witness_IllegalWords_layout :
    (0x00000501#32) &&& 0xFFFFF0FF#32 = 0x01#32 ∧ 5 ≤ ((0x00000501#32).extractLsb' 8 4).toNat ∧
    (0x00000F02#32) &&& 0xFFFFF0FF#32 = 0x02#32 ∧ 5 ≤ ((0x00000F02#32).extractLsb' 8 4).toNat ∧
    (0x001F0F03#32) &&& 0xFFE0F0FF#32 = 0x03#32 ∧ 5 ≤ ((0x001F0F03#32).extractLsb' 8 4).toNat ∧
    (0x011F0504#32) &&& 0xFEE0F0FF#32 = 0x04#32 ∧ 5 ≤ ((0x011F0504#32).extractLsb' 8 4).toNat ∧
    (due 0x00000501#32 (withBytes [])).dueWord = some 0x00000501#32 := by decide

theorem witness_StepRunsTheDueCommand :
    (due 0x00000005#32 (withBytes [])).dueWord = some 0x00000005#32 ∧ decode 0x00000005#32 = .ok .stiCheck ∧
    State.reset.dueWord = none ∧ decodeTableWord 32 0x00000020 = some .etrleCompress := by decide

theorem witness_PowerOnStatesAreGood : legalSize 1024#32 = true ∧ legalSize 0x01000000#32 = true := by
  decide

/-- A good state in which a command is due, and its step. -/
theorem witness_EveryStepKeepsTheInvariant :
    (due 0x00000005#32 (withBytes [1, 2])).Inv ∧ ∃ t, step (due 0x00000005#32 (withBytes [1, 2])) = .next t :=
  ⟨{ ibufSize_legal := by decide
     obufSize_legal := by decide
     ibuf_wf := by decide
     ibuf_within := by decide
     obuf_wf := by decide
     obuf_within := by decide
     running_word := fun f hf => by cases hf; rfl
     running_operands := fun f hf => by cases hf; rfl
     running_done := by decide
     running_errcode := by decide
     failed_outLen := by decide
     outLen_fits := by decide }, _, rfl⟩

theorem witness_CmdWriteStartsTheCommand : State.reset.busy = false := by decide

theorem witness_CmdWriteWhileBusyIsLost : (due 0x00000020#32 (counting 4)).busy = true := by decide

/-- A running command and a step that neither completes nor aborts it: the host writes SRC_LEN (P5). -/
def running : State :=
  { State.start { State.reset with opr := counting 4 } 0x00000020#32 2 with
    env := [.write 0x0000024#26 (.d32 0), .write 0x0000008#26 (.d32 1#32), .read 0x0000030#26 .w32] }

theorem witness_RunningCommandIsUndisturbed :
    running.engine = some { word := 0x00000020#32, operands := counting 4, remaining := 2 } ∧
      ∃ t, step running = .next t ∧ t.engine ≠ none := ⟨rfl, _, rfl, by decide⟩

theorem witness_StartedCommandCompletes :
    running.engine = some { word := 0x00000020#32, operands := counting 4, remaining := 2 } ∧
      ∀ op ∈ running.env.take 2, resets op = false := ⟨rfl, by decide⟩

theorem witness_FailedCommandWritesNothing :
    ∃ t, exec .pixDecode (due 0 { withBytes [1] with pixCount := 1#32 }) = .next t ∧ t.errcode ≠ .none :=
  ⟨_, rfl, by decide⟩

/-- A command of every kind of writing, and one that writes nothing. -/
theorem witness_CommandsKeepWhatTheyDoNotName :
    (∃ t, exec .stiCheck (due 0 (withBytes [])) = .next t) ∧
    (∃ t, exec (.hdrEncode 4) (due 0 (withSlots [1, 2, 3, 4, 5, 6])) = .next t ∧ t.outLen = 16#32) :=
  ⟨⟨_, rfl⟩, _, rfl, by decide⟩

theorem witness_OutputStaysInTheDestinationWindow :
    ∃ t, exec (.hdrEncode 4) (due 0 (withSlots [1, 2, 3, 4, 5, 6])) = .next t := ⟨_, rfl⟩

/-- Two input buffers that agree in the source window and differ just past it: the one captured and its replacement. The
buffer that stands may be any, so it takes no hypothesis. -/
theorem witness_InputComesFromTheSourceWindow :
    (due 0x00000020#32 (counting 4)).engine =
        some { word := 0x00000020#32, operands := counting 4, remaining := 0 } ∧
      (∀ a, (counting 4).srcOff.toNat ≤ a → a < (counting 4).srcOff.toNat + (counting 4).srcLen.toNat →
        ((counting 4).ibuf.writeByte 4 77#8).ibufByte a = (counting 4).ibuf.ibufByte a) ∧
      (counting 4).ibuf.writeByte 4 77#8 ≠ (counting 4).ibuf := by
  refine ⟨rfl, fun a _ h => ?_, by decide⟩
  have h4 : a < 4 := h
  exact (by decide : ∀ b, b < 4 →
    ((counting 4).ibuf.writeByte 4 77#8).ibufByte b = (counting 4).ibuf.ibufByte b) a h4

/-- One byte past the end, for each window. -/
theorem witness_WindowsAreCheckedFirst :
    ¬ SrcFits (due 0 { withBytes [] with srcOff := 65535#32, srcLen := 2#32 }) ∧
    ¬ DstFits (due 0 { withBytes [] with dstOff := 0xFFFFFFFF#32, dstCap := 1#32 }) ∧
    SrcFits (due 0 { withBytes [] with dstOff := 0xFFFFFFFF#32, dstCap := 1#32 }) := by
  unfold SrcFits DstFits; decide

theorem witness_ResetAndCompletionCommute : ∃ t, exec .pixUnpack (due 0 (withBytes [])) = .next t := ⟨_, rfl⟩

/-- Clause 1: a register, the last FRF slot and the last byte of each buffer. Clause 2: a read-only register, a reserved
offset, a byte write to a register and the first byte past IBUF. -/
theorem witness_WritesWhileBusyAreLost :
    running.busy = true ∧
    lostWrite running 0x0000010#26 (.d32 0) = true ∧ lostWrite running 0x0000134#26 (.d32 0) = true ∧
    lostWrite running 0x100FFFF#26 (.d8 0) = true ∧ lostWrite running 0x200FFFC#26 (.d32 0) = true ∧
    lostWrite running 0x0000014#26 (.d32 0) = false ∧ lostWrite running 0x000004C#26 (.d32 0) = false ∧
    lostWrite running 0x0000020#26 (.d8 0) = false ∧ lostWrite running 0x1010000#26 (.d8 0) = false := by decide

theorem witness_CtrlAndStatusWritesActAtOnce : (1#32).getLsbD 1 = false := by decide

theorem witness_SoftResetGivesTheResetValues : (3#32).getLsbD 1 = true := by decide

/-- The first and last offsets of each block of RW registers, and CTOTAL. -/
theorem witness_RegisterWritesAreReadBack :
    State.reset.busy = false ∧
    ∀ off ∈ [0x020, 0x02C, 0x034, 0x03C, 0x050, 0x064, 0x068, 0x070, 0x07C, 0x100, 0x134],
      lostOffset off = true ∧ off ≠ 0x010 := by decide

theorem witness_ReservedOffsetsReadZero :
    ∀ off ∈ [0x04C, 0x06C, 0x080, 0x0FC, 0x138, 0xFFC, 0x1000, 0xFFFFFC],
      off < 2 ^ 24 ∧ reservedOffset off = true := by decide

/-- Each reason for not being admitted: a byte access, and a misaligned word. -/
theorem witness_RegisterWindowAdmitsAlignedWordsOnly :
    (0x0000134#26).toNat < 0x1000000 ∧ Width.w8 ≠ .w32 ∧ data32 (.d16 0) = none ∧
    (0x0FFFFFF#26).toNat < 0x1000000 ∧ (0x0FFFFFF#26).toNat % 4 ≠ 0 := by decide

/-- A misaligned word and halfword; the first byte past each buffer; the first and last unmapped address. -/
theorem witness_UnbackedAccessesReadZero :
    0x1000000 ≤ (0x1000002#26).toNat ∧ (0x1000002#26).toNat % widthBytes .w32 ≠ 0 ∧
    (0x2000001#26).toNat % widthBytes (dataWidth (.d16 0)) ≠ 0 ∧
    0x1000000 + State.reset.ibufSize.toNat ≤ (0x1010000#26).toNat ∧ (0x1010000#26).toNat < 0x2000000 ∧
    0x2000000 + State.reset.obufSize.toNat ≤ (0x2FFFFFF#26).toNat ∧ (0x2FFFFFF#26).toNat < 0x3000000 ∧
    0x3000000 ≤ (0x3000000#26).toNat := by decide

/-- The last word and the last byte of a buffer, for the reads and for the writes. -/
theorem witness_BufferWritesAreReadBack :
    (65532 % widthBytes .w32 = 0 ∧ 65532 < 2 ^ 24 ∧ 65532 + widthBytes .w32 ≤ State.reset.ibufSize.toNat) ∧
    (65535 % widthBytes .w8 = 0 ∧ 65535 < 2 ^ 24 ∧ 65535 + widthBytes .w8 ≤ State.reset.obufSize.toNat) ∧
    State.reset.busy = false ∧ 65532 % widthBytes (dataWidth (.d32 0)) = 0 ∧
    65532 + widthBytes (dataWidth (.d32 0)) ≤ State.reset.ibufSize.toNat ∧ 65532 < 2 ^ 24 ∧
    65535 % widthBytes (dataWidth (.d8 0)) = 0 ∧
    65535 + widthBytes (dataWidth (.d8 0)) ≤ State.reset.obufSize.toNat ∧ 65535 < 2 ^ 24 := by decide

theorem witness_ReadsHaveNoSideEffect :
    ({ running with env := [.read 0x0000030#26 .w32] } : State).dueWord = none ∧
    ({ running with env := [.read 0x0000030#26 .w32] } : State).env = .read 0x0000030#26 .w32 :: [] := ⟨by decide, rfl⟩

/-- The window is exactly the layout, at the end of IBUF. -/
theorem witness_HdrDecodeFillsTheSlots : SrcFits atEnd ∧ layoutBytes .tile ≤ atEnd.captured.srcLen.toNat := by
  unfold SrcFits; decide

theorem witness_HdrDecodeOfAShortWindowFails :
    SrcFits (due 0 (counting 15)) ∧ (due 0 (counting 15)).captured.srcLen.toNat < layoutBytes .tile := by
  unfold SrcFits; decide

/-- The largest values that fit, and a budget of exactly the layout. -/
def fullTile : State := due 0 { withSlots [255, 255, 0xFFFF, 255, 255, 255] with dstCap := 16#32 }

theorem witness_HdrEncodeWritesTheHeader :
    DstFits fullTile ∧ (∀ p ∈ slotTable .tile, slotFits fullTile.captured.frf p) ∧
      layoutBytes .tile ≤ fullTile.captured.dstCap.toNat := by
  unfold DstFits slotFits; decide

/-- Clause 1: slot 2 is the first that does not fit. -/
theorem witness_HdrEncodeReportsTheFirstOverflow_field :
    DstFits (due 0 (withSlots [255, 255, 0x10000, 256, 0, 0])) ∧
    slotTable .tile = [(0, 0, 1), (1, 1, 1)] ++ (2, 2, 2) :: [(3, 7, 1), (4, 8, 1), (5, 9, 1)] ∧
    (∀ q ∈ [(0, 0, 1), (1, 1, 1)], slotFits (withSlots [255, 255, 0x10000, 256, 0, 0]).frf q) ∧
    ¬ slotFits (withSlots [255, 255, 0x10000, 256, 0, 0]).frf (2, 2, 2) := by
  unfold DstFits slotFits; decide

/-- Clause 2: a budget one byte too small. -/
def tightTile : State := due 0 { withSlots [255, 255, 0xFFFF, 255, 255, 255] with dstCap := 15#32 }

theorem witness_HdrEncodeReportsTheFirstOverflow_budget :
    DstFits tightTile ∧ (∀ p ∈ slotTable .tile, slotFits tightTile.captured.frf p) ∧
    tightTile.captured.dstCap.toNat < layoutBytes .tile := by
  unfold DstFits slotFits; decide

theorem witness_HeaderRoundTrip :
    (due 0 (counting 64)).captured = (due 0 (counting 64)).opr ∧ SrcFits (due 0 (counting 64)) ∧
    DstFits (due 0 (counting 64)) ∧ layoutBytes .stiHeader ≤ (due 0 (counting 64)).opr.srcLen.toNat ∧
    layoutBytes .stiHeader ≤ (due 0 (counting 64)).opr.dstCap.toNat := by
  unfold SrcFits DstFits; exact ⟨rfl, by decide, by decide, by decide, by decide⟩

theorem witness_FlagGetReadsTheFlag :
    (0#5).toNat ∈ [0, 2, 3, 4, 5] ∧ (5#5).toNat ∈ [0, 2, 3, 4, 5] ∧ (5#5).toNat ≤ 5 := by decide

theorem witness_FlagPutWritesTheFlag :
    ((0#4) = 0 ∧ 4 = 4 ∧ (5#5).toNat ∈ [0, 2, 3, 4, 5]) ∧ ((4#4) = 4 ∧ 5 = 5 ∧ (5#5).toNat ≤ 5) := by decide

theorem witness_UnnamedFlagsAreUnknown :
    ((0#4) = 0 ∧ (1#5).toNat = 1) ∧ ((0#4) = 0 ∧ 6 ≤ (6#5).toNat) ∧ ((4#4) = 4 ∧ 6 ≤ (31#5).toNat) := by decide

theorem witness_StiCheckTestsInOrder :
    frfGet (due 0 (withSlots [0x49435453, 0, 0, 0, 9])).captured.frf 4 = 9#32 := by decide

/-- How the witnesses show that a mask and depth disagree: no position below 32 fits, and none from 32 on can. -/
theorem not_maskAgrees (c : Channel) (h0 : ¬ (c.depth = 0 ∧ c.mask = 0))
    (h : ∀ k, k < 32 → c.mask.toNat ≠ (2 ^ c.depth - 1) * 2 ^ k) : ¬ MaskAgrees c := by
  rintro (h1 | ⟨hd, k, hk⟩)
  · exact h0 h1
  · by_cases hlt : k < 32
    · exact h k hlt hk
    · have h2 : 2 ^ 32 ≤ 2 ^ k := Nat.pow_le_pow_right (by decide) (by omega)
      have h3 : 2 ^ 1 ≤ 2 ^ c.depth := Nat.pow_le_pow_right (by decide) hd
      have h4 : 1 * 2 ^ k ≤ (2 ^ c.depth - 1) * 2 ^ k := Nat.mul_le_mul_right _ (by omega)
      have h5 : c.mask.toNat < 2 ^ 32 := c.mask.isLt
      omega

/-- The reset spec's operands with one register of it changed. -/
def specR : Operands := { withBytes [] with cmaskR := 0xF000#32 }
def specG : Operands := { withBytes [] with cmaskG := 0x07C0#32 }
def specB : Operands := { withBytes [] with cmaskB := 0x1D#32 }
def specA : Operands := { withBytes [] with cmaskA := 0x1#32 }
def specT (total : BitVec 8) : Operands := { withBytes [] with ctotal := total }

/-- The four mask clauses (V-P51 to V-P53): each channel's mask disagrees, the ones before it agree. -/
theorem witness_CspecValidate_masks :
    ¬ MaskAgrees (colorSpec (due 0 specR).captured).r ∧
    (MaskAgrees (colorSpec (due 0 specG).captured).r ∧ ¬ MaskAgrees (colorSpec (due 0 specG).captured).g) ∧
    (MaskAgrees (colorSpec (due 0 specB).captured).r ∧ MaskAgrees (colorSpec (due 0 specB).captured).g ∧
      ¬ MaskAgrees (colorSpec (due 0 specB).captured).b) ∧
    (MaskAgrees (colorSpec (due 0 specA).captured).r ∧ MaskAgrees (colorSpec (due 0 specA).captured).g ∧
      MaskAgrees (colorSpec (due 0 specA).captured).b ∧ ¬ MaskAgrees (colorSpec (due 0 specA).captured).a) :=
  ⟨not_maskAgrees _ (by decide) (by decide),
    ⟨witness_resetSpec_valid.r, not_maskAgrees _ (by decide) (by decide)⟩,
    ⟨witness_resetSpec_valid.r, witness_resetSpec_valid.g, not_maskAgrees _ (by decide) (by decide)⟩,
    witness_resetSpec_valid.r, witness_resetSpec_valid.g, witness_resetSpec_valid.b,
    not_maskAgrees _ (by decide) (by decide)⟩

/-- The clauses on the total depth, the masks being the reset spec's: 0, 12, 72 (V-P54 to V-P56), and 8 for the depths
5, 6, 5 (V-P57). -/
theorem witness_CspecValidate_total :
    (∀ t : BitVec 8, MaskAgrees (colorSpec (due 0 (specT t)).captured).r ∧
      MaskAgrees (colorSpec (due 0 (specT t)).captured).g ∧ MaskAgrees (colorSpec (due 0 (specT t)).captured).b ∧
      MaskAgrees (colorSpec (due 0 (specT t)).captured).a) ∧
    (colorSpec (due 0 (specT 0)).captured).total = 0 ∧
    (colorSpec (due 0 (specT 12)).captured).total % 8 ≠ 0 ∧
    64 < (colorSpec (due 0 (specT 72)).captured).total ∧
    0 < (colorSpec (due 0 (specT 8)).captured).total ∧ (colorSpec (due 0 (specT 8)).captured).total % 8 = 0 ∧
    (colorSpec (due 0 (specT 8)).captured).total ≤ 64 ∧
    (colorSpec (due 0 (specT 8)).captured).total <
      (colorSpec (due 0 (specT 8)).captured).r.depth + (colorSpec (due 0 (specT 8)).captured).g.depth +
        (colorSpec (due 0 (specT 8)).captured).b.depth + (colorSpec (due 0 (specT 8)).captured).a.depth :=
  ⟨fun _ => ⟨witness_resetSpec_valid.r, witness_resetSpec_valid.g, witness_resetSpec_valid.b,
    witness_resetSpec_valid.a⟩, by decide, by decide, by decide, by decide, by decide, by decide, by decide⟩

/-- The last clause: a valid spec. -/
theorem witness_CspecValidateTestsInOrder : SpecValid (colorSpec (due 0 (withBytes [])).captured) :=
  witness_resetSpec_valid

theorem witness_ColourCommandsValidateFirst :
    exec .cspecValidate (due 0 { withBytes [] with ctotal := 12#8 }) =
      .next ((due 0 { withBytes [] with ctotal := 12#8 }).ended 0 .invalidSpec 4) := rfl

theorem witness_PixUnpackWritesTheComponents :
    SpecValid (colorSpec (due 0 { withBytes [] with raw := 0x8410#32 }).captured) := witness_resetSpec_valid

/-- Every component at its largest legal value. -/
theorem witness_PixPackWritesThePixel :
    SpecValid (colorSpec (due 0 (withComponents 255 255 255 255)).captured) ∧
    (due 0 (withComponents 255 255 255 255)).captured.compR.toNat ≤ 255 ∧
    (due 0 (withComponents 255 255 255 255)).captured.compG.toNat ≤ 255 ∧
    (due 0 (withComponents 255 255 255 255)).captured.compB.toNat ≤ 255 ∧
    (due 0 (withComponents 255 255 255 255)).captured.compA.toNat ≤ 255 :=
  ⟨witness_resetSpec_valid, by decide, by decide, by decide, by decide⟩

/-- Each component in turn at the smallest illegal value, those before it at the largest legal one. -/
theorem witness_PixPackRejectsLargeComponents :
    (∀ r g b a, SpecValid (colorSpec (due 0 (withComponents r g b a)).captured)) ∧
    255 < (due 0 (withComponents 256 0 0 0)).captured.compR.toNat ∧
    (due 0 (withComponents 255 256 0 0)).captured.compR.toNat ≤ 255 ∧
    255 < (due 0 (withComponents 255 256 0 0)).captured.compG.toNat ∧
    (due 0 (withComponents 255 255 256 0)).captured.compG.toNat ≤ 255 ∧
    255 < (due 0 (withComponents 255 255 256 0)).captured.compB.toNat ∧
    (due 0 (withComponents 255 255 255 256)).captured.compB.toNat ≤ 255 ∧
    255 < (due 0 (withComponents 255 255 255 256)).captured.compA.toNat :=
  ⟨fun _ _ _ _ => witness_resetSpec_valid, by decide, by decide, by decide, by decide, by decide, by decide,
    by decide⟩

/-- The reset masks are disjoint, so the bound is claimed of every channel. -/
theorem witness_PackThenUnpackIsWithinTheBound :
    (due 0 (withComponents 200 100 50 128)).captured = (due 0 (withComponents 200 100 50 128)).opr ∧
    SpecValid (colorSpec (due 0 (withComponents 200 100 50 128)).opr) ∧
    (withComponents 200 100 50 128).compR.toNat ≤ 255 ∧ (withComponents 200 100 50 128).compG.toNat ≤ 255 ∧
    (withComponents 200 100 50 128).compB.toNat ≤ 255 ∧ (withComponents 200 100 50 128).compA.toNat ≤ 255 ∧
    (withComponents 200 100 50 128).cmaskR &&&
      ((withComponents 200 100 50 128).cmaskG ||| (withComponents 200 100 50 128).cmaskB |||
        (withComponents 200 100 50 128).cmaskA) = 0 :=
  ⟨rfl, witness_resetSpec_valid, by decide, by decide, by decide, by decide, by decide⟩

/-- Two 16-bit pixels in exactly four bytes, with exactly eight bytes of budget. -/
def twoPixels : State := due 0 { withBytes [0x00, 0xF8, 0x1F, 0x00] with pixCount := 2#32, dstCap := 8#32 }

theorem witness_PixDecodeWritesThePixels :
    SpecValid (colorSpec twoPixels.captured) ∧ (colorSpec twoPixels.captured).total = 8 * 2 ∧ SrcFits twoPixels ∧
    DstFits twoPixels ∧ twoPixels.captured.pixCount.toNat * 2 ≤ twoPixels.captured.srcLen.toNat ∧
    twoPixels.captured.pixCount.toNat * 4 ≤ twoPixels.captured.dstCap.toNat := by
  unfold SrcFits DstFits
  exact ⟨witness_resetSpec_valid, by decide, by decide, by decide, by decide, by decide⟩

/-- Two RGBA pixels in exactly eight bytes, with exactly four bytes of budget. -/
def twoRgba : State := due 0 { withBytes [0xFF, 0, 0, 0, 0, 0, 0xFF, 0] with pixCount := 2#32, dstCap := 4#32 }

theorem witness_PixEncodeWritesThePixels :
    SpecValid (colorSpec twoRgba.captured) ∧ (colorSpec twoRgba.captured).total = 8 * 2 ∧ SrcFits twoRgba ∧
    DstFits twoRgba ∧ twoRgba.captured.pixCount.toNat * 4 ≤ twoRgba.captured.srcLen.toNat ∧
    twoRgba.captured.pixCount.toNat * 2 ≤ twoRgba.captured.dstCap.toNat := by
  unfold SrcFits DstFits
  exact ⟨witness_resetSpec_valid, by decide, by decide, by decide, by decide, by decide⟩

/-- The hypotheses that the four clauses on the sizes share. -/
def Streams (s : State) (n bpp : Nat) : Prop :=
  SpecValid (colorSpec s.captured) ∧ (colorSpec s.captured).total = 8 * bpp ∧ SrcFits s ∧ DstFits s ∧
    s.captured.pixCount.toNat = n

/-- One byte short (V-P45 to V-P48), for each of the four clauses. -/
theorem witness_PixelStreamsReportTheSizeNeeded :
    (Streams (due 0 { counting 3 with pixCount := 2#32 }) 2 2 ∧
      (due 0 { counting 3 with pixCount := 2#32 }).captured.srcLen.toNat < 2 * 2) ∧
    (Streams (due 0 { counting 4 with pixCount := 2#32, dstCap := 7#32 }) 2 2 ∧
      2 * 2 ≤ (due 0 { counting 4 with pixCount := 2#32, dstCap := 7#32 }).captured.srcLen.toNat ∧
      (due 0 { counting 4 with pixCount := 2#32, dstCap := 7#32 }).captured.dstCap.toNat < 2 * 4) ∧
    (Streams (due 0 { counting 7 with pixCount := 2#32 }) 2 2 ∧
      (due 0 { counting 7 with pixCount := 2#32 }).captured.srcLen.toNat < 2 * 4) ∧
    (Streams (due 0 { counting 8 with pixCount := 2#32, dstCap := 3#32 }) 2 2 ∧
      2 * 4 ≤ (due 0 { counting 8 with pixCount := 2#32, dstCap := 3#32 }).captured.srcLen.toNat ∧
      (due 0 { counting 8 with pixCount := 2#32, dstCap := 3#32 }).captured.dstCap.toNat < 2 * 2) := by
  unfold Streams SrcFits DstFits
  exact ⟨⟨⟨witness_resetSpec_valid, by decide⟩, by decide⟩, ⟨⟨witness_resetSpec_valid, by decide⟩, by decide⟩,
    ⟨⟨witness_resetSpec_valid, by decide⟩, by decide⟩, ⟨witness_resetSpec_valid, by decide⟩, by decide⟩

/-- V-E7: a line of two literal runs about a compressed one. -/
theorem witness_CompressedLineIsRunsAndOneEnd :
    compressLine (bytes [1, 0, 0, 2]) =
      streamOf ([] ++ .literal [1#8] :: .zeros 2 :: [.literal [2#8]]) ++ [0x00#8] := by decide

/-- V-E4: an isolated zero inside a literal run, and V-E6: a zero at the end of a line. -/
theorem witness_IsolatedZerosStayLiteral :
    compressLine (bytes [1, 0, 2]) = streamOf ([] ++ .literal (bytes [1, 0, 2]) :: []) ++ [0x00#8] ∧
    compressLine (bytes [1, 0]) = streamOf ([.literal [1#8]] ++ .zeros 1 :: []) ++ [0x00#8] := by decide

theorem witness_CompressedLineLengthBound : ∀ b ∈ bytes [1, 2, 255], b ≠ 0 := by decide

/-- Both ways to ask for no fault in the lengths, the budget being exact. -/
theorem witness_DecompressOfCompressIsTheLines :
    [bytes [0, 5], bytes [1, 2]].flatten.length ≤ 4 ∧ (∀ l ∈ [bytes [0, 5], bytes [1, 2]], l.length = 2) ∧
    [bytes [0, 5], bytes [1]].flatten.length ≤ 3 := by decide

/-- Two lines of two bytes, whose compressed form fills the budget exactly. -/
def twoLines : State := due 0 { withBytes [1, 2, 0, 0] with lineLen := 2#32, lineCnt := 2#32, dstCap := 6#32 }

theorem witness_EtrleCompressWritesTheLines :
    SrcFits twoLines ∧ DstFits twoLines ∧
    twoLines.captured.lineLen.toNat * twoLines.captured.lineCnt.toNat ≤ twoLines.captured.srcLen.toNat ∧
    bytes [2, 1, 2, 0, 0x82, 0] = (List.range twoLines.captured.lineCnt.toNat).flatMap (fun r => compressLine
      (twoLines.captured.ibuf.ibufBytes (twoLines.captured.srcOff.toNat + r * twoLines.captured.lineLen.toNat)
        twoLines.captured.lineLen.toNat)) ∧
    (bytes [2, 1, 2, 0, 0x82, 0]).length ≤ twoLines.captured.dstCap.toNat := by
  unfold SrcFits DstFits; decide

/-- One byte short, of input (V-E34) and of budget (V-E32). -/
def shortLines : State := due 0 { counting 7 with lineLen := 4#32, lineCnt := 2#32 }
def tightLines : State := due 0 { withBytes [] with lineLen := 0#32, lineCnt := 3#32, dstCap := 2#32 }

theorem witness_EtrleCompressReportsTheSizeNeeded :
    (SrcFits shortLines ∧ DstFits shortLines ∧ shortLines.captured.srcLen.toNat <
      shortLines.captured.lineLen.toNat * shortLines.captured.lineCnt.toNat) ∧
    (SrcFits tightLines ∧ DstFits tightLines ∧
      tightLines.captured.lineLen.toNat * tightLines.captured.lineCnt.toNat ≤ tightLines.captured.srcLen.toNat ∧
      tightLines.captured.dstCap.toNat < (compressedLines tightLines.captured).length) := by
  unfold SrcFits DstFits; decide

/-- V-D13: three records in exactly their budget. -/
def threeRecords : State := due 0 { withBytes [0x83, 2, 1, 2, 0] with dstCap := 5#32 }

theorem witness_EtrleDecompressDecodesAnyRecords :
    SrcFits threeRecords ∧ DstFits threeRecords ∧
    (∀ r ∈ [Record.zeros 3, .literal (bytes [1, 2]), .eol], r.wf = true) ∧
    threeRecords.captured.ibuf.ibufBytes threeRecords.captured.srcOff.toNat threeRecords.captured.srcLen.toNat =
      streamOf [.zeros 3, .literal (bytes [1, 2]), .eol] ∧
    (outputOf [.zeros 3, .literal (bytes [1, 2]), .eol]).length ≤ threeRecords.captured.dstCap.toNat := by
  unfold SrcFits DstFits; decide

/-- Clause 1 (V-D4): a literal run of three with two bytes left. -/
def cutRun : State := due 0 (withBytes [0x81, 3, 1, 2])

theorem witness_EtrleDecompressReportsTheFirstFault_malformed :
    SrcFits cutRun ∧ DstFits cutRun ∧ (∀ r ∈ [Record.zeros 1], r.wf = true) ∧
    (outputOf [.zeros 1]).length ≤ cutRun.captured.dstCap.toNat ∧ 1 ≤ (3#8).toNat ∧ (3#8).toNat ≤ 127 ∧
    (bytes [1, 2]).length < (3#8).toNat ∧
    cutRun.captured.ibuf.ibufBytes cutRun.captured.srcOff.toNat cutRun.captured.srcLen.toNat =
      streamOf [.zeros 1] ++ 3#8 :: bytes [1, 2] := by
  unfold SrcFits DstFits; decide

/-- Clause 2 (V-D12): a literal run that makes five bytes of a budget of four. -/
def tightRun : State := due 0 { withBytes [0x83, 2, 1, 2, 0] with dstCap := 4#32 }

theorem witness_EtrleDecompressReportsTheFirstFault_overflow :
    SrcFits tightRun ∧ DstFits tightRun ∧ (∀ r ∈ [Record.zeros 3], r.wf = true) ∧
    (outputOf [.zeros 3]).length ≤ tightRun.captured.dstCap.toNat ∧ (Record.literal (bytes [1, 2])).wf = true ∧
    tightRun.captured.dstCap.toNat <
      (outputOf [.zeros 3]).length + (Record.literal (bytes [1, 2])).output.length ∧
    tightRun.captured.ibuf.ibufBytes tightRun.captured.srcOff.toNat tightRun.captured.srcLen.toNat =
      streamOf [.zeros 3] ++ ((Record.literal (bytes [1, 2])).bytes ++ bytes [0]) := by
  unfold SrcFits DstFits; decide

/-- The compressed lines of `twoLines`, copied to the IBUF of a machine that decompresses them. -/
def twoLinesBack : State := due 0 { withBytes [2, 1, 2, 0, 0x82, 0] with lineLen := 2#32, dstCap := 4#32 }

theorem witness_DecompressAfterCompressRestoresTheLines :
    (∃ t, exec .etrleCompress twoLines = .next t ∧ t.errcode = .none ∧
      twoLinesBack.captured.ibuf.ibufBytes twoLinesBack.captured.srcOff.toNat twoLinesBack.captured.srcLen.toNat =
        t.obuf.obufBytes twoLines.captured.dstOff.toNat t.outLen.toNat) ∧
    SrcFits twoLinesBack ∧ DstFits twoLinesBack ∧ twoLinesBack.captured.lineLen = twoLines.captured.lineLen ∧
    twoLines.captured.lineLen.toNat * twoLines.captured.lineCnt.toNat ≤ twoLinesBack.captured.dstCap.toNat := by
  unfold SrcFits DstFits
  exact ⟨⟨_, rfl, by decide, by decide⟩, by decide, by decide, by decide, by decide⟩

end Sys2Proof.Tests
end

section
/-! SUPPORT. The register window as the host port sees it (spec/10_state.md R21, R22; spec/20_memory.md R62, R66), and
the proofs of the statements about reserved offsets and read-only registers. -/

namespace Sys2Proof.Machine

/-! ### Addresses of the register window -/

/-- The register window is the first 2^24 addresses (spec/20_memory.md R62). -/
theorem windowOf_of_lt {a : Addr} (h : a.toNat < 2 ^ 24) : windowOf a = .registers := by
  have hsplit := addr_toNat a
  have hbits : (a.extractLsb' 24 2).toNat = 0 := by omega
  simp only [windowOf, hbits]

/-- There an address is its own offset. -/
theorem offsetOf_of_lt {a : Addr} (h : a.toNat < 2 ^ 24) : offsetOf a = a.toNat :=
  (windowOf_registers (windowOf_of_lt h)).symm

/-- The host address of a register offset. -/
theorem toNat_registerAddr {off : Nat} (h : off < 2 ^ 24) : (BitVec.ofNat 26 off).toNat = off := by
  rw [BitVec.toNat_ofNat, Nat.mod_eq_of_lt (by omega)]

/-! ### Accesses to the register window -/

/-- No two entries of the register map share an offset: each is the one found there (spec/10_state.md R21). -/
theorem regTable_regAt : ∀ p ∈ regTable, regAt p.1 = some p.2 := by decide

/-- A register's address lies in the register window, and the register is found there. -/
theorem registerAddr_of_mem {off : Nat} {r : RegName} (h : (off, r) ∈ regTable) :
    windowOf (BitVec.ofNat 26 off) = .registers ∧ regAt (offsetOf (BitVec.ofNat 26 off)) = some r := by
  obtain ⟨-, hlt⟩ : off % 4 = 0 ∧ off < 0x138 := regTable_offsets _ h
  have haddr : (BitVec.ofNat 26 off).toNat = off := toNat_registerAddr (by omega)
  have hwin : (BitVec.ofNat 26 off).toNat < 2 ^ 24 := by omega
  refine ⟨windowOf_of_lt hwin, ?_⟩
  rw [offsetOf_of_lt hwin, haddr]
  exact regTable_regAt _ h

/-- A 32-bit read at a register's address answers what the register reads as. -/
theorem State.hostRead_register (s : State) {off : Nat} {r : RegName} (h : (off, r) ∈ regTable) :
    s.hostRead (BitVec.ofNat 26 off) .w32 = s.regRead r := by
  obtain ⟨hwin, hat⟩ := registerAddr_of_mem h
  simp only [State.hostRead, hwin, hat, if_true]

/-- A 32-bit write at a register's address is a write to that register. -/
theorem State.hostWrite_register (s : State) {off : Nat} {r : RegName} (h : (off, r) ∈ regTable) (v : Word) :
    s.hostWrite (BitVec.ofNat 26 off) (.d32 v) = s.regWrite r v := by
  obtain ⟨hwin, hat⟩ := registerAddr_of_mem h
  simp only [State.hostWrite, hwin, hat]

/-- Where no register stands, a read of any size answers 0 (R22, R66). -/
theorem State.hostRead_of_no_register (s : State) {a : Addr} (hw : windowOf a = .registers)
    (hr : regAt (offsetOf a) = none) (w : Width) : s.hostRead a w = 0 := by
  simp only [State.hostRead, hw, hr, ite_self]

/-- Where no register stands, a write of any size does nothing (R22, R66). -/
theorem State.hostWrite_of_no_register (s : State) {a : Addr} (hw : windowOf a = .registers)
    (hr : regAt (offsetOf a) = none) (d : HostData) : s.hostWrite a d = s := by
  cases d with
  | d8 v | d16 v => simp only [State.hostWrite, hw]
  | d32 v => simp only [State.hostWrite, hw, hr]

/-! ### Reserved offsets -/

/-- The register map has no entry at a reserved offset (R21, R22). -/
theorem regTable_not_reserved : ∀ p ∈ regTable, reservedOffset p.1 = false := by decide

theorem regAt_of_reserved {off : Nat} (h : reservedOffset off = true) : regAt off = none := by
  cases hr : regAt off with
  | none => rfl
  | some r =>
    have hfree : reservedOffset off = false := regTable_not_reserved _ (regAt_mem hr)
    rw [h] at hfree
    cases hfree

/-- Settles O27: a reserved offset is an address of the register window at which no register stands. -/
theorem reservedOffsetsReadZero : Obligations.ReservedOffsetsReadZero := by
  intro s off w d hlt hres
  have haddr := toNat_registerAddr hlt
  have hwin : windowOf (BitVec.ofNat 26 off) = .registers := windowOf_of_lt (haddr.symm ▸ hlt)
  have hnone : regAt (offsetOf (BitVec.ofNat 26 off)) = none := by
    rw [offsetOf_of_lt (haddr.symm ▸ hlt), haddr]
    exact regAt_of_reserved hres
  exact ⟨s.hostRead_of_no_register hwin hnone w, s.hostWrite_of_no_register hwin hnone d⟩

/-! ### Read-only registers and the words computed from flags -/

/-- The registers of access RO in the table of R21, but for STATUS, whose writes clear DONE and WLOST (R26). -/
def RegName.ignoresWrites : RegName → Bool
  | .id | .version | .errinfo | .ibufSize | .obufSize | .outLen | .flagres | .lines | .info => true
  | _ => false

theorem State.regWrite_of_ignoresWrites (s : State) {r : RegName} (h : r.ignoresWrites = true) (v : Word) :
    s.regWrite r v = s := by
  cases r with
  | id | version | errinfo | ibufSize | obufSize | outLen | flagres | lines | info => rfl
  | _ => cases h

theorem bitAt_zero (b : Bool) : bitAt b 0 = if b then 1#32 else 0#32 := by
  cases b <;> decide

theorem State.infoWord_eq_sum (s : State) :
    s.infoWord = (if s.unterm then 1#32 else 0#32) + (if s.lenmis then 2#32 else 0#32) := by
  unfold State.infoWord
  generalize s.unterm = unterm
  generalize s.lenmis = lenmis
  revert unterm lenmis
  decide

/-- The addresses of the registers that ignore writes (access RO in R21, STATUS apart). -/
theorem ignoresWrites_addresses :
    (regTable.filter fun p => p.2.ignoresWrites).map (fun p => BitVec.ofNat 26 p.1) =
      [0x0000000#26, 0x0000004#26, 0x0000014#26, 0x0000018#26, 0x000001C#26, 0x0000030#26, 0x0000040#26,
        0x0000044#26, 0x0000048#26] := by decide

/-- Settles O28: the register map gives the register at each address, and that register is read or written. -/
theorem readOnlyRegistersIgnoreWrites : Obligations.ReadOnlyRegistersIgnoreWrites := by
  intro s v
  have hread {off : Nat} (r : RegName) (h : (off, r) ∈ regTable) := s.hostRead_register h
  refine ⟨hread .id (by decide), hread .version (by decide), hread .ibufSize (by decide), hread .obufSize (by decide),
    (hread .ctrl (by decide)).trans (bitAt_zero s.ie), hread .status (by decide), hread .cmd (by decide),
    hread .errinfo (by decide), hread .outLen (by decide),
    (hread .flagres (by decide)).trans (bitAt_zero s.flagres), hread .lines (by decide),
    (hread .info (by decide)).trans s.infoWord_eq_sum, fun a ha => ?_⟩
  rw [← ignoresWrites_addresses] at ha
  obtain ⟨⟨off, r⟩, hmem, rfl⟩ := List.mem_map.1 ha
  obtain ⟨hentry, hro⟩ := List.mem_filter.1 hmem
  exact (s.hostWrite_register hentry v).trans (s.regWrite_of_ignoresWrites hro v)

end Sys2Proof.Machine
end

section
/-! SUPPORT. The access sizes and alignment that the register window admits (spec/20_memory.md R66). -/

namespace Sys2Proof.Machine

/-- Every register stands at a multiple of 4 (R21), so none is found at another offset. -/
theorem regAt_of_misaligned {off : Nat} (h : off % 4 ≠ 0) : regAt off = none := by
  cases hr : regAt off with
  | none => rfl
  | some r =>
    obtain ⟨halign, -⟩ : off % 4 = 0 ∧ off < 0x138 := regTable_offsets _ (regAt_mem hr)
    exact absurd halign h

/-- The register window answers 0 to a byte or halfword read, whatever stands at the offset (R66). -/
theorem State.hostRead_of_not_w32 (s : State) {a : Addr} (hw : windowOf a = .registers) {w : Width}
    (h : w ≠ .w32) : s.hostRead a w = 0 := by
  simp only [State.hostRead, hw, if_neg h]

/-- The register window ignores a byte or halfword write, whatever stands at the offset (R66). -/
theorem State.hostWrite_of_not_d32 (s : State) {a : Addr} (hw : windowOf a = .registers) {d : HostData}
    (h : data32 d = none) : s.hostWrite a d = s := by
  cases d with
  | d8 v | d16 v => simp only [State.hostWrite, hw]
  | d32 v => cases h

/-- Settles O29: the window refuses the two narrower sizes, and no register stands at a misaligned offset. -/
theorem registerWindowAdmitsAlignedWordsOnly : Obligations.RegisterWindowAdmitsAlignedWordsOnly := by
  intro s a w d hlt
  have hwin : windowOf a = .registers := windowOf_of_lt hlt
  have hnone (halign : a.toNat % 4 ≠ 0) : regAt (offsetOf a) = none :=
    regAt_of_misaligned (offsetOf_of_lt hlt ▸ halign)
  constructor
  · rintro (hsize | halign)
    · exact s.hostRead_of_not_w32 hwin hsize
    · exact s.hostRead_of_no_register hwin (hnone halign) w
  · rintro (hsize | halign)
    · exact s.hostWrite_of_not_d32 hwin hsize
    · exact s.hostWrite_of_no_register hwin (hnone halign) d

end Sys2Proof.Machine
end

section
/-! SUPPORT. The decoder and the table of match patterns (spec/30_encoding.md R83): a word decodes exactly when it
matches a row, and then it matches no other. -/

namespace Sys2Proof

/-! ### The table -/

/-- Every mask covers all of OPC (bits 7:0, R80). -/
theorem opcodeTable_mask_opc : ∀ r ∈ opcodeTable, r.mask.extractLsb' 0 8 = BitVec.allOnes 8 := by decide

/-- No two rows share an OPC: the search by a row's OPC finds that row. -/
theorem opcodeTable_find?_opc : ∀ r ∈ opcodeTable,
    opcodeTable.find? (fun q => q.pattern.extractLsb' 0 8 == r.pattern.extractLsb' 0 8) = some r := by decide

/-- Each operation has one row (R82). -/
theorem opcodeTable_op_injective : ∀ r ∈ opcodeTable, ∀ q ∈ opcodeTable, r.op = q.op → r = q := by decide

@[simp] theorem opcode_buildInstr (op : Opcode) (w : Word) : (buildInstr op w).opcode = op := by
  cases op <;> rfl

/-! ### The decoder -/

/-- A word that matches a row has the row's OPC, since the mask covers it. -/
theorem cmdOpc_of_match {r : OpcodeRow} (hr : r ∈ opcodeTable) {w : Word} (h : w &&& r.mask = r.pattern) :
    cmdOpc w = r.pattern.extractLsb' 0 8 := by
  rw [← h, BitVec.extractLsb'_and, opcodeTable_mask_opc r hr, BitVec.and_allOnes, cmdOpc]

/-- The decoder finds the row that a word matches. -/
theorem decode_of_match {r : OpcodeRow} (hr : r ∈ opcodeTable) {w : Word} (h : w &&& r.mask = r.pattern) :
    decode w = .ok (buildInstr r.op w) := by
  simp only [decode, cmdOpc_of_match hr h, opcodeTable_find?_opc r hr, if_pos h]

/-- WHAT DECODES: a word that matches a row, to the row's command with the word's fields. -/
theorem decode_eq_ok_iff {w : Word} {i : Instr} :
    decode w = .ok i ↔ ∃ r ∈ opcodeTable, w &&& r.mask = r.pattern ∧ buildInstr r.op w = i := by
  constructor
  · intro h
    unfold decode at h
    split at h
    next => cases h
    next r hfind =>
      split at h
      next hmatch => exact ⟨r, List.mem_of_find?_eq_some hfind, hmatch, Except.ok.inj h⟩
      next => cases h
  · rintro ⟨r, hr, hmatch, rfl⟩
    exact decode_of_match hr hmatch

/-- A word decodes to a row's command exactly when it matches that row: the command names its operation, and the
operation its row. -/
theorem decode_eq_buildInstr_iff {r : OpcodeRow} (hr : r ∈ opcodeTable) (w : Word) :
    decode w = .ok (buildInstr r.op w) ↔ w &&& r.mask = r.pattern := by
  refine ⟨fun h => ?_, decode_of_match hr⟩
  obtain ⟨q, hq, hmatch, hbuild⟩ := decode_eq_ok_iff.1 h
  have hop : q.op = r.op := by simpa using congrArg Instr.opcode hbuild
  exact opcodeTable_op_injective q hq r hr hop ▸ hmatch

/-- Settles O4: the statement is `decode_eq_buildInstr_iff` at each row of the table, in order. -/
theorem decoderFollowsTheMatchPatterns : Obligations.DecoderFollowsTheMatchPatterns := by
  intro w
  have row (n : Fin 12) := decode_eq_buildInstr_iff (opcodeTable.get_mem n) w
  exact ⟨row 0, row 1, row 2, row 3, row 4, row 5, row 6, row 7, row 8, row 9, row 10, row 11⟩

end Sys2Proof
end

section
/-! SUPPORT. The life of a command (spec/40_command.md): the CMD write that a running command loses (R102), and the
completion of a command that fails (R107). -/

namespace Sys2Proof.Machine

/-- Settles O12: the register map places CMD at 0x010, and a running command loses a write to CMD. -/
theorem cmdWriteWhileBusyIsLost : Obligations.CmdWriteWhileBusyIsLost := by
  intro s w hbusy
  have hcmd : s.hostWrite 0x0000010#26 (.d32 w) = s.regWrite .cmd w :=
    s.hostWrite_register (off := 0x010) (by decide) w
  calc s.hostWrite 0x0000010#26 (.d32 w)
      = s.putCmd w := hcmd
    _ = s.loseWrite := State.putCmd_of_busy hbusy w

/-- The error completion of R107 is the one that writes only OUT_LEN, as 0, and the completion's own registers. -/
theorem State.fail_eq_ended (s : State) (e : Err) : s.fail e = s.ended 0 e.code e.info := rfl

/-- A command that ends with an error code ended by failing: a success reports NONE (R105). -/
theorem exec_eq_fail_of_errcode {i : Instr} {s t : State} (h : exec i s = .next t) (herr : t.errcode ≠ .none) :
    ∃ e, t = s.fail e := by
  rcases exec_cases i s with ⟨e, -, hfail⟩ | ⟨w, -, hok⟩
  · exact ⟨e, Host.Outcome.next.inj (h.symm.trans hfail)⟩
  · obtain rfl : t = s.succeed w := Host.Outcome.next.inj (h.symm.trans hok)
    exact absurd (State.succeed_errcode s w) herr

/-- Settles O16: the command failed with some error, and its completion records that error and nothing else. -/
theorem failedCommandWritesNothing : Obligations.FailedCommandWritesNothing := by
  intro i s t h herr
  obtain ⟨e, rfl⟩ := exec_eq_fail_of_errcode h herr
  rw [State.fail_errcode, State.fail_errinfo]
  exact s.fail_eq_ended e

end Sys2Proof.Machine
end

section
/-! SUPPORT. The header unit (spec/41_header.md): a layout's slots, what HDR_DECODE puts in them and HDR_ENCODE makes
of them (R126, R127, R129), and the order of STI_CHECK's tests (R150). -/

namespace Sys2Proof.Machine

/-! ### A layout's slots -/

/-- The slots of a field: slot, byte offset and width of the bytes each holds (R126, R127). -/
def fieldSlots (f : Field) : List (Nat × Nat × Nat) :=
  match f.kind with
  | .int => [(f.slot, f.off, f.width)]
  | .bytes => (List.range (f.width / 4)).map (fun j => (f.slot + j, f.off + 4 * j, 4))
  | .padding => []

/-- The slots of a layout are its fields' slots, in order. -/
theorem slotTable_eq_flatMap (l : Layout) : slotTable l = (layoutFields l).flatMap fieldSlots := by
  cases l <;> rfl

theorem mem_slotTable {l : Layout} {f : Field} (hf : f ∈ layoutFields l) {p : Nat × Nat × Nat}
    (hp : p ∈ fieldSlots f) : p ∈ slotTable l :=
  slotTable_eq_flatMap l ▸ List.mem_flatMap.2 ⟨f, hf, hp⟩

/-- Every slot exists, takes at most four bytes, and lies inside the layout. -/
theorem slotTable_bounds (l : Layout) :
    ∀ p ∈ slotTable l, p.1 < 14 ∧ p.2.2 ≤ 4 ∧ p.2.1 + p.2.2 ≤ layoutSize l := by
  cases l <;> decide

/-- No layout names a slot twice. -/
theorem slotTable_nodup (l : Layout) : ((slotTable l).map Prod.fst).Nodup := by
  cases l <;> decide

theorem layoutBytes_eq_layoutSize (l : Layout) : layoutBytes l = layoutSize l := by
  cases l <;> rfl

@[simp] theorem layoutOfBits_layoutNumber (l : Layout) : layoutOfBits (layoutNumber l) = some l := by
  cases l <;> rfl

theorem mem_layoutFields {l : Layout} {f : Field} :
    f ∈ layoutFields l ↔ f ∈ layoutRows l ∧ f.kind ≠ .padding := by
  simp only [layoutFields, List.mem_filter, bne_iff_ne]

/-! ### The rows of a layout, byte by byte -/

/-- The rows cover the layout's bytes in order and without gaps (R120). -/
theorem layoutRows_offsets (l : Layout) :
    (layoutRows l).flatMap (fun f => List.range' f.off f.width) = List.range (layoutSize l) := by
  cases l <;> decide

/-- A field's slots cover its bytes in order and without gaps (R127). -/
theorem fieldSlots_offsets (l : Layout) : ∀ f ∈ layoutFields l,
    (fieldSlots f).flatMap (fun p => List.range' p.2.1 p.2.2) = List.range' f.off f.width := by
  cases l <;> decide

/-- A byte of a row belongs to a field exactly when the row is no padding. -/
theorem coveredByte_of_mem_row (l : Layout) : ∀ f ∈ layoutRows l, ∀ i ∈ List.range' f.off f.width,
    coveredByte l i = (f.kind != .padding) := by
  cases l <;> decide

/-! ### Decoding: what the slots hold -/

/-- What a slot holds after the layout's bytes `b` are decoded: their little-endian value (R126, R127). -/
def decodeSlot (b : List Byte) (p : Nat × Nat × Nat) : Nat × Word :=
  (p.1, BitVec.ofNat 32 (le ((b.drop p.2.1).take p.2.2)))

theorem decodeField_eq_map (b : List Byte) (f : Field) : decodeField b f = (fieldSlots f).map (decodeSlot b) := by
  unfold decodeField fieldSlots
  cases f.kind with
  | int => rfl
  | bytes =>
    simp only [List.map_map]
    rfl
  | padding => rfl

theorem decodeFields_eq_map (l : Layout) (b : List Byte) :
    decodeFields l b = (slotTable l).map (decodeSlot b) := by
  rw [decodeFields, funext (decodeField_eq_map b), slotTable_eq_flatMap, List.map_flatMap]

/-- Each slot of the layout holds the little-endian value of its bytes (R130). -/
theorem frfGet_decodeFields (frf : Vector Word 14) (l : Layout) (b : List Byte) {p : Nat × Nat × Nat}
    (hp : p ∈ slotTable l) :
    frfGet (frfSetAll frf (decodeFields l b)) p.1 = BitVec.ofNat 32 (le ((b.drop p.2.1).take p.2.2)) := by
  obtain ⟨hslot, -, -⟩ := slotTable_bounds l p hp
  rw [decodeFields_eq_map]
  refine frfGet_frfSetAll_mem _ _ _ _ hslot (List.mem_map_of_mem hp : decodeSlot b p ∈ _) ?_
  rw [List.map_map]
  exact slotTable_nodup l

/-- The bytes of a slot come from the source window. -/
theorem srcBytes_slice (o : Operands) {i w n : Nat} (h : i + w ≤ n) :
    ((srcBytes o 0 n).drop i).take w = srcBytes o i w := by
  apply List.ext_getElem
  · simp only [List.length_take, List.length_drop, srcBytes_length]
    omega
  · intro j _ _
    simp only [List.getElem_take, List.getElem_drop, srcBytes_getElem, Nat.add_zero, Nat.add_assoc]

/-- A number of at most four bytes fits a slot. -/
theorem toNat_ofNat_le {bs : List Byte} (h : bs.length ≤ 4) : (BitVec.ofNat 32 (le bs)).toNat = le bs := by
  have hlt : le bs < 2 ^ 32 := (le_lt bs).trans_le (Nat.pow_le_pow_right (by decide) h)
  rw [BitVec.toNat_ofNat, Nat.mod_eq_of_lt hlt]

/-- The field register file after HDR_DECODE of the layout (R130; tied to the command by `exec_hdrDecode_of_fits`). -/
def decodedFrf (frf : Vector Word 14) (l : Layout) (o : Operands) : Vector Word 14 :=
  frfSetAll frf (decodeFields l (srcBytes o 0 (layoutSize l)))

/-- A decoded slot holds the number of its bytes in the source window. -/
theorem toNat_frfGet_decodedFrf (frf : Vector Word 14) (l : Layout) (o : Operands) {p : Nat × Nat × Nat}
    (hp : p ∈ slotTable l) : (frfGet (decodedFrf frf l o) p.1).toNat = le (srcBytes o p.2.1 p.2.2) := by
  obtain ⟨-, hwidth, hinside⟩ := slotTable_bounds l p hp
  rw [decodedFrf, frfGet_decodeFields frf l _ hp, srcBytes_slice o hinside, toNat_ofNat_le (by rwa [srcBytes_length])]

/-! ### Encoding: what the slots become -/

/-- When every slot fits its bytes, no field overflows (R135). -/
theorem checkFields_of_slotFits {l : Layout} {frf : Vector Word 14} (h : ∀ p ∈ slotTable l, slotFits frf p) :
    checkFields l frf = none := by
  rw [checkFields, Option.map_eq_none_iff, List.find?_eq_none]
  intro f hf hover
  simp only [fieldOverflows, Bool.and_eq_true, beq_iff_eq, decide_eq_true_eq] at hover
  obtain ⟨⟨hint, -⟩, hlarge⟩ := hover
  have hfits : (frfGet frf f.slot).toNat < 256 ^ f.width :=
    h (f.slot, f.off, f.width) (mem_slotTable hf (by simp [fieldSlots, hint]))
  rw [show 256 = 2 ^ 8 from rfl, ← Nat.pow_mul] at hfits
  omega

/-- A field is encoded slot by slot (R126, R127). -/
theorem encodeField_eq_flatMap (frf : Vector Word 14) {f : Field} (h : f.kind ≠ .padding) :
    encodeField frf f = (fieldSlots f).flatMap (fun p => leBytes p.2.2 (frfGet frf p.1).toNat) := by
  unfold encodeField fieldSlots
  cases hk : f.kind with
  | int => simp
  | bytes => simp only [List.flatMap_map]
  | padding => exact absurd hk h

/-- A padding row is encoded as zeros (R129). -/
theorem encodeField_of_padding (frf : Vector Word 14) {f : Field} (h : f.kind = .padding) :
    encodeField frf f = List.replicate f.width 0 := by
  simp only [encodeField, h]

/-- THE ENCODED HEADER, BYTE BY BYTE: if each slot's bytes are those that `byteAt` gives at their offsets, then every
field's bytes are, and the padding is 0. -/
theorem encodeFields_eq_map {l : Layout} {frf : Vector Word 14} {byteAt : Nat → Byte}
    (h : ∀ p ∈ slotTable l, leBytes p.2.2 (frfGet frf p.1).toNat = (List.range' p.2.1 p.2.2).map byteAt) :
    encodeFields l frf = (List.range (layoutSize l)).map (fun i => if coveredByte l i then byteAt i else 0) := by
  have hrow : ∀ f ∈ layoutRows l, encodeField frf f =
      (List.range' f.off f.width).map (fun i => if coveredByte l i then byteAt i else 0) := by
    intro f hf
    have hcov := coveredByte_of_mem_row l f hf
    by_cases hpad : f.kind = .padding
    · calc encodeField frf f
          = List.replicate f.width 0 := encodeField_of_padding frf hpad
        _ = (List.range' f.off f.width).map (fun _ => 0) := by rw [List.map_const', List.length_range']
        _ = _ := List.map_congr_left fun i hi => by simp [hcov i hi, hpad]
    · have hfield : f ∈ layoutFields l := mem_layoutFields.2 ⟨hf, hpad⟩
      calc encodeField frf f
          = (fieldSlots f).flatMap (fun p => leBytes p.2.2 (frfGet frf p.1).toNat) :=
            encodeField_eq_flatMap frf hpad
        _ = (fieldSlots f).flatMap (fun p => (List.range' p.2.1 p.2.2).map byteAt) :=
            List.flatMap_congr fun p hp => h p (mem_slotTable hfield hp)
        _ = (List.range' f.off f.width).map byteAt := by
            rw [← List.map_flatMap, fieldSlots_offsets l f hfield]
        _ = _ := List.map_congr_left fun i hi => by simp [hcov i hi, hpad]
  rw [encodeFields, List.flatMap_congr hrow, ← List.map_flatMap, layoutRows_offsets]

/-! ### Encoding what was decoded (R155) -/

/-- The source window's bytes, listed by their offsets in the layout. -/
theorem srcBytes_eq_map (o : Operands) (i n : Nat) :
    srcBytes o i n = (List.range' i n).map (fun j => o.ibuf.ibufByte (o.srcOff.toNat + j)) := by
  simp only [srcBytes, Memory.ibufBytes, List.range'_eq_map_range, List.map_map, Function.comp_def, Nat.add_assoc]

/-- Decoded slots always fit their bytes. -/
theorem slotFits_decodedFrf (frf : Vector Word 14) (l : Layout) (o : Operands) :
    ∀ p ∈ slotTable l, slotFits (decodedFrf frf l o) p := by
  intro p hp
  rw [slotFits, toNat_frfGet_decodedFrf frf l o hp]
  exact (le_lt _).trans_eq (by rw [srcBytes_length])

/-- The decoded slots encode to the header's bytes, its padding zeroed. -/
theorem encodeFields_decodedFrf (frf : Vector Word 14) (l : Layout) (o : Operands) :
    encodeFields l (decodedFrf frf l o) =
      (List.range (layoutSize l)).map
        (fun i => if coveredByte l i then o.ibuf.ibufByte (o.srcOff.toNat + i) else 0) := by
  refine encodeFields_eq_map fun p hp => ?_
  rw [toNat_frfGet_decodedFrf frf l o hp, ← srcBytes_eq_map]
  simpa only [srcBytes_length] using leBytes_le (srcBytes o p.2.1 p.2.2)

/-! ### The two commands -/

/-- HDR_DECODE succeeds on a window that lies in IBUF and holds the layout (R130). -/
theorem exec_hdrDecode_of_fits {s : State} {l : Layout} (hsrc : SrcFits s)
    (hlen : layoutSize l ≤ s.captured.srcLen.toNat) :
    exec (.hdrDecode (layoutNumber l)) s =
      .next (s.succeed { frf := decodeFields l (srcBytes s.captured 0 (layoutSize l)) }) := by
  have hpass : firstError (hdrDecodeChecks l s.captured s.ibufSize) = none := by
    rw [hdrDecodeChecks, (checkSrc_eq_none _ _).2 hsrc, (checkInput_eq_none _ _).2 hlen]
    rfl
  simp only [exec, execHdrDecode, layoutOfBits_layoutNumber, State.conclude_of_pass hpass]

/-- HDR_ENCODE succeeds when its window lies in OBUF, every slot fits and the budget holds the layout (R135). -/
theorem exec_hdrEncode_of_fits {s : State} {l : Layout} (hdst : DstFits s)
    (hfit : ∀ p ∈ slotTable l, slotFits s.captured.frf p) (hcap : layoutSize l ≤ s.captured.dstCap.toNat) :
    exec (.hdrEncode (layoutNumber l)) s = .next (s.succeed { obuf := encodeFields l s.captured.frf }) := by
  have hpass : firstError (hdrEncodeChecks l s.captured s.obufSize) = none := by
    rw [hdrEncodeChecks, (checkDst_eq_none _ _).2 hdst, checkFields_of_slotFits hfit,
      (checkOutput_eq_none _ _).2 hcap]
    rfl
  simp only [exec, execHdrEncode, layoutOfBits_layoutNumber, State.conclude_of_pass hpass]

/-- Settles O37: the decoded slots fit, so HDR_ENCODE succeeds, and what it writes is `encodeFields_decodedFrf`. -/
theorem headerRoundTrip : Obligations.HeaderRoundTrip := by
  intro s l n hcaptured hsrc hdst hlen hcap
  rw [layoutBytes_eq_layoutSize] at hlen hcap ⊢
  have hdecode := exec_hdrDecode_of_fits hsrc (hcaptured ▸ hlen)
  rw [hcaptured] at hdecode
  rw [DstFits, hcaptured] at hdst
  refine ⟨_, _, hdecode, exec_hdrEncode_of_fits hdst (slotFits_decodedFrf s.opr.frf l s.opr) hcap, rfl, ?_, ?_⟩
  · rw [State.succeed_outLen, encodeFields_length]
  · intro i hi
    have hwritten : i < (encodeFields l (decodedFrf s.opr.frf l s.opr)).length := by rwa [encodeFields_length]
    refine (Memory.obufByte_writeBytes_inside _ _ _ i hwritten).trans ?_
    simp only [encodeFields_decodedFrf, List.getElem_map, List.getElem_range]

/-! ### STI_CHECK (R150) -/

/-- A command whose first check fails reports that check's error; otherwise its other checks decide (R111). -/
theorem State.conclude_raiseIf_cons (s : State) (c : Bool) (e : Err) (cs : List (Option Err)) (w : Writes) :
    s.conclude (raiseIf c e :: cs) w = if c then s.ended 0 e.code e.info else s.conclude cs w := by
  cases c <;> rfl

/-- A command without checks or writes ends with success and OUT_LEN 0 (R105, R106). -/
theorem State.conclude_nil_empty (s : State) : s.conclude [] {} = s.ended 0 .none 0 := rfl

/-- Settles O41: STI_CHECK concludes with its five checks, each a link of the chain. -/
theorem stiCheckTestsInOrder : Obligations.StiCheckTestsInOrder := by
  rintro s f rfl
  have hexec : exec .stiCheck s = .next (s.conclude (stiChecks s.captured.frf) {}) := rfl
  simp only [hexec, stiChecks, State.conclude_raiseIf_cons, State.conclude_nil_empty, stiMagic, bne_iff_ne,
    beq_iff_eq, Bool.and_eq_true, Bool.not_eq_true', and_assoc]

end Sys2Proof.Machine
end

section
/-! SUPPORT. The colour converter (spec/42_color.md): what a valid mask is bit by bit (R161), Validate (R162, R163), one
channel unpacked and packed (R164, R165) and the bound of the round trip (R173), and the five commands. -/

namespace Sys2Proof.Machine

/-! ### Masks (R161) -/

/-- A channel that is present: its mask is `depth` contiguous ones from bit `k` up. -/
structure Channel.OnesAt (c : Channel) (k : Nat) : Prop where
  depth_pos : 0 < c.depth
  mask_eq : c.mask.toNat = (2 ^ c.depth - 1) * 2 ^ k

theorem maskAgrees_iff (c : Channel) :
    MaskAgrees c ↔ (c.depth = 0 ∧ c.mask = 0) ∨ ∃ k, c.OnesAt k := by
  refine or_congr_right ⟨?_, ?_⟩
  · rintro ⟨hpos, k, hmask⟩
    exact ⟨k, hpos, hmask⟩
  · rintro ⟨k, hpos, hmask⟩
    exact ⟨hpos, k, hmask⟩

section
variable {c : Channel} {k : Nat}

theorem Channel.OnesAt.getLsbD_mask (h : c.OnesAt k) (j : Nat) :
    c.mask.getLsbD j = (decide (k ≤ j) && decide (j - k < c.depth)) := by
  rw [← BitVec.testBit_toNat, h.mask_eq, Nat.testBit_mul_two_pow, Nat.testBit_two_pow_sub_one]

theorem Channel.OnesAt.getLsbD_mask_low (h : c.OnesAt k) : c.mask.getLsbD k = true := by
  simpa [h.getLsbD_mask] using h.depth_pos

/-- The ones lie in the word: its top one is a bit of it. -/
theorem Channel.OnesAt.add_depth_le (h : c.OnesAt k) : k + c.depth ≤ 32 := by
  have hpos := h.depth_pos
  have htop : c.mask.getLsbD (k + c.depth - 1) = true := by
    rw [h.getLsbD_mask, Bool.and_eq_true, decide_eq_true_eq, decide_eq_true_eq]
    omega
  have hlt := BitVec.lt_of_getLsbD htop
  omega

theorem Channel.OnesAt.mask_ne_zero (h : c.OnesAt k) : c.mask ≠ 0 := by
  intro hzero
  have hlow := h.getLsbD_mask_low
  simp [hzero] at hlow

/-- The position of the ones is the lowest set bit, so the mask determines it. -/
theorem Channel.OnesAt.tz_mask (h : c.OnesAt k) : tz c.mask = k := by
  have hfind : (List.range 32).find? (fun i => c.mask.getLsbD i) = some k := by
    rw [List.find?_range_eq_some]
    refine ⟨h.getLsbD_mask_low, List.mem_range.2 (BitVec.lt_of_getLsbD h.getLsbD_mask_low), fun j hj => ?_⟩
    simp [h.getLsbD_mask, Nat.not_le.2 hj]
  rw [tz, hfind, Option.getD_some]

end

/-- The check by the lowest set bit looks for the ones at that bit. -/
theorem maskOk_iff (c : Channel) : maskOk c = true ↔ (c.depth = 0 ∧ c.mask = 0) ∨ c.OnesAt (tz c.mask) := by
  simp only [maskOk, Bool.or_eq_true, Bool.and_eq_true, beq_iff_eq, bne_iff_ne, decide_eq_true_eq, and_assoc]
  refine or_congr_right ⟨?_, fun h => ⟨h.depth_pos, h.mask_ne_zero, h.mask_eq⟩⟩
  rintro ⟨hpos, -, hmask⟩
  exact ⟨hpos, hmask⟩

/-- Settles O42: the ones can only stand at the lowest set bit (`Channel.OnesAt.tz_mask`). -/
theorem maskCheckMeansContiguousOnes : Obligations.MaskCheckMeansContiguousOnes := by
  intro c
  rw [maskOk_iff, maskAgrees_iff]
  refine or_congr_right ⟨fun h => ⟨_, h⟩, ?_⟩
  rintro ⟨k, h⟩
  exact h.tz_mask.symm ▸ h

/-! ### Validate (R162, R163) -/

/-- A valid spec passes Validate. -/
theorem SpecValid.firstError_validate {c : ColorSpec} (h : SpecValid c) : firstError (validate c) = none := by
  have hr := (maskCheckMeansContiguousOnes c.r).2 h.r
  have hg := (maskCheckMeansContiguousOnes c.g).2 h.g
  have hb := (maskCheckMeansContiguousOnes c.b).2 h.b
  have ha := (maskCheckMeansContiguousOnes c.a).2 h.a
  simp [firstError_eq_none, validate, hr, hg, hb, ha, h.total_pos.ne', h.total_bytes, h.total_le, h.depths]

/-- Settles O43: CSPEC_VALIDATE concludes with Validate's six tests, and each clause follows their chain to its link. -/
theorem cspecValidateTestsInOrder : Obligations.CspecValidateTestsInOrder := by
  rintro s c rfl
  have hexec : exec .cspecValidate s = .next (s.conclude (validate (colorSpec s.captured)) {}) := rfl
  have hvalid (h : SpecValid (colorSpec s.captured)) : exec .cspecValidate s = .next (s.ended 0 .none 0) := by
    rw [hexec, State.conclude_of_pass h.firstError_validate, State.succeed_empty, State.ended]
  simp only [validate, State.conclude_raiseIf_cons, State.conclude_nil_empty] at hexec
  simp only [← maskCheckMeansContiguousOnes _] at hvalid ⊢
  refine ⟨fun hr => ?_, fun hr hg => ?_, fun hr hg hb => ?_, fun hr hg hb ha => ?_,
    fun hr hg hb ha => ⟨fun htotal => ?_, fun hpos hbytes hle hsum => ?_⟩, hvalid⟩
  · simp [hexec, hr]
  · simp [hexec, hr, hg]
  · simp [hexec, hr, hg, hb]
  · simp [hexec, hr, hg, hb, ha]
  · simp [hexec, hr, hg, hb, ha, htotal, or_assoc]
  · simp [hexec, hr, hg, hb, ha, hpos.ne', hbytes, hle, hsum]

/-! ### One channel unpacked (R164) -/

section
variable {c : Channel} {k : Nat}

@[simp] theorem unpackChannel_of_absent (raw : Word) (h : c.depth = 0) : unpackChannel raw c = 0 := if_pos h

/-- Floor division already gives 255 for a field of all ones. -/
theorem Channel.OnesAt.unpackChannel_eq (h : c.OnesAt k) (raw : Word) :
    unpackChannel raw c = (raw &&& c.mask).toNat / 2 ^ k * 255 / (2 ^ c.depth - 1) := by
  have hmax : 0 < 2 ^ c.depth - 1 := Nat.sub_pos_of_lt (Nat.one_lt_two_pow h.depth_pos.ne')
  simp only [unpackChannel, if_neg h.depth_pos.ne', h.tz_mask]
  split
  next hfull => rw [hfull, Nat.mul_div_cancel_left _ hmax]
  next => rfl

theorem Channel.OnesAt.field_le (h : c.OnesAt k) (raw : Word) :
    (raw &&& c.mask).toNat / 2 ^ k ≤ 2 ^ c.depth - 1 := by
  refine Nat.div_le_of_le_mul ?_
  rw [BitVec.toNat_and, Nat.mul_comm, ← h.mask_eq]
  exact Nat.and_le_right

end

/-- An unpacked channel of a valid spec is 0 to 255. -/
theorem unpackChannel_le {c : Channel} (h : MaskAgrees c) (raw : Word) : unpackChannel raw c ≤ 255 := by
  rcases (maskAgrees_iff c).1 h with ⟨hd, -⟩ | ⟨k, hones⟩
  · simp [hd]
  · rw [hones.unpackChannel_eq]
    exact Nat.div_le_of_le_mul (Nat.mul_le_mul_right 255 (hones.field_le raw))

theorem unpacks_unpackChannel {c : Channel} (h : MaskAgrees c) (raw : Word) :
    Unpacks raw c (unpackChannel raw c) := by
  rcases (maskAgrees_iff c).1 h with ⟨hd, -⟩ | ⟨k, hones⟩
  · exact .inl ⟨hd, unpackChannel_of_absent raw hd⟩
  · exact .inr ⟨hones.depth_pos, k, hones.mask_eq, hones.unpackChannel_eq raw⟩

/-- PIX_UNPACK of a valid spec succeeds (R168). -/
theorem exec_pixUnpack_of_valid {s : State} (h : SpecValid (colorSpec s.captured)) :
    exec .pixUnpack s =
      .next (s.succeed { comp := some (unpackedWords (colorSpec s.captured) s.captured.raw) }) := by
  simp only [exec, execPixUnpack, State.conclude_of_pass h.firstError_validate]

/-- Settles O45: PIX_UNPACK succeeds, and its four components are the unpacked channels. -/
theorem pixUnpackWritesTheComponents : Obligations.PixUnpackWritesTheComponents := fun _ h =>
  ⟨_, _, _, _, _, exec_pixUnpack_of_valid h, rfl,
    unpacks_unpackChannel h.r _, unpacks_unpackChannel h.g _, unpacks_unpackChannel h.b _, unpacks_unpackChannel h.a _,
    unpackChannel_le h.r _, unpackChannel_le h.g _, unpackChannel_le h.b _, unpackChannel_le h.a _⟩

/-! ### One channel packed (R165) -/

/-- A component brought to `d` bits (R165; tied to the model by `Channel.OnesAt.toNat_packChannel`). -/
def quantized (x d : Nat) : Nat := if d ≤ 8 then x / 2 ^ (8 - d) else x * 2 ^ (d - 8)

theorem quantized_lt {x : Nat} (hx : x ≤ 255) (d : Nat) : quantized x d < 2 ^ d := by
  unfold quantized
  split
  next hd =>
    have hpow : 2 ^ (8 - d) * 2 ^ d = 256 := by rw [← Nat.pow_add, Nat.sub_add_cancel hd]
    exact Nat.div_lt_of_lt_mul (by omega)
  next hd =>
    calc x * 2 ^ (d - 8)
        < 2 ^ 8 * 2 ^ (d - 8) := Nat.mul_lt_mul_of_pos_right (by omega) (Nat.two_pow_pos _)
      _ = 2 ^ d := by rw [← Nat.pow_add, Nat.add_sub_cancel' (by omega)]

@[simp] theorem quantized_zero (d : Nat) : quantized 0 d = 0 := by simp [quantized]

@[simp] theorem packChannel_of_absent (x : Nat) {c : Channel} (h : c.depth = 0) : packChannel x c = 0 :=
  if_pos (.inl h)

section
variable {c : Channel} {k x : Nat}

theorem Channel.OnesAt.toNat_packChannel (h : c.OnesAt k) (hx : x ≤ 255) :
    (packChannel x c).toNat = quantized x c.depth * 2 ^ k := by
  have hlt : quantized x c.depth * 2 ^ k < 2 ^ 32 :=
    calc quantized x c.depth * 2 ^ k
        < 2 ^ c.depth * 2 ^ k := Nat.mul_lt_mul_of_pos_right (quantized_lt hx _) (Nat.two_pow_pos _)
      _ = 2 ^ (c.depth + k) := (Nat.pow_add ..).symm
      _ ≤ 2 ^ 32 := Nat.pow_le_pow_right (by decide) (Nat.add_comm k _ ▸ h.add_depth_le)
  unfold packChannel
  split
  next hzero =>
    obtain rfl : x = 0 := hzero.resolve_left h.depth_pos.ne'
    simp
  next =>
    rw [h.tz_mask, BitVec.toNat_ofNat]
    exact Nat.mod_eq_of_lt hlt

/-- The packed channel's bits all lie under its mask. -/
theorem Channel.OnesAt.packChannel_and_mask (h : c.OnesAt k) (hx : x ≤ 255) :
    packChannel x c &&& c.mask = packChannel x c := by
  apply BitVec.eq_of_toNat_eq
  rw [BitVec.toNat_and, h.toNat_packChannel hx, h.mask_eq, ← Nat.shiftLeft_eq, ← Nat.shiftLeft_eq,
    ← Nat.shiftLeft_and_distrib, Nat.and_two_pow_sub_one_eq_mod, Nat.mod_eq_of_lt (quantized_lt hx _)]

end

theorem packChannel_and_mask {c : Channel} (h : MaskAgrees c) {x : Nat} (hx : x ≤ 255) :
    packChannel x c &&& c.mask = packChannel x c := by
  rcases (maskAgrees_iff c).1 h with ⟨hd, -⟩ | ⟨k, hones⟩
  · simp [hd]
  · exact hones.packChannel_and_mask hx

theorem packs_packChannel {c : Channel} (h : MaskAgrees c) {x : Nat} (hx : x ≤ 255) :
    Packs x c (packChannel x c) := by
  rcases (maskAgrees_iff c).1 h with ⟨hd, -⟩ | ⟨k, hones⟩
  · exact .inl ⟨hd, packChannel_of_absent x hd⟩
  · exact .inr ⟨hones.depth_pos, k, hones.mask_eq, hones.toNat_packChannel hx⟩

theorem checkComponent_eq_none (x k : Word) : checkComponent x k = none ↔ x.toNat ≤ 255 := by
  simp only [checkComponent, raiseIf_eq_none, decide_eq_false_iff_not, Nat.not_lt]

/-- PIX_PACK of a valid spec and components up to 255 succeeds (R169). -/
theorem exec_pixPack_of_valid {s : State} (h : SpecValid (colorSpec s.captured))
    (hr : s.captured.compR.toNat ≤ 255) (hg : s.captured.compG.toNat ≤ 255) (hb : s.captured.compB.toNat ≤ 255)
    (ha : s.captured.compA.toNat ≤ 255) :
    exec .pixPack s =
      .next (s.succeed { raw := some (packPixel (colorSpec s.captured) s.captured.compR.toNat
        s.captured.compG.toNat s.captured.compB.toNat s.captured.compA.toNat) }) := by
  have hpass : firstError (pixPackChecks s.captured) = none := by
    rw [pixPackChecks, firstError_append, h.firstError_validate, (checkComponent_eq_none _ _).2 hr,
      (checkComponent_eq_none _ _).2 hg, (checkComponent_eq_none _ _).2 hb, (checkComponent_eq_none _ _).2 ha]
    rfl
  simp only [exec, execPixPack, State.conclude_of_pass hpass]

/-- Settles O46: PIX_PACK succeeds, and RAW is the OR of the four packed channels. -/
theorem pixPackWritesThePixel : Obligations.PixPackWritesThePixel := fun _ h hr hg hb ha =>
  ⟨_, _, _, _, exec_pixPack_of_valid h hr hg hb ha,
    packs_packChannel h.r hr, packs_packChannel h.g hg, packs_packChannel h.b hb, packs_packChannel h.a ha,
    packChannel_and_mask h.r hr, packChannel_and_mask h.g hg, packChannel_and_mask h.b hb,
    packChannel_and_mask h.a ha⟩

/-! ### The round trip of a component (R173) -/

/-- The component that comes back from a channel deeper than 8 bits, whose depth's excess over 8 is the exponent of
`e`: scaled up and floored down again, it loses at most 1. -/
theorem deep_roundTrip {x e : Nat} (hx : x ≤ 255) (hpos : x ≠ 0) (he : 0 < e) :
    x * e * 255 / (256 * e - 1) = x - 1 ∨ x * e * 255 / (256 * e - 1) = x := by
  obtain ⟨y, rfl⟩ := Nat.exists_eq_add_one_of_ne_zero hpos
  have hscale : (256 * e - 1) * (y + 1) + (y + 1) = 256 * ((y + 1) * e) := by
    rw [Nat.sub_mul, Nat.one_mul, Nat.sub_add_cancel (Nat.le_mul_of_pos_left _ (by omega))]
    ring
  have hbig : y + 1 ≤ (y + 1) * e := Nat.le_mul_of_pos_right _ he
  have hsmall : (y + 1) * e ≤ 255 * e := Nat.mul_le_mul_right e hx
  have hupper : (y + 1) * e * 255 / (256 * e - 1) ≤ y + 1 := Nat.div_le_of_le_mul (by omega)
  have hlower : y ≤ (y + 1) * e * 255 / (256 * e - 1) := by
    rw [Nat.le_div_iff_mul_le (by omega), Nat.mul_comm]
    rw [Nat.mul_succ] at hscale
    omega
  omega

theorem roundTripBound_quantized {d x : Nat} (hd : 0 < d) (hx : x ≤ 255) :
    RoundTripBound d x (quantized x d * 255 / (2 ^ d - 1)) where
  absent h := absurd h hd.ne'
  shallow _ hle := by
    rw [quantized, if_pos (by omega)]
    interval_cases d <;> omega
  exact h := by
    subst h
    simp [quantized]
  deep hlt := by
    have hpow : 2 ^ d = 256 * 2 ^ (d - 8) := by
      rw [show 256 = 2 ^ 8 from rfl, ← Nat.pow_add, Nat.add_sub_cancel' hlt.le]
    rw [quantized, if_neg (Nat.not_le.2 hlt), hpow]
    exact ⟨fun h => by simp [h], fun h => deep_roundTrip hx h (Nat.two_pow_pos _)⟩

/-- The register holds the unpacked component as it is. -/
theorem toNat_ofNat_unpackChannel {c : Channel} (h : MaskAgrees c) (raw : Word) :
    (BitVec.ofNat 32 (unpackChannel raw c)).toNat = unpackChannel raw c := by
  have hle := unpackChannel_le h raw
  rw [BitVec.toNat_ofNat, Nat.mod_eq_of_lt (by omega)]

/-- A channel whose field in `raw` holds the packed component gives the component back within its bound. -/
theorem roundTripBound_of_field {c : Channel} (h : MaskAgrees c) {x : Nat} (hx : x ≤ 255) {raw : Word}
    (hraw : raw &&& c.mask = packChannel x c) :
    RoundTripBound c.depth x (BitVec.ofNat 32 (unpackChannel raw c)).toNat := by
  rw [toNat_ofNat_unpackChannel h]
  rcases (maskAgrees_iff c).1 h with ⟨hd, -⟩ | ⟨k, hones⟩
  · exact ⟨fun _ => unpackChannel_of_absent raw hd, by omega, by omega, by omega⟩
  · rw [hones.unpackChannel_eq, hraw, hones.toNat_packChannel hx, Nat.mul_div_cancel _ (Nat.two_pow_pos k)]
    exact roundTripBound_quantized hones.depth_pos hx

/-- A mask misses a word that lies under a mask it does not meet. -/
theorem and_eq_zero_of_disjoint {m n v : Word} (hv : v &&& n = v) (h : m &&& n = 0) : v &&& m = 0 := by
  rw [← hv, BitVec.and_assoc, BitVec.and_comm n m, h]
  exact BitVec.and_zero

/-- A mask that meets none of three others picks the word under it out of an OR with words under those. -/
theorem or_and_of_disjoint {raw w v₁ v₂ v₃ m n₁ n₂ n₃ : Word} (hraw : raw = w ||| (v₁ ||| v₂ ||| v₃))
    (hw : w &&& m = w) (h₁ : v₁ &&& n₁ = v₁) (h₂ : v₂ &&& n₂ = v₂) (h₃ : v₃ &&& n₃ = v₃)
    (hdisjoint : m &&& (n₁ ||| n₂ ||| n₃) = 0) : raw &&& m = w := by
  simp only [BitVec.and_or_distrib_left, BitVec.ofNat_eq_ofNat, BitVec.or_eq_zero_iff] at hdisjoint
  obtain ⟨⟨d₁, d₂⟩, d₃⟩ := hdisjoint
  simp [hraw, BitVec.and_or_distrib_right, hw, and_eq_zero_of_disjoint h₁ d₁, and_eq_zero_of_disjoint h₂ d₂,
    and_eq_zero_of_disjoint h₃ d₃]

/-- Settles O48: a channel that meets no other finds its own packed component in RAW, wherever it stands in the OR. -/
theorem packThenUnpackIsWithinTheBound : Obligations.PackThenUnpackIsWithinTheBound := by
  intro s n hcaptured hvalid hr hg hb ha
  have hpack := exec_pixPack_of_valid (s := s) (hcaptured ▸ hvalid) (hcaptured ▸ hr) (hcaptured ▸ hg)
    (hcaptured ▸ hb) (hcaptured ▸ ha)
  rw [hcaptured] at hpack
  have underR := packChannel_and_mask hvalid.r hr
  have underG := packChannel_and_mask hvalid.g hg
  have underB := packChannel_and_mask hvalid.b hb
  have underA := packChannel_and_mask hvalid.a ha
  refine ⟨_, _, hpack, exec_pixUnpack_of_valid hvalid, rfl,
    fun hR => roundTripBound_of_field hvalid.r hr (or_and_of_disjoint ?_ underR underG underB underA hR),
    fun hG => roundTripBound_of_field hvalid.g hg (or_and_of_disjoint ?_ underG underR underB underA hG),
    fun hB => roundTripBound_of_field hvalid.b hb (or_and_of_disjoint ?_ underB underR underG underA hB),
    fun hA => roundTripBound_of_field hvalid.a ha (or_and_of_disjoint ?_ underA underR underG underB hA)⟩
  all_goals
    change packPixel (colorSpec s.opr) _ _ _ _ = _
    unfold packPixel
    ac_rfl

/-! ### Pixels as bytes (R166, R167) -/

theorem le_append (a b : List Byte) : le (a ++ b) = le a + 256 ^ a.length * le b := by
  induction a with
  | nil => simp
  | cons x a ih =>
    rw [List.cons_append, le_cons, le_cons, ih, List.length_cons, Nat.pow_succ]
    ring

/-- Every case of R167 reads the little-endian number of the first four bytes at most. -/
theorem deserialize_eq_le {b : List Byte} {bpp : Nat} (hpos : 1 ≤ bpp) (hlen : b.length = bpp) :
    deserialize b bpp = BitVec.ofNat 32 (le (b.take (min bpp 4))) := by
  unfold deserialize
  split
  next h => rw [h]; rfl
  next =>
    split
    next h => rw [h]; rfl
    next =>
      split
      next h =>
        subst h
        have hsplit : b.take (min 3 4) = b.take 2 ++ (b.drop 2).take 1 := List.take_add (i := 2) (j := 1)
        have htwo : (b.take 2).length = 2 := List.length_take_of_le (by omega)
        rw [hsplit, le_append, htwo, Nat.mul_comm]
        rfl
      next => rw [Nat.min_eq_right (by omega)]

/-- The value of pixel `i` of the source window: the number of its first four bytes at most (R167; tied to PIX_DECODE by
`decodedPixel_eq`). -/
def sourcePixel (o : Operands) (bpp i : Nat) : Word :=
  BitVec.ofNat 32 (le (o.ibuf.ibufBytes (o.srcOff.toNat + i * bpp) (min bpp 4)))

theorem decodedPixel_eq (o : Operands) {bpp : Nat} (hpos : 1 ≤ bpp) (hbpp : bytesPerPixel (colorSpec o) = bpp)
    (i : Nat) : decodedPixel o i = rgbaBytes (colorSpec o) (sourcePixel o bpp i) := by
  have htake : (srcBytes o (i * bpp) bpp).take (min bpp 4) =
      o.ibuf.ibufBytes (o.srcOff.toNat + i * bpp) (min bpp 4) := by
    rw [srcBytes, Memory.ibufBytes, Memory.ibufBytes, ← List.map_take, List.take_range,
      Nat.min_eq_left (Nat.min_le_left _ _)]
  rw [decodedPixel, hbpp, deserialize_eq_le hpos (srcBytes_length ..), htake, sourcePixel]

/-- The low `n` bytes of a number depend on nothing above them. -/
theorem leBytes_mod (n v : Nat) : leBytes n (v % 256 ^ n) = leBytes n v := by
  simpa only [le_leBytes, leBytes_length] using leBytes_le (leBytes n v)

theorem leBytes_add (n m v : Nat) : leBytes (n + m) v = leBytes n v ++ leBytes m (v / 256 ^ n) := by
  induction n generalizing v with
  | zero => simp
  | succ n ih =>
    rw [Nat.succ_add, leBytes_succ, leBytes_succ, ih, List.cons_append, Nat.div_div_eq_div_mul, Nat.pow_succ']

theorem leBytes_of_zero (n : Nat) : leBytes n 0 = List.replicate n 0 := by
  induction n with
  | zero => rfl
  | succ n ih => exact congrArg (List.cons 0) ih

/-- Byte `j` of a word. -/
theorem extractLsb'_eq_ofNat (w : Word) (j : Nat) :
    w.extractLsb' (8 * j) 8 = BitVec.ofNat 8 (w.toNat / 256 ^ j) := by
  rw [BitVec.extractLsb', Nat.shiftRight_eq_div_pow, Nat.pow_mul]

/-- Every case of R166 writes the low `bpp` bytes of the value, which has no bytes past the fourth. -/
theorem serialize_eq_leBytes (raw : Word) {bpp : Nat} (hpos : 1 ≤ bpp) : serialize raw bpp = leBytes bpp raw.toNat := by
  have hlow : leBytes 2 (raw.extractLsb' 0 16).toNat = leBytes 2 raw.toNat := leBytes_mod 2 raw.toNat
  unfold serialize
  split
  next h => rw [h]; rfl
  next =>
    split
    next h => rw [h, hlow]
    next =>
      split
      next h =>
        rw [h, hlow, leBytes_add 2 1]
        exact congrArg (fun b => leBytes 2 raw.toNat ++ [b]) (extractLsb'_eq_ofNat raw 2)
      next =>
        have hnone : raw.toNat / 256 ^ 4 = 0 := Nat.div_eq_of_lt raw.isLt
        have hsplit := leBytes_add 4 (bpp - 4) raw.toNat
        rw [hnone, leBytes_of_zero, Nat.add_sub_cancel' (by omega)] at hsplit
        exact hsplit.symm

/-- Byte `j` of a serialised pixel is byte `j` of the value. -/
theorem serialize_getElem (raw : Word) {bpp j : Nat} (hpos : 1 ≤ bpp) (hj : j < (serialize raw bpp).length) :
    (serialize raw bpp)[j] = raw.extractLsb' (8 * j) 8 := by
  simp only [serialize_eq_leBytes raw hpos, leBytes_getElem, extractLsb'_eq_ofNat]

/-! ### The pixels of a stream (R171, R172) -/

/-- Part `i` of a list made of parts of equal length stands at `i` times that length. -/
theorem getElem?_flatMap_range {α : Type} {f : Nat → List α} {k n i j : Nat} (hf : ∀ i, (f i).length = k) (hi : i < n)
    (hj : j < k) : ((List.range n).flatMap f)[i * k + j]? = (f i)[j]? := by
  induction n with
  | zero => omega
  | succ n ih =>
    have hlen := length_flatMap_const f k n hf
    rw [List.range_succ, List.flatMap_append, List.flatMap_singleton]
    rcases Nat.lt_succ_iff_lt_or_eq.1 hi with hlt | rfl
    · have hend : (i + 1) * k ≤ n * k := Nat.mul_le_mul_right k hlt
      rw [Nat.succ_mul] at hend
      rw [List.getElem?_append_left (by omega), ih hlt]
    · rw [List.getElem?_append_right (by omega), hlen, Nat.add_sub_cancel_left]

/-- OBUF: byte `j` of part `i`, after parts of equal length are written one after the other. -/
theorem Memory.obufByte_writeBytes_flatMap (m : Memory) (off : Nat) {f : Nat → List Byte} {k n i j : Nat}
    (hf : ∀ i, (f i).length = k) (hi : i < n) (hj : j < (f i).length) :
    (m.writeBytes off ((List.range n).flatMap f)).obufByte (off + i * k + j) = (f i)[j] := by
  have hget := getElem?_flatMap_range hf hi (hf i ▸ hj)
  rw [List.getElem?_eq_getElem hj] at hget
  obtain ⟨hlt, hval⟩ := List.getElem?_eq_some_iff.1 hget
  rw [Nat.add_assoc, Memory.obufByte_writeBytes_inside m off _ _ hlt, hval]

/-- OBUF: part `i`, after parts of equal length are written one after the other. -/
theorem Memory.obufBytes_writeBytes_flatMap (m : Memory) (off : Nat) {f : Nat → List Byte} {k n i : Nat}
    (hf : ∀ i, (f i).length = k) (hi : i < n) :
    (m.writeBytes off ((List.range n).flatMap f)).obufBytes (off + i * k) k = f i := by
  apply List.ext_getElem
  · rw [Memory.obufBytes_length, hf]
  · intro j _ hj
    rw [Memory.obufBytes_getElem, Memory.obufByte_writeBytes_flatMap m off hf hi hj]

/-- A success that writes OBUF bytes alone. -/
theorem State.succeed_obuf_only (s : State) (bs : List Byte) :
    s.succeed { obuf := bs } =
      { s.ended (BitVec.ofNat 32 bs.length) .none 0 with obuf := s.obuf.writeBytes s.captured.dstOff.toNat bs } := rfl

/-- A success that writes OBUF bytes alone changes no OBUF byte outside them. -/
theorem State.sameOutside_succeed (s : State) (bs : List Byte) :
    SameOutside s (s.succeed { obuf := bs }) s.captured.dstOff.toNat bs.length :=
  fun a ha => Memory.obufByte_writeBytes_outside _ _ _ a ha

theorem bytesPerPixel_eq {c : ColorSpec} {bpp : Nat} (h : c.total = 8 * bpp) : bytesPerPixel c = bpp := by
  rw [bytesPerPixel, h, Nat.mul_div_cancel_left _ (by decide)]

/-- A pixel stream command passes its checks when the spec is valid, the windows fit and the bytes suffice. -/
theorem pixStreamChecks_pass {s : State} {input output : Nat} (h : SpecValid (colorSpec s.captured)) (hsrc : SrcFits s)
    (hdst : DstFits s) (hin : input ≤ s.captured.srcLen.toNat) (hout : output ≤ s.captured.dstCap.toNat) :
    firstError (pixStreamChecks s.captured s.ibufSize s.obufSize input output) = none := by
  rw [pixStreamChecks, windowChecks, (checkSrc_eq_none _ _).2 hsrc, (checkDst_eq_none _ _).2 hdst, firstError_append,
    firstError_append, h.firstError_validate, (checkInput_eq_none _ _).2 hin, (checkOutput_eq_none _ _).2 hout]
  rfl

/-- Settles O49: PIX_DECODE writes the decoded pixels one after the other, four bytes each. -/
theorem pixDecodeWritesThePixels : Obligations.PixDecodeWritesThePixels := by
  intro s bpp hvalid htotal hsrc hdst hin hout
  have hbpp := bytesPerPixel_eq htotal
  have hpos : 1 ≤ bpp := hbpp ▸ (validate_bytesPerPixel hvalid.firstError_validate).1
  have hpass := pixStreamChecks_pass hvalid hsrc hdst hin hout
  have hexec : exec .pixDecode s = .next (s.succeed
      { obuf := (List.range s.captured.pixCount.toNat).flatMap (decodedPixel s.captured) }) := by
    simp only [exec, execPixDecode, hbpp, hpass]
  have hlen := decodedPixels_length s.captured s.captured.pixCount.toNat
  refine ⟨_, hexec, ?_, fun i hi => ?_, ?_⟩
  · rw [State.succeed_obuf_only, hlen]
  · have hpixel := decodedPixel_eq s.captured hpos hbpp i
    generalize hvalue : sourcePixel s.captured bpp i = value at hpixel
    refine ⟨unpackChannel value _, unpackChannel value _, unpackChannel value _, unpackChannel value _, ?_,
      unpackChannel_le hvalid.r _, unpackChannel_le hvalid.g _, unpackChannel_le hvalid.b _,
      unpackChannel_le hvalid.a _, fun raw hraw => ?_⟩
    · rw [Nat.mul_comm 4 i]
      exact (Memory.obufBytes_writeBytes_flatMap _ _ (decodedPixel_length _) hi).trans hpixel
    · obtain rfl : raw = value := hraw.trans hvalue
      exact ⟨unpacks_unpackChannel hvalid.r _, unpacks_unpackChannel hvalid.g _, unpacks_unpackChannel hvalid.b _,
        unpacks_unpackChannel hvalid.a _⟩
  · rw [← hlen]
    exact s.sameOutside_succeed _

/-- Settles O50: PIX_ENCODE writes the encoded pixels one after the other, `bpp` bytes each. -/
theorem pixEncodeWritesThePixels : Obligations.PixEncodeWritesThePixels := by
  intro s bpp hvalid htotal hsrc hdst hin hout
  have hbpp := bytesPerPixel_eq htotal
  have hpos : 1 ≤ bpp := hbpp ▸ (validate_bytesPerPixel hvalid.firstError_validate).1
  have hpass := pixStreamChecks_pass hvalid hsrc hdst hin hout
  have hexec : exec .pixEncode s = .next (s.succeed
      { obuf := (List.range s.captured.pixCount.toNat).flatMap (encodedPixel s.captured) }) := by
    simp only [exec, execPixEncode, hbpp, hpass]
  have hpixlen (i : Nat) : (encodedPixel s.captured i).length = bpp := by
    rw [encodedPixel_length _ _ (hbpp ▸ hpos), hbpp]
  have hlen := length_flatMap_const (encodedPixel s.captured) bpp s.captured.pixCount.toNat hpixlen
  have hbyte (a : Nat) : (s.captured.ibuf.ibufByte a).toNat ≤ 255 := Nat.le_of_lt_succ (BitVec.isLt _)
  refine ⟨_, hexec, ?_, fun i hi => ⟨_, _, _, _, packs_packChannel hvalid.r (hbyte _),
    packs_packChannel hvalid.g (hbyte _), packs_packChannel hvalid.b (hbyte _), packs_packChannel hvalid.a (hbyte _),
    fun j hj => ?_⟩, ?_⟩
  · rw [State.succeed_obuf_only, hlen]
  · have hj' : j < (encodedPixel s.captured i).length := (hpixlen i).symm ▸ hj
    refine (Memory.obufByte_writeBytes_flatMap _ _ hpixlen hi hj').trans ?_
    exact serialize_getElem _ (hbpp ▸ hpos) hj'
  · rw [← hlen]
    exact s.sameOutside_succeed _

end Sys2Proof.Machine
end

section
/-! SUPPORT. CTRL writes (spec/70_reset_and_hazards.md R261, R270): SRST chooses between a soft reset and a write of
IE. -/

namespace Sys2Proof.Machine

/-- A soft reset discards the written IE (spec/10_state.md R25). -/
theorem State.putCtrl_of_srst (s : State) {v : Word} (h : v.getLsbD 1 = true) : s.putCtrl v = s.softReset :=
  if_pos h

theorem State.putCtrl_of_not_srst (s : State) {v : Word} (h : v.getLsbD 1 = false) : s.putCtrl v = s.setIe v :=
  if_neg (Bool.eq_false_iff.1 h)

/-- The register map places CTRL at 0x008 (spec/10_state.md R21). -/
theorem State.hostWrite_ctrl (s : State) (v : Word) : s.hostWrite 0x0000008#26 (.d32 v) = s.putCtrl v :=
  s.hostWrite_register (off := 0x008) (r := .ctrl) (by decide) v

/-- Settles O24: a write at CTRL's address is a CTRL write, which SRST makes a soft reset (R260's reset values
around the standing buffers) or an ordinary write of IE. -/
theorem softResetGivesTheResetValues : Obligations.SoftResetGivesTheResetValues := by
  intro s v
  rw [s.hostWrite_ctrl v]
  constructor
  · intro hordinary
    rw [s.putCtrl_of_not_srst hordinary, State.setIe]
  · intro hreset
    rw [s.putCtrl_of_srst hreset, State.softReset, Operands.reset]

end Sys2Proof.Machine
end

section
/-! SUPPORT. Command words (spec/30_encoding.md): the fields of a word put in their places and read back (R80, R81),
decoding and encoding as inverses (R82, R83), illegal words (R84) and the assembler (R92). -/

namespace Sys2Proof

/-! ### The fields of a word -/

@[simp] theorem cmdLayout_cmdWord (opc : BitVec 8) (layout : BitVec 4) (fidx : BitVec 5) (fval : Bool) :
    cmdLayout (cmdWord opc layout fidx fval) = layout := by
  ext k hk
  simp [cmdLayout, cmdWord, show 8 + k < 32 by omega, show 8 + k < 16 by omega, show 8 + k < 24 by omega,
    BitVec.getLsbD_eq_getElem hk]

@[simp] theorem cmdFidx_cmdWord (opc : BitVec 8) (layout : BitVec 4) (fidx : BitVec 5) (fval : Bool) :
    cmdFidx (cmdWord opc layout fidx fval) = fidx := by
  ext k hk
  have hopc : opc.getLsbD (16 + k) = false := BitVec.getLsbD_of_ge _ _ (by omega)
  have hlayout : layout.getLsbD (16 + k - 8) = false := BitVec.getLsbD_of_ge _ _ (by omega)
  simp [cmdFidx, cmdWord, hopc, hlayout, show 16 + k < 32 by omega, show 16 + k < 24 by omega,
    BitVec.getLsbD_eq_getElem hk]

@[simp] theorem cmdFval_cmdWord (opc : BitVec 8) (layout : BitVec 4) (fidx : BitVec 5) (fval : Bool) :
    cmdFval (cmdWord opc layout fidx fval) = fval := by
  simp [cmdFval, cmdWord]

/-- A field cut out of a word and put back in its place is the word under the field's mask. -/
theorem extractLsb'_shiftLeft_eq_and (w : Word) (k n : Nat) :
    (w.extractLsb' k n).zeroExtend 32 <<< k = w &&& ((BitVec.allOnes n).zeroExtend 32 <<< k) := by
  ext j hj
  by_cases hlow : j < k
  · simp [hlow]
  · simp [hlow, hj, show k + (j - k) = j by omega, Bool.and_comm]

/-- A bit read from a word and put back in its place is the word under that bit. -/
theorem ofBool_shiftLeft_eq_and (w : Word) (k : Nat) :
    (BitVec.ofBool (w.getLsbD k)).zeroExtend 32 <<< k = w &&& (1#32 <<< k) := by
  have hbit : BitVec.ofBool (w.getLsbD k) = w.extractLsb' k 1 := by
    ext j hj
    simp [show j = 0 by omega]
  rw [hbit, extractLsb'_shiftLeft_eq_and]
  rfl

/-! ### Decode and encode -/

/-- Every command's word matches the row of the command's opcode. -/
theorem encode_matches_row (i : Instr) : ∃ r ∈ opcodeTable, r.op = i.opcode ∧ encode i &&& r.mask = r.pattern := by
  cases i with
  | hdrDecode layout => exact Laws.TableRow.hdrDecode layout
  | hdrEncode layout => exact Laws.TableRow.hdrEncode layout
  | flagGet layout fidx => exact Laws.TableRow.flagGet layout fidx
  | flagPut layout fidx fval => exact Laws.TableRow.flagPut layout fidx fval
  | stiCheck => exact Laws.TableRow.stiCheck
  | cspecValidate => exact Laws.TableRow.cspecValidate
  | pixUnpack => exact Laws.TableRow.pixUnpack
  | pixPack => exact Laws.TableRow.pixPack
  | pixDecode => exact Laws.TableRow.pixDecode
  | pixEncode => exact Laws.TableRow.pixEncode
  | etrleCompress => exact Laws.TableRow.etrleCompress
  | etrleDecompress => exact Laws.TableRow.etrleDecompress

/-- The fields of a command's word are its operands. -/
theorem buildInstr_encode (i : Instr) : buildInstr i.opcode (encode i) = i := by
  cases i <;> simp [Instr.opcode, buildInstr, encode]

/-- Settles O2: a command's word matches its row, and the row's fields are the command's operands. -/
theorem decodeOfEncodeIsTheCommand : Obligations.DecodeOfEncodeIsTheCommand := by
  intro i
  obtain ⟨r, hr, hop, hmatch⟩ := encode_matches_row i
  rw [decode_of_match hr hmatch, hop, buildInstr_encode]

/-- What a row's command encodes to: the row's pattern, and the word's bits where the row leaves them free. -/
theorem encode_buildInstr (w : Word) :
    ∀ r ∈ opcodeTable, encode (buildInstr r.op w) = r.pattern ||| (w &&& ~~~r.mask) := by
  have hlayout := extractLsb'_shiftLeft_eq_and w 8 4
  have hfidx := extractLsb'_shiftLeft_eq_and w 16 5
  have hfval := ofBool_shiftLeft_eq_and w 24
  simp only [opcodeTable, List.forall_mem_cons, List.not_mem_nil, false_implies, implies_true, and_true, buildInstr,
    encode, cmdWord, cmdLayout, cmdFidx, cmdFval, hlayout, hfidx, hfval]
  simp [BitVec.or_assoc, ← BitVec.and_or_distrib_left]

/-- Settles O3: a word is its row's pattern under the row's mask, and its command's operands elsewhere. -/
theorem encodeOfDecodeIsTheWord : Obligations.EncodeOfDecodeIsTheWord := by
  intro w i h
  obtain ⟨r, hr, hmatch, rfl⟩ := decode_eq_ok_iff.1 h
  rw [encode_buildInstr w r hr, ← hmatch, ← BitVec.and_or_distrib_left, BitVec.or_not_self, BitVec.and_allOnes]

/-- Settles O1: each word is the encoding of its command. -/
theorem specWordsDecode : Obligations.SpecWordsDecode :=
  have hdecode := decodeOfEncodeIsTheCommand
  ⟨hdecode (.hdrDecode 0), hdecode (.hdrEncode 3), hdecode (.flagGet 4 5), hdecode (.flagPut 4 3 true),
    hdecode .stiCheck, hdecode .cspecValidate, hdecode .pixDecode, hdecode .etrleDecompress⟩

/-! ### Words that are no command (R84) -/

/-- A word whose OPC is no row's is no command (R84, cause 0). -/
theorem decode_of_unknownOpcode {w : Word} (h : ∀ r ∈ opcodeTable, r.pattern.extractLsb' 0 8 ≠ cmdOpc w) :
    decode w = .error .unknownOpcode := by
  have hnone : opcodeTable.find? (fun r => r.pattern.extractLsb' 0 8 == cmdOpc w) = none := by
    simpa only [List.find?_eq_none, beq_iff_eq] using h
  simp only [decode, hnone]

/-- A word that has a row's OPC and does not match the row is no command (R84, cause 1). -/
theorem decode_of_fieldNotZero {r : OpcodeRow} (hr : r ∈ opcodeTable) {w : Word}
    (hopc : cmdOpc w = r.pattern.extractLsb' 0 8) (h : w &&& r.mask ≠ r.pattern) :
    decode w = .error .fieldNotZero := by
  simp only [decode, hopc, opcodeTable_find?_opc r hr, if_neg h]

/-- The numbers of the twelve opcodes (R82). -/
theorem opcodeTable_opcs : opcodeTable.map (fun r => (r.pattern.extractLsb' 0 8).toNat) =
    [0x01, 0x02, 0x03, 0x04, 0x05, 0x10, 0x11, 0x12, 0x13, 0x14, 0x20, 0x21] := by decide

/-- A row's pattern holds its OPC and zeros above it. -/
theorem opcodeTable_pattern_high : ∀ r ∈ opcodeTable, r.pattern &&& 0xFFFFFF00#32 = 0 := by decide

/-- A word that has a row's OPC and a bit above OPC that the row's mask wants 0 is no command. -/
theorem decode_of_highBits {r : OpcodeRow} (hr : r ∈ opcodeTable) {w : Word}
    (hopc : (w.extractLsb' 0 8).toNat = (r.pattern.extractLsb' 0 8).toNat) (h : w &&& (r.mask &&& 0xFFFFFF00#32) ≠ 0) :
    decode w = .error .fieldNotZero := by
  refine decode_of_fieldNotZero hr (BitVec.eq_of_toNat_eq hopc) fun hmatch => h ?_
  rw [← BitVec.and_assoc, hmatch]
  exact opcodeTable_pattern_high r hr

end Sys2Proof

namespace Sys2Proof.Machine

theorem step_of_due {s : State} {w : Word} {i : Instr} (hdue : s.dueWord = some w) (hdecode : decode w = .ok i) :
    step s = exec i s := by
  simp only [step, hdue, hdecode]

theorem step_of_no_command {s : State} {w : Word} {e : DecodeError} (hdue : s.dueWord = some w)
    (hdecode : decode w = .error e) : step s = .next (s.ended 0 (illegalWord e).code (illegalWord e).info) := by
  simp only [step, hdue, hdecode, State.reject, State.fail_eq_ended]

/-- LAYOUT 5 to 15 names no layout (R85). -/
theorem layoutOfBits_of_not_wellFormed {layout : BitVec 4} (h : layoutWellFormed layout = false) :
    layoutOfBits layout = none := by
  revert layout
  decide

/-- A command of LAYOUT 5 to 15 fails with ILLEGAL_COMMAND (R84, cause 2). -/
theorem exec_of_not_wellFormed {i : Instr} (h : i.wellFormed = false) (s : State) :
    exec i s = .next (s.ended 0 .illegalCommand 2) := by
  cases i with
  | hdrDecode | hdrEncode | flagGet | flagPut =>
    simp [exec, execHdrDecode, execHdrEncode, execFlagGet, execFlagPut, layoutOfBits_of_not_wellFormed h,
      State.fail_eq_ended, illegalLayout]
  | _ => cases h

/-- Settles O5: the word has no row's OPC, or misses the row of its OPC, or its command rejects its LAYOUT. -/
theorem illegalWordsReportTheirCause : Obligations.IllegalWordsReportTheirCause := by
  intro s w hdue
  refine ⟨fun hopc => ?_, fun hfield => ?_, fun hmatch hlayout => ?_⟩
  · refine step_of_no_command hdue (decode_of_unknownOpcode fun r hr heq => hopc ?_)
    rw [← opcodeTable_opcs, ← cmdOpc, ← heq]
    exact List.mem_map_of_mem hr
  · refine step_of_no_command hdue (e := .fieldNotZero) ?_
    have row (n : Fin 12) := decode_of_highBits (opcodeTable.get_mem n) (w := w)
    simp only [List.mem_cons, List.not_mem_nil, or_false] at hfield
    rcases hfield with ⟨h | h, hbits⟩ | ⟨h, hbits⟩ | ⟨h, hbits⟩ | ⟨h | h | h | h | h | h | h | h, hbits⟩
    · exact row 0 h hbits
    · exact row 1 h hbits
    · exact row 2 h hbits
    · exact row 3 h hbits
    · exact row 4 h hbits
    · exact row 5 h hbits
    · exact row 6 h hbits
    · exact row 7 h hbits
    · exact row 8 h hbits
    · exact row 9 h hbits
    · exact row 10 h hbits
    · exact row 11 h hbits
  · have hillegal : layoutWellFormed (cmdLayout w) = false := decide_eq_false (Nat.not_lt.2 hlayout)
    have row (n : Fin 12) (h : w &&& (opcodeTable.get n).mask = (opcodeTable.get n).pattern) :=
      step_of_due hdue (decode_of_match (opcodeTable.get_mem n) h)
    rcases hmatch with h | h | h | h
    · exact (row 0 h).trans (exec_of_not_wellFormed (i := .hdrDecode _) hillegal s)
    · exact (row 1 h).trans (exec_of_not_wellFormed (i := .hdrEncode _) hillegal s)
    · exact (row 2 h).trans (exec_of_not_wellFormed (i := .flagGet _ _) hillegal s)
    · exact (row 3 h).trans (exec_of_not_wellFormed (i := .flagPut _ _ _) hillegal s)

/-- Settles O7: `withFetchWord` starts the table's word with nothing left to wait for. -/
theorem stepRunsTheDueCommand : Obligations.StepRunsTheDueCommand := by
  refine ⟨fun s w i => step_of_due, fun s => step_of_not_due, fun s nbits w i h => ?_⟩
  refine step_of_due (w := tableWord nbits w) rfl ?_
  rw [decodeTableWord] at h
  cases hdecode : decode (tableWord nbits w) with
  | ok j =>
    rw [hdecode] at h
    exact congrArg Except.ok (Option.some.inj h)
  | error e =>
    rw [hdecode] at h
    cases h

/-! ### The assembler (R92) -/

/-- The sum of R92 is the word whose fields stand in their places. -/
theorem ofNat_fields_eq_cmdWord (opc : BitVec 8) (layout : BitVec 4) (fidx : BitVec 5) (fval : Bool) :
    BitVec.ofNat 32 (opc.toNat ||| layout.toNat * 2 ^ 8 ||| fidx.toNat * 2 ^ 16 ||| fval.toNat * 2 ^ 24) =
      cmdWord opc layout fidx fval := by
  apply BitVec.eq_of_toNat_eq
  simp [cmdWord, Nat.shiftLeft_eq]

/-- Settles O6: with its operands as numbers a command assembles to the sum of its fields, and the fixed texts and
names are evaluated. -/
theorem assemblerAgreesWithEncoder : Obligations.AssemblerAgreesWithEncoder := by
  have word (opc layout fidx fval) := congrArg some (ofNat_fields_eq_cmdWord opc layout fidx fval)
  exact ⟨fun l => word 0x01 l 0 false, fun l => word 0x02 l 0 false, fun l i => word 0x03 l i false,
    fun l i v => word 0x04 l i v, rfl, rfl, rfl, rfl, rfl, rfl, rfl, rfl, rfl, by decide, by decide⟩

end Sys2Proof.Machine
end

section
/-! SUPPORT. Steps (spec/60_exceptions.md R241): the invariant that every step keeps, what the environment can do to a
running command (spec/40_command.md R103, spec/70_reset_and_hazards.md R270 to R272), and its completion (R104,
R105). -/

namespace Sys2Proof.Machine

/-- Settles O8: each of the three kinds of step has a next state. -/
theorem everyStepHasANextState : Obligations.EveryStepHasANextState := by
  intro s
  rcases step_cases s with ⟨-, h⟩ | ⟨-, e, -, h⟩ | ⟨-, w, -, h⟩
  · exact ⟨_, h⟩
  · exact ⟨_, h⟩
  · exact ⟨_, h⟩

/-- The three kinds of step, by the state they lead to. -/
theorem next_of_step {s t : State} (h : step s = .next t) :
    (s.dueWord = none ∧ t = s.envStep) ∨ (∃ e, t = s.fail e) ∨ ∃ w, Fits s w ∧ t = s.succeed w := by
  rcases step_cases s with ⟨hdue, henv⟩ | ⟨-, e, -, hfail⟩ | ⟨-, w, hfit, hok⟩
  · exact .inl ⟨hdue, Host.Outcome.next.inj (h.symm.trans henv)⟩
  · exact .inr (.inl ⟨e, Host.Outcome.next.inj (h.symm.trans hfail)⟩)
  · exact .inr (.inr ⟨w, hfit, Host.Outcome.next.inj (h.symm.trans hok)⟩)

/-! ### The invariant -/

section
variable {s t : State}

/-- Where no command runs, the invariant speaks of the buffers and of OUT_LEN only. -/
theorem State.Inv.of_idle (hidle : t.engine = none)
    (hibufSize : legalSize t.ibufSize = true) (hobufSize : legalSize t.obufSize = true)
    (hibuf : t.opr.ibuf.wf = true ∧ t.opr.ibuf.within t.ibufSize.toNat = true)
    (hobuf : t.obuf.wf = true ∧ t.obuf.within t.obufSize.toNat = true)
    (hfailed : t.errcode ≠ .none → t.outLen = 0) (houtLen : t.outLen.toNat ≤ t.obufSize.toNat) : t.Inv where
  ibufSize_legal := hibufSize
  obufSize_legal := hobufSize
  ibuf_wf := hibuf.1
  ibuf_within := hibuf.2
  obuf_wf := hobuf.1
  obuf_within := hobuf.2
  running_word f hf := by rw [hidle] at hf; cases hf
  running_operands f hf := by rw [hidle] at hf; cases hf
  running_done hb := by rw [State.idle_iff.2 hidle] at hb; cases hb
  running_errcode hb := by rw [State.idle_iff.2 hidle] at hb; cases hb
  failed_outLen := hfailed
  outLen_fits := houtLen

theorem State.Inv.ibuf (h : s.Inv) : s.opr.ibuf.wf = true ∧ s.opr.ibuf.within s.ibufSize.toNat = true :=
  ⟨h.ibuf_wf, h.ibuf_within⟩

theorem State.Inv.obuf (h : s.Inv) : s.obuf.wf = true ∧ s.obuf.within s.obufSize.toNat = true :=
  ⟨h.obuf_wf, h.obuf_within⟩

theorem State.inv_poweredOn {ib ob : Word} (hib : legalSize ib = true) (hob : legalSize ob = true) (p : Nat) :
    (State.poweredOn ib ob p).Inv :=
  .of_idle rfl hib hob ⟨rfl, rfl⟩ ⟨rfl, rfl⟩ (fun _ => rfl) (Nat.zero_le _)

/-- Settles O9: State.reset is a power-on state of legal sizes. -/
theorem powerOnStatesAreGood : Obligations.PowerOnStatesAreGood :=
  ⟨fun _ _ p hib hob => State.inv_poweredOn hib hob p, State.inv_poweredOn (by decide) (by decide) 0⟩

/-! ### Completions and resets keep the invariant -/

theorem State.Inv.fail (h : s.Inv) (e : Err) : (s.fail e).Inv :=
  .of_idle rfl h.ibufSize_legal h.obufSize_legal h.ibuf h.obuf (fun _ => rfl) (Nat.zero_le _)

/-- A success whose output fits its window keeps OBUF and OUT_LEN inside the buffer. -/
theorem State.Inv.succeed (h : s.Inv) {w : Writes} (hfit : Fits s w) : (s.succeed w).Inv := by
  have hwithin : (s.obuf.writeBytes s.captured.dstOff.toNat w.obuf).within s.obufSize.toNat = true := by
    rcases hfit with hnil | ⟨hwindow, hlen⟩
    · rw [hnil]
      exact h.obuf_within
    · exact Memory.within_writeBytes h.obuf_within _ _ (by omega)
  have hlen : w.obuf.length ≤ s.obufSize.toNat := by
    rcases hfit with hnil | ⟨hwindow, hlen⟩
    · simp [hnil]
    · omega
  refine .of_idle rfl h.ibufSize_legal h.obufSize_legal h.ibuf ⟨Memory.wf_writeBytes h.obuf_wf _ _, hwithin⟩
    (fun hne => absurd rfl hne) ?_
  rw [State.succeed_outLen, BitVec.toNat_ofNat]
  exact (Nat.mod_le _ _).trans hlen

theorem State.Inv.softReset (h : s.Inv) : s.softReset.Inv :=
  .of_idle rfl h.ibufSize_legal h.obufSize_legal h.ibuf h.obuf (fun _ => rfl) (Nat.zero_le _)

theorem State.Inv.powerOn (h : s.Inv) : s.powerOn.Inv :=
  .of_idle rfl h.ibufSize_legal h.obufSize_legal ⟨rfl, rfl⟩ ⟨rfl, rfl⟩ (fun _ => rfl) (Nat.zero_le _)

/-! ### Host writes keep the invariant -/

/-- The command that a CMD write starts is the one in CMD, with the operands as they stand (R101). -/
theorem State.Inv.start (h : s.Inv) (w : Word) (n : Nat) : (s.start w n).drawLatency.Inv :=
  { h with
    running_word := by rintro _ ⟨⟩; rfl
    running_operands := by rintro _ ⟨⟩; rfl
    running_done := fun _ => rfl
    running_errcode := fun _ => rfl
    failed_outLen := fun hne => absurd rfl hne }

theorem State.Inv.hostEffect (h : s.Inv) (he : HostEffect s t) : t.Inv := by
  cases he with
  | nothing => exact h
  | softReset => exact h.softReset
  | setIe v => exact { h with }
  | ackStatus v =>
    exact { h with running_done := fun hb => by rw [State.ackStatus_done, h.running_done hb, Bool.false_and] }
  | lost hb => exact { h with }
  | start hidle w => exact h.start w _
  | operands hidle o hkeeps =>
    exact .of_idle (State.idle_iff.1 hidle) h.ibufSize_legal h.obufSize_legal (hkeeps ▸ h.ibuf) h.obuf h.failed_outLen
      h.outLen_fits
  | ibuf hidle off bs hfits =>
    exact .of_idle (State.idle_iff.1 hidle) h.ibufSize_legal h.obufSize_legal
      ⟨Memory.wf_writeBytes h.ibuf_wf _ _, Memory.within_writeBytes h.ibuf_within _ _ hfits⟩ h.obuf h.failed_outLen
      h.outLen_fits
  | obuf hidle off bs hfits =>
    exact .of_idle (State.idle_iff.1 hidle) h.ibufSize_legal h.obufSize_legal h.ibuf
      ⟨Memory.wf_writeBytes h.obuf_wf _ _, Memory.within_writeBytes h.obuf_within _ _ hfits⟩ h.failed_outLen
      h.outLen_fits

/-! ### The environment's step keeps the invariant -/

theorem State.Inv.envOp (h : s.Inv) (op : EnvOp) : (s.envOp op).Inv := by
  cases op with
  | read a w => exact { h with }
  | write a d => exact h.hostEffect (hostWrite_effect s a d)
  | idle => exact h
  | powerOnReset => exact h.powerOn

theorem State.Inv.tick (h : s.Inv) : s.tick.Inv := by
  cases hf : s.engine with
  | none => exact (State.tick_of_idle hf).symm ▸ h
  | some f =>
    rw [State.tick_of_running hf]
    have hb : s.busy = true := State.busy_iff.2 ⟨f, hf⟩
    exact
      { h with
        running_word := by rintro _ ⟨⟩; exact h.running_word f hf
        running_operands := by rintro _ ⟨⟩; exact h.running_operands f hf
        running_done := fun _ => h.running_done hb
        running_errcode := fun _ => h.running_errcode hb }

theorem State.Inv.envStep (h : s.Inv) : s.envStep.Inv := by
  cases henv : s.env with
  | nil => exact (State.envStep_of_nil henv).symm ▸ h.tick
  | cons op rest =>
    rw [State.envStep_of_cons henv]
    have htaken : State.Inv { s.tick with env := rest } := { h.tick with }
    exact htaken.envOp op

end

/-- Settles O10: the environment's step and both kinds of completion keep the invariant. -/
theorem everyStepKeepsTheInvariant : Obligations.EveryStepKeepsTheInvariant := by
  intro s t h hstep
  rcases next_of_step hstep with ⟨-, rfl⟩ | ⟨e, rfl⟩ | ⟨w, hfit, rfl⟩
  · exact h.envStep
  · exact h.fail e
  · exact h.succeed hfit

/-! ### The start of a command (R101) -/

/-- Settles O11: the register map places CMD at 0x010, and a CMD write to an idle block starts the command. -/
theorem cmdWriteStartsTheCommand : Obligations.CmdWriteStartsTheCommand := by
  intro s w hidle
  have hstart : s.hostWrite 0x0000010#26 (.d32 w) = (s.start w s.nextLatency).drawLatency :=
    (s.hostWrite_register (off := 0x010) (r := .cmd) (by decide) w).trans (State.putCmd_of_idle hidle w)
  rw [hstart]
  exact ⟨s.nextLatency, s.started + 1, s.latencies.tail, rfl, rfl, Bool.and_false s.ie⟩

/-! ### A running command and its environment (R103, R270 to R272) -/

/-- What a running command's environment leaves alone: everything the host can read but IE, WLOST and a DONE that is
set. -/
structure Undisturbed (s t : State) : Prop where
  cmd : t.cmd = s.cmd
  opr : t.opr = s.opr
  obuf : t.obuf = s.obuf
  errcode : t.errcode = s.errcode
  errinfo : t.errinfo = s.errinfo
  outLen : t.outLen = s.outLen
  flagres : t.flagres = s.flagres
  lines : t.lines = s.lines
  unterm : t.unterm = s.unterm
  lenmis : t.lenmis = s.lenmis
  ibufSize : t.ibufSize = s.ibufSize
  obufSize : t.obufSize = s.obufSize
  done : s.done = false → t.done = false

section
variable {s t : State}

theorem Undisturbed.refl (s : State) : Undisturbed s s :=
  ⟨rfl, rfl, rfl, rfl, rfl, rfl, rfl, rfl, rfl, rfl, rfl, rfl, id⟩

/-- A host write either aborts the running command or leaves it undisturbed. -/
theorem HostEffect.aborts_or_undisturbed (he : HostEffect s t) (hb : s.busy = true) :
    t.engine = none ∨ (t.engine = s.engine ∧ Undisturbed s t) := by
  cases he with
  | nothing => exact .inr ⟨rfl, .refl s⟩
  | softReset => exact .inl rfl
  | setIe v => exact .inr ⟨rfl, { Undisturbed.refl s with }⟩
  | ackStatus v =>
    exact .inr ⟨rfl, { Undisturbed.refl s with done := fun h => by rw [State.ackStatus_done, h, Bool.false_and] }⟩
  | lost => exact .inr ⟨rfl, { Undisturbed.refl s with }⟩
  | start hidle | operands hidle | ibuf hidle | obuf hidle =>
    rw [hb] at hidle
    cases hidle

theorem State.envOp_aborts_or_undisturbed (hb : s.busy = true) (op : EnvOp) :
    (s.envOp op).engine = none ∨ ((s.envOp op).engine = s.engine ∧ Undisturbed s (s.envOp op)) := by
  cases op with
  | read a w => exact .inr ⟨rfl, { Undisturbed.refl s with }⟩
  | write a d => exact (hostWrite_effect s a d).aborts_or_undisturbed hb
  | idle => exact .inr ⟨rfl, .refl s⟩
  | powerOnReset => exact .inl rfl

/-- An environment step aborts the running command, or leaves it undisturbed and one step nearer its completion. -/
theorem State.envStep_aborts_or_undisturbed {f : InFlight} (hf : s.engine = some f) :
    s.envStep.engine = none ∨
      (s.envStep.engine = some { f with remaining := f.remaining - 1 } ∧ Undisturbed s s.envStep) := by
  cases henv : s.env with
  | nil =>
    rw [State.envStep_of_nil henv, State.tick_of_running hf]
    exact .inr ⟨rfl, { Undisturbed.refl s with }⟩
  | cons op rest =>
    rw [State.envStep_of_cons henv, State.tick_of_running hf]
    refine (State.envOp_aborts_or_undisturbed rfl op).imp id fun ⟨hengine, hkept⟩ => ⟨hengine, { hkept with }⟩

end

/-- Settles O13: the step completes the command, or it is an environment step, which aborts it or leaves it
undisturbed. -/
theorem runningCommandIsUndisturbed : Obligations.RunningCommandIsUndisturbed := by
  intro s t f hf hstep
  rcases next_of_step hstep with ⟨-, rfl⟩ | ⟨e, rfl⟩ | ⟨w, -, rfl⟩
  · refine (State.envStep_aborts_or_undisturbed hf).imp id fun ⟨hengine, h⟩ => ?_
    exact ⟨hengine, h.cmd, h.opr, h.obuf, h.errcode, h.errinfo, h.outLen, h.flagres, h.lines, h.unterm, h.lenmis,
      h.ibufSize, h.obufSize, h.done⟩
  · exact .inl rfl
  · exact .inl rfl

/-! ### The completion of a running command (R104, R105) -/

section
variable {s t : State}

/-- No host write changes what the environment still does. -/
theorem HostEffect.env (he : HostEffect s t) : t.env = s.env := by
  cases he <;> rfl

/-- No item of the environment changes the items after it. -/
theorem State.envOp_env (s : State) (op : EnvOp) : (s.envOp op).env = s.env := by
  cases op with
  | write a d => exact (hostWrite_effect s a d).env
  | read | idle | powerOnReset => rfl

theorem State.tick_env (s : State) : s.tick.env = s.env := by
  cases hf : s.engine with
  | none => rw [State.tick_of_idle hf]
  | some f => rw [State.tick_of_running hf]

theorem State.envStep_env (s : State) : s.envStep.env = s.env.tail := by
  cases henv : s.env with
  | nil => rw [State.envStep_of_nil henv, State.tick_env, henv, List.tail_nil]
  | cons op rest => rw [State.envStep_of_cons henv, State.envOp_env, List.tail_cons]

/-- Only a reset aborts the running command. -/
theorem State.envOp_engine_of_not_resets {f : InFlight} (hf : s.engine = some f) {op : EnvOp} (hr : resets op = false) :
    (s.envOp op).engine = some f := by
  cases op with
  | read | idle => exact hf
  | write a d => exact hostWrite_keeps_running hf hr
  | powerOnReset => cases hr

theorem State.envStep_engine_of_not_resets {f : InFlight} (hf : s.engine = some f)
    (hr : ∀ op ∈ s.env.head?, resets op = false) :
    s.envStep.engine = some { f with remaining := f.remaining - 1 } := by
  cases henv : s.env with
  | nil => rw [State.envStep_of_nil henv, State.tick_of_running hf]
  | cons op rest =>
    rw [State.envStep_of_cons henv, State.tick_of_running hf]
    exact State.envOp_engine_of_not_resets rfl (hr op (by rw [henv]; rfl))

/-- The completing step: BUSY 0 and DONE 1, CMD and the environment as they were. -/
theorem step_of_due_completes (h : s.dueWord ≠ none) :
    ∃ t, step s = .next t ∧ t.busy = false ∧ t.done = true ∧ t.cmd = s.cmd ∧ t.env = s.env := by
  rcases step_cases s with ⟨hnot, -⟩ | ⟨-, e, -, hfail⟩ | ⟨-, w, -, hok⟩
  · exact absurd hnot h
  · exact ⟨_, hfail, rfl, rfl, rfl, rfl⟩
  · exact ⟨_, hok, rfl, rfl, rfl, rfl⟩

/-- Of the next items none resets: neither the first nor those after it. -/
theorem not_resets_succ {env : List EnvOp} {n : Nat} (h : ∀ op ∈ env.take (n + 1), resets op = false) :
    (∀ op ∈ env.head?, resets op = false) ∧ ∀ op ∈ env.tail.take n, resets op = false := by
  cases env with
  | nil => simp
  | cons op rest => simpa using h

theorem run_succ_of_step (h : step s = .next t) (k : Nat) :
    Host.Core.run Sys2Proof.core (k + 1) s = Host.Core.run Sys2Proof.core k t := by
  have hcore : Sys2Proof.core.step s = .next t := h
  simp only [Host.Core.run, hcore]

end

/-- Settles O14, by induction on the steps left: each environment step that is no reset leaves one less, and then the
command completes. -/
theorem startedCommandCompletes : Obligations.StartedCommandCompletes := by
  intro s f hf henv
  generalize hn : f.remaining = n at henv ⊢
  induction n generalizing s f with
  | zero =>
    have hdue : s.dueWord = some f.word := State.dueWord_eq_some.2 ⟨f, hf, hn, rfl⟩
    obtain ⟨t, hstep, hbusy, hdone, hcmd, henv'⟩ := step_of_due_completes (s := s) (by simp [hdue])
    exact ⟨t, run_succ_of_step hstep 0, hbusy, hdone, hcmd, henv'⟩
  | succ n ih =>
    obtain ⟨hfirst, hrest⟩ := not_resets_succ henv
    have hnot : s.dueWord = none := by simp [State.dueWord, hf, hn]
    have hengine := State.envStep_engine_of_not_resets hf hfirst
    have hkept : Undisturbed s s.envStep := by
      rcases State.envStep_aborts_or_undisturbed hf with habort | ⟨-, hkept⟩
      · rw [hengine] at habort
        cases habort
      · exact hkept
    obtain ⟨t, hrun, hbusy, hdone, hcmd, henv'⟩ := ih s.envStep _ hengine (by simp [hn])
      (s.envStep_env.symm ▸ hrest)
    refine ⟨t, (run_succ_of_step (step_of_not_due hnot) _).trans hrun, hbusy, hdone, hcmd.trans hkept.cmd, ?_⟩
    rw [henv', State.envStep_env, List.drop_tail]

end Sys2Proof.Machine
end

section
/-! SUPPORT. Completions (spec/40_command.md R105 to R112): STATUS after one, what each command writes and leaves
unchanged, the windows it stays in, and the soft reset beside it (spec/60_exceptions.md R241). -/

namespace Sys2Proof.Machine

/-! ### STATUS (spec/10_state.md R26) -/

/-- The STATUS word of its fields (tied to the model by `State.statusWord_eq`). -/
def statusOf (busy done err wlost : Bool) (code : BitVec 4) : Word :=
  bitAt busy 0 ||| bitAt done 1 ||| bitAt err 2 ||| bitAt wlost 3 ||| (code.zeroExtend 32 <<< 8)

theorem State.statusWord_eq (s : State) :
    s.statusWord = statusOf s.busy s.done s.err s.wlost (errNumber s.errcode) := rfl

section
variable (busy done err wlost : Bool) (code : BitVec 4)

theorem statusOf_flags : (statusOf busy done err wlost code).getLsbD 0 = busy ∧
    (statusOf busy done err wlost code).getLsbD 1 = done ∧ (statusOf busy done err wlost code).getLsbD 2 = err ∧
    (statusOf busy done err wlost code).getLsbD 3 = wlost := by
  revert busy done err wlost code
  decide

theorem statusOf_fields : (statusOf busy done err wlost code).extractLsb' 4 4 = 0 ∧
    (statusOf busy done err wlost code).extractLsb' 8 4 = code ∧
    (statusOf busy done err wlost code).extractLsb' 12 20 = 0 := by
  revert busy done err wlost code
  decide

end

theorem errNumber_lt (c : ErrCode) : (errNumber c).toNat < 12 := by
  cases c <;> decide

theorem errNumber_eq_zero (c : ErrCode) : errNumber c = 0 ↔ c = .none := by
  cases c <;> decide

/-- ERR is set exactly when the error code's number is not 0 (R26). -/
theorem State.err_iff (s : State) : s.err = true ↔ errNumber s.errcode ≠ 0 := bne_iff_ne

/-- Every completion, with an error or not, clears BUSY, sets DONE, leaves IE and reports ERRINFO 0 on success. -/
theorem exec_completes (i : Instr) (s : State) : ∃ t, exec i s = .next t ∧ t.busy = false ∧ t.done = true ∧
    (t.errcode = .none → t.errinfo = 0) ∧ t.ie = s.ie := by
  rcases exec_cases i s with ⟨e, he, h⟩ | ⟨w, -, h⟩
  · exact ⟨_, h, rfl, rfl, fun hnone => absurd hnone he, rfl⟩
  · exact ⟨_, h, rfl, rfl, fun _ => rfl, rfl⟩

/-- Settles O15: STATUS holds its fields in their places, and a completion sets them. -/
theorem completionSetsTheStatus : Obligations.CompletionSetsTheStatus := by
  constructor
  · intro i s
    obtain ⟨t, hexec, hbusy, hdone, hinfo, hie⟩ := exec_completes i s
    obtain ⟨h0, h1, h2, -⟩ := statusOf_flags t.busy t.done t.err t.wlost (errNumber t.errcode)
    obtain ⟨-, hcode, -⟩ := statusOf_fields t.busy t.done t.err t.wlost (errNumber t.errcode)
    rw [← State.statusWord_eq] at h0 h1 h2 hcode
    refine ⟨t, hexec, h0.trans hbusy, h1.trans hdone, ?_, hcode ▸ errNumber_lt _, hinfo, ?_⟩
    · rw [h2, State.err_iff, Ne, errNumber_eq_zero]
    · rw [State.irq, hie, hdone, Bool.and_true]
  · intro s
    obtain ⟨h0, h1, h2, h3⟩ := statusOf_flags s.busy s.done s.err s.wlost (errNumber s.errcode)
    obtain ⟨hlow, hcode, hhigh⟩ := statusOf_fields s.busy s.done s.err s.wlost (errNumber s.errcode)
    rw [← State.statusWord_eq] at h0 h1 h2 h3 hlow hcode hhigh
    refine ⟨h0, h1, by rw [h2, hcode, State.err_iff], h3, hlow, hhigh, fun p hp herr => ?_⟩
    rw [hcode, herr]
    clear herr
    revert p
    decide

/-! ### What each command writes (R106) -/

/-- The two kinds of completion, by the state they lead to. -/
theorem next_of_exec {i : Instr} {s t : State} (h : exec i s = .next t) :
    (∃ e, t = s.fail e) ∨ ∃ w, Fits s w ∧ t = s.succeed w := by
  rcases exec_cases i s with ⟨e, -, hfail⟩ | ⟨w, hfit, hok⟩
  · exact .inl ⟨e, Host.Outcome.next.inj (h.symm.trans hfail)⟩
  · exact .inr ⟨w, hfit, Host.Outcome.next.inj (h.symm.trans hok)⟩

/-- A success of the command may write only what the column "engine writes" of spec/10_state.md R21 gives it. -/
structure WritesOnlyNamed (i : Instr) (w : Writes) : Prop where
  frf : i.opcode ≠ .hdrDecode → i.opcode ≠ .flagPut → w.frf = []
  raw : i.opcode ≠ .pixPack → w.raw = none
  comp : i.opcode ≠ .pixUnpack → w.comp = none
  flagres : i.opcode ≠ .flagGet → w.flagres = none
  lines : i.opcode ≠ .etrleDecompress → w.lines = none ∧ w.info = none
  obuf : i.opcode ∉ [.hdrEncode, .pixDecode, .pixEncode, .etrleCompress, .etrleDecompress] → w.obuf = []

/-- Every command completes with an error, or with writes its rule names. -/
theorem exec_writesOnlyNamed (i : Instr) (s : State) :
    EndsInError s (exec i s) ∨ ∃ w, WritesOnlyNamed i w ∧ exec i s = .next (s.succeed w) := by
  cases i
  case' hdrDecode layout => refine (execHdrDecode_cases layout s).imp id fun ⟨l, _, _, h⟩ => ⟨_, ?_, h⟩
  case' hdrEncode layout => refine (execHdrEncode_cases layout s).imp id fun ⟨l, _, _, h⟩ => ⟨_, ?_, h⟩
  case' flagGet layout fidx => refine (execFlagGet_cases layout fidx s).imp id fun ⟨l, slot, _, _, h⟩ => ⟨_, ?_, h⟩
  case' flagPut layout fidx fval =>
    refine (execFlagPut_cases layout fidx fval s).imp id fun ⟨l, slot, _, _, h⟩ => ⟨_, ?_, h⟩
  case' stiCheck => refine (execStiCheck_cases s).imp id fun ⟨_, h⟩ => ⟨_, ?_, h⟩
  case' cspecValidate => refine (execCspecValidate_cases s).imp id fun ⟨_, h⟩ => ⟨_, ?_, h⟩
  case' pixUnpack => refine (execPixUnpack_cases s).imp id fun ⟨_, h⟩ => ⟨_, ?_, h⟩
  case' pixPack => refine (execPixPack_cases s).imp id fun ⟨_, h⟩ => ⟨_, ?_, h⟩
  case' pixDecode => refine (execPixDecode_cases s).imp id fun ⟨_, h⟩ => ⟨_, ?_, h⟩
  case' pixEncode => refine (execPixEncode_cases s).imp id fun ⟨_, h⟩ => ⟨_, ?_, h⟩
  case' etrleCompress => refine (execEtrleCompress_cases s).imp id fun ⟨_, _, h⟩ => ⟨_, ?_, h⟩
  case' etrleDecompress => refine (execEtrleDecompress_cases s).imp id fun ⟨d, _, _, h⟩ => ⟨_, ?_, h⟩
  all_goals constructor <;> simp [Instr.opcode, decompressWrites]

/-- A completion's OUT_LEN lies in the destination window, and no OBUF byte outside that many from DST_OFF on changes
(R31, R32). -/
theorem exec_sameOutside {i : Instr} {s t : State} (h : exec i s = .next t) :
    SameOutside s t s.captured.dstOff.toNat t.outLen.toNat ∧ t.outLen.toNat ≤ s.captured.dstCap.toNat := by
  rcases next_of_exec h with ⟨e, rfl⟩ | ⟨w, hfit, rfl⟩
  · exact ⟨fun _ _ => rfl, Nat.zero_le _⟩
  · have hle : w.obuf.length ≤ s.captured.dstCap.toNat := by
      rcases hfit with hnil | ⟨-, hle⟩
      · simp [hnil]
      · exact hle
    have hlen : (s.succeed w).outLen.toNat = w.obuf.length := by
      have hcap := s.captured.dstCap.isLt
      rw [State.succeed_outLen, BitVec.toNat_ofNat, Nat.mod_eq_of_lt (by omega)]
    rw [hlen]
    exact ⟨fun a ha => Memory.obufByte_writeBytes_outside _ _ _ a ha, hle⟩

/-- Settles O17: a failure writes no operand and no OBUF byte, and a success writes what its command's rule names. -/
theorem commandsKeepWhatTheyDoNotName : Obligations.CommandsKeepWhatTheyDoNotName := by
  intro i s t h
  have houtside := (exec_sameOutside h).1
  rcases exec_writesOnlyNamed i s with ⟨e, -, hfail⟩ | ⟨w, hw, hok⟩
  · obtain rfl : s.fail e = t := Host.Outcome.next.inj (hfail.symm.trans h)
    exact ⟨⟨rfl, rfl, rfl, rfl, rfl, rfl, rfl, rfl, rfl⟩, rfl, fun _ _ => rfl, fun _ => rfl,
      fun _ => ⟨rfl, rfl, rfl, rfl⟩, fun _ => rfl, fun _ => ⟨rfl, rfl, rfl⟩, fun _ => ⟨rfl, rfl⟩, houtside⟩
  · obtain rfl : s.succeed w = t := Host.Outcome.next.inj (hok.symm.trans h)
    refine ⟨⟨rfl, rfl, rfl, rfl, rfl, rfl, rfl, rfl, rfl⟩, rfl, fun hdecode hput => ?_, fun hpack => ?_,
      fun hunpack => ?_, fun hget => ?_, fun hdecompress => ?_, fun hbuf => ?_, houtside⟩
    · simp [hw.frf hdecode hput]
    · simp [hw.raw hpack]
    · simp [hw.comp hunpack]
    · simp [hw.flagres hget]
    · obtain ⟨hlines, hinfo⟩ := hw.lines hdecompress
      simp [hlines, hinfo]
    · simp [hw.obuf hbuf]

/-- Settles O18: the OUT_LEN bytes that may change lie in the destination window. -/
theorem outputStaysInTheDestinationWindow : Obligations.OutputStaysInTheDestinationWindow := by
  intro i s t h
  obtain ⟨houtside, hlen⟩ := exec_sameOutside h
  refine ⟨fun a ha => houtside a (by omega), hlen, ?_⟩
  obtain ⟨-, hopr, -⟩ := commandsKeepWhatTheyDoNotName i s t h
  rw [hopr]

/-- Settles O21: a completion changes no field that survives a soft reset but OBUF. -/
theorem resetAndCompletionCommute : Obligations.ResetAndCompletionCommute := by
  intro i s t h
  rcases next_of_exec h with ⟨e, rfl⟩ | ⟨w, -, rfl⟩
  · rfl
  · rfl

/-! ### Windows come first (R109, R111) -/

section
variable {s : State}

theorem checkSrc_of_not_fits (h : ¬ SrcFits s) : checkSrc s.captured s.ibufSize = some ⟨.bufferRange, 0⟩ :=
  (raiseIf_eq_some _ _ _).2 ⟨decide_eq_true (Nat.not_le.1 h), rfl⟩

theorem checkDst_of_not_fits (h : ¬ DstFits s) : checkDst s.captured s.obufSize = some ⟨.bufferRange, 1⟩ :=
  (raiseIf_eq_some _ _ _).2 ⟨decide_eq_true (Nat.not_le.1 h), rfl⟩

theorem windowChecks_of_not_srcFits (h : ¬ SrcFits s) :
    firstError (windowChecks s.captured s.ibufSize s.obufSize) = some ⟨.bufferRange, 0⟩ := by
  rw [windowChecks, checkSrc_of_not_fits h, firstError_some]

theorem windowChecks_of_not_dstFits (hsrc : SrcFits s) (h : ¬ DstFits s) :
    firstError (windowChecks s.captured s.ibufSize s.obufSize) = some ⟨.bufferRange, 1⟩ := by
  rw [windowChecks, (checkSrc_eq_none _ _).2 hsrc, checkDst_of_not_fits h, firstError_none_cons, firstError_some]

theorem windowChecks_of_fits (hsrc : SrcFits s) (hdst : DstFits s) :
    firstError (windowChecks s.captured s.ibufSize s.obufSize) = none := by
  rw [windowChecks, (checkSrc_eq_none _ _).2 hsrc, (checkDst_eq_none _ _).2 hdst]
  rfl

/-- PIX_DECODE concludes with the checks of a pixel stream (R171). -/
theorem exec_pixDecode_eq (s : State) : exec .pixDecode s = .next (s.conclude
    (pixStreamChecks s.captured s.ibufSize s.obufSize
      (s.captured.pixCount.toNat * bytesPerPixel (colorSpec s.captured)) (s.captured.pixCount.toNat * 4))
    { obuf := (List.range s.captured.pixCount.toNat).flatMap (decodedPixel s.captured) }) := rfl

/-- PIX_ENCODE concludes with the checks of a pixel stream (R172). -/
theorem exec_pixEncode_eq (s : State) : exec .pixEncode s = .next (s.conclude
    (pixStreamChecks s.captured s.ibufSize s.obufSize (s.captured.pixCount.toNat * 4)
      (s.captured.pixCount.toNat * bytesPerPixel (colorSpec s.captured)))
    { obuf := (List.range s.captured.pixCount.toNat).flatMap (encodedPixel s.captured) }) := rfl

/-- The four commands that use both windows report a window's error before any other. -/
theorem exec_of_windowChecks_error {e : Err} (h : firstError (windowChecks s.captured s.ibufSize s.obufSize) = some e) :
    exec .pixDecode s = .next (s.ended 0 e.code e.info) ∧ exec .pixEncode s = .next (s.ended 0 e.code e.info) ∧
      exec .etrleCompress s = .next (s.ended 0 e.code e.info) ∧
      exec .etrleDecompress s = .next (s.ended 0 e.code e.info) := by
  have hpix (input output : Nat) :
      firstError (pixStreamChecks s.captured s.ibufSize s.obufSize input output) = some e := by
    rw [pixStreamChecks, List.append_assoc, firstError_append, h, Option.some_or]
  have hcompress : firstError (compressChecks s.captured s.ibufSize s.obufSize) = some e := by
    rw [compressChecks, firstError_append, h, Option.some_or]
  refine ⟨?_, ?_, ?_, ?_⟩
  · rw [exec_pixDecode_eq, State.conclude_of_error (hpix _ _), State.fail_eq_ended]
  · rw [exec_pixEncode_eq, State.conclude_of_error (hpix _ _), State.fail_eq_ended]
  · simp only [exec, execEtrleCompress, hcompress, State.fail_eq_ended]
  · simp only [exec, execEtrleDecompress, h, State.fail_eq_ended]

end

/-- Settles O20: each of the six commands checks its windows first, the source before the destination. -/
theorem windowsAreCheckedFirst : Obligations.WindowsAreCheckedFirst := by
  intro s l
  refine ⟨fun hsrc => ⟨?_, exec_of_windowChecks_error (windowChecks_of_not_srcFits hsrc)⟩, fun hdst => ⟨?_, fun hsrc =>
    exec_of_windowChecks_error (windowChecks_of_not_dstFits hsrc hdst)⟩⟩
  · simp only [exec, execHdrDecode, layoutOfBits_layoutNumber, State.conclude, hdrDecodeChecks,
      checkSrc_of_not_fits hsrc, firstError_some, State.fail_eq_ended]
  · simp only [exec, execHdrEncode, layoutOfBits_layoutNumber, State.conclude, hdrEncodeChecks,
      checkDst_of_not_fits hdst, firstError_some, State.fail_eq_ended]

end Sys2Proof.Machine
end

section
/-! SUPPORT. A command reads IBUF inside its source window only (spec/10_state.md R30, spec/20_memory.md R69). -/

namespace Sys2Proof.Machine

/-- A running state whose captured IBUF and standing IBUF are replaced. -/
def State.withInput (s : State) (f : InFlight) (captured standing : Memory) : State :=
  { s with
    engine := some { f with operands := { f.operands with ibuf := captured } }
    opr := { s.opr with ibuf := standing } }

/-- A state whose standing IBUF is replaced. -/
def State.withStanding (t : State) (standing : Memory) : State :=
  { t with opr := { t.opr with ibuf := standing } }

/-- Two outcomes that are one completion, but for the standing IBUF. -/
def SameCompletion (standing : Memory) (r r' : Host.Outcome State Fault Refusal) : Prop :=
  ∃ t, r = .next t ∧ r' = .next (t.withStanding standing)

/-- Two memories hold the same bytes in the operands' source window. -/
def AgreeInSource (o : Operands) (m : Memory) : Prop :=
  ∀ a, o.srcOff.toNat ≤ a → a < o.srcOff.toNat + o.srcLen.toNat → m.ibufByte a = o.ibuf.ibufByte a

section
variable {o : Operands} {m : Memory}

/-! ### What a command computes from its source window -/

theorem AgreeInSource.ibufByte (h : AgreeInSource o m) {i : Nat} (hi : i < o.srcLen.toNat) :
    m.ibufByte (o.srcOff.toNat + i) = o.ibuf.ibufByte (o.srcOff.toNat + i) :=
  h _ (Nat.le_add_right _ _) (Nat.add_lt_add_left hi _)

theorem AgreeInSource.srcBytes (h : AgreeInSource o m) {i n : Nat} (hin : i + n ≤ o.srcLen.toNat) :
    Machine.srcBytes { o with ibuf := m } i n = Machine.srcBytes o i n := by
  rw [srcBytes_eq_map, srcBytes_eq_map]
  refine List.map_congr_left fun j hj => h.ibufByte ?_
  have hlt := (List.mem_range'_1.1 hj).2
  omega

/-- Part `i` of `n` parts of `k` bytes each ends within them. -/
theorem part_le {i n k : Nat} (hi : i < n) : i * k + k ≤ n * k := by
  rw [← Nat.succ_mul]
  exact Nat.mul_le_mul_right k hi

theorem AgreeInSource.decodedPixels (h : AgreeInSource o m) {n : Nat}
    (hin : n * bytesPerPixel (colorSpec o) ≤ o.srcLen.toNat) :
    (List.range n).flatMap (decodedPixel { o with ibuf := m }) = (List.range n).flatMap (decodedPixel o) := by
  refine List.flatMap_congr fun i hi => ?_
  have hend := part_le (k := bytesPerPixel (colorSpec o)) (List.mem_range.1 hi)
  exact congrArg (fun b => rgbaBytes (colorSpec o) (deserialize b (bytesPerPixel (colorSpec o))))
    (h.srcBytes (hend.trans hin))

theorem AgreeInSource.encodedPixels (h : AgreeInSource o m) {n : Nat} (hin : n * 4 ≤ o.srcLen.toNat) :
    (List.range n).flatMap (encodedPixel { o with ibuf := m }) = (List.range n).flatMap (encodedPixel o) := by
  refine List.flatMap_congr fun i hi => ?_
  have hi : i < n := List.mem_range.1 hi
  have hbyte {k : Nat} (hk : k < 4) := h.ibufByte (i := 4 * i + k) (by omega)
  have hspec : colorSpec { o with ibuf := m } = colorSpec o := rfl
  simp only [encodedPixel, hspec, hbyte, Nat.reduceLT]

theorem AgreeInSource.compressedLines (h : AgreeInSource o m)
    (hin : o.lineLen.toNat * o.lineCnt.toNat ≤ o.srcLen.toNat) :
    Machine.compressedLines { o with ibuf := m } = Machine.compressedLines o := by
  refine List.flatMap_congr fun r hr => congrArg compressLine (h.srcBytes ?_)
  have hend := part_le (k := o.lineLen.toNat) (List.mem_range.1 hr)
  rw [Nat.mul_comm] at hin
  exact hend.trans hin

/-! ### The checks that bring the source window's bytes -/

theorem pixStreamChecks_input {ib ob : Word} {input output : Nat}
    (h : firstError (pixStreamChecks o ib ob input output) = none) : input ≤ o.srcLen.toNat :=
  (checkInput_eq_none o input).1 ((firstError_eq_none _).1 h _ (by simp [pixStreamChecks]))

theorem compressChecks_input {ib ob : Word} (h : firstError (compressChecks o ib ob) = none) :
    o.lineLen.toNat * o.lineCnt.toNat ≤ o.srcLen.toNat :=
  (checkInput_eq_none o _).1 ((firstError_eq_none _).1 h _ (by simp [compressChecks]))

end

/-! ### The two ETRLE commands, by their checks -/

section
variable {s : State}

theorem exec_etrleCompress_of_error {e : Err}
    (h : firstError (compressChecks s.captured s.ibufSize s.obufSize) = some e) :
    exec .etrleCompress s = .next (s.fail e) := by
  simp only [exec, execEtrleCompress, h]

theorem exec_etrleCompress_of_pass (h : firstError (compressChecks s.captured s.ibufSize s.obufSize) = none) :
    exec .etrleCompress s = .next (s.conclude [checkOutput s.captured (compressedLines s.captured).length]
      { obuf := compressedLines s.captured }) := by
  simp only [exec, execEtrleCompress, h]

theorem exec_etrleDecompress_of_error {e : Err}
    (h : firstError (windowChecks s.captured s.ibufSize s.obufSize) = some e) :
    exec .etrleDecompress s = .next (s.fail e) := by
  simp only [exec, execEtrleDecompress, h]

/-- The windows fit, and the stream has a fault (R207). -/
theorem exec_etrleDecompress_of_fault (h : firstError (windowChecks s.captured s.ibufSize s.obufSize) = none) {e : Err}
    (hstream : decompressStream (srcBytes s.captured 0 s.captured.srcLen.toNat) s.captured.dstCap.toNat
      s.captured.lineLen.toNat = .error e) : exec .etrleDecompress s = .next (s.fail e) := by
  simp only [exec, execEtrleDecompress, h, hstream]

/-- The windows fit, and the stream decodes within the budget (R207). -/
theorem exec_etrleDecompress_of_ok (h : firstError (windowChecks s.captured s.ibufSize s.obufSize) = none) {d : Decoded}
    (hstream : decompressStream (srcBytes s.captured 0 s.captured.srcLen.toNat) s.captured.dstCap.toNat
      s.captured.lineLen.toNat = .ok d) : exec .etrleDecompress s = .next (s.succeed (decompressWrites d)) := by
  simp only [exec, execEtrleDecompress, h, hstream]

end

/-! ### Completions -/

section
variable {s : State} {f : InFlight} (hf : s.engine = some f) (captured standing : Memory)

@[simp] theorem State.captured_withInput :
    (s.withInput f captured standing).captured = { f.operands with ibuf := captured } := rfl

theorem State.fail_withInput (e : Err) :
    (s.withInput f captured standing).fail e = (s.fail e).withStanding standing := rfl

include hf

theorem State.succeed_withInput (w : Writes) :
    (s.withInput f captured standing).succeed w = (s.succeed w).withStanding standing := by
  simp only [State.succeed, State.store, State.captured_of_running hf]
  rfl

/-- A conclusion is the same completion when its writes, if it comes to them, are the same. -/
theorem sameCompletion_conclude (cs : List (Option Err)) {w w' : Writes} (hw : firstError cs = none → w' = w) :
    SameCompletion standing (.next (s.conclude cs w)) (.next ((s.withInput f captured standing).conclude cs w')) := by
  refine ⟨_, rfl, congrArg _ ?_⟩
  cases hcs : firstError cs with
  | some e => rw [State.conclude_of_error hcs, State.conclude_of_error hcs, State.fail_withInput]
  | none => rw [State.conclude_of_pass hcs, State.conclude_of_pass hcs, hw hcs, State.succeed_withInput hf]

theorem sameCompletion_hdrDecode (h : AgreeInSource f.operands captured) (layout : BitVec 4) :
    SameCompletion standing (execHdrDecode layout s) (execHdrDecode layout (s.withInput f captured standing)) := by
  unfold execHdrDecode
  cases layoutOfBits layout with
  | none => exact ⟨_, rfl, rfl⟩
  | some l =>
    rw [State.captured_of_running hf]
    refine sameCompletion_conclude hf captured standing (hdrDecodeChecks l f.operands s.ibufSize) fun hpass => ?_
    have hlen : layoutSize l ≤ f.operands.srcLen.toNat :=
      (checkInput_eq_none _ _).1 ((firstError_eq_none _).1 hpass _ (by simp [hdrDecodeChecks]))
    rw [State.captured_withInput, h.srcBytes (by omega)]

theorem sameCompletion_hdrEncode (layout : BitVec 4) :
    SameCompletion standing (execHdrEncode layout s) (execHdrEncode layout (s.withInput f captured standing)) := by
  unfold execHdrEncode
  cases layoutOfBits layout with
  | none => exact ⟨_, rfl, rfl⟩
  | some l =>
    rw [State.captured_of_running hf]
    exact sameCompletion_conclude hf captured standing (hdrEncodeChecks l f.operands s.obufSize) fun _ => rfl

theorem sameCompletion_flagGet (layout : BitVec 4) (fidx : BitVec 5) :
    SameCompletion standing (execFlagGet layout fidx s)
      (execFlagGet layout fidx (s.withInput f captured standing)) := by
  unfold execFlagGet
  rw [State.captured_of_running hf]
  cases layoutOfBits layout with
  | none => exact ⟨_, rfl, rfl⟩
  | some l =>
    dsimp only
    cases namedFlag l fidx.toNat with
    | none => exact ⟨_, rfl, rfl⟩
    | some slot => exact ⟨_, rfl, congrArg _ (State.succeed_withInput hf captured standing _)⟩

theorem sameCompletion_flagPut (layout : BitVec 4) (fidx : BitVec 5) (fval : Bool) :
    SameCompletion standing (execFlagPut layout fidx fval s)
      (execFlagPut layout fidx fval (s.withInput f captured standing)) := by
  unfold execFlagPut
  rw [State.captured_of_running hf]
  cases layoutOfBits layout with
  | none => exact ⟨_, rfl, rfl⟩
  | some l =>
    dsimp only
    cases namedFlag l fidx.toNat with
    | none => exact ⟨_, rfl, rfl⟩
    | some slot => exact ⟨_, rfl, congrArg _ (State.succeed_withInput hf captured standing _)⟩

theorem sameCompletion_pixDecode (h : AgreeInSource f.operands captured) :
    SameCompletion standing (exec .pixDecode s) (exec .pixDecode (s.withInput f captured standing)) := by
  rw [exec_pixDecode_eq, exec_pixDecode_eq, State.captured_of_running hf]
  refine sameCompletion_conclude hf captured standing (pixStreamChecks f.operands s.ibufSize s.obufSize _ _)
    fun hpass => ?_
  exact congrArg (fun bs : List Byte => ({ obuf := bs } : Writes)) (h.decodedPixels (pixStreamChecks_input hpass))

theorem sameCompletion_pixEncode (h : AgreeInSource f.operands captured) :
    SameCompletion standing (exec .pixEncode s) (exec .pixEncode (s.withInput f captured standing)) := by
  rw [exec_pixEncode_eq, exec_pixEncode_eq, State.captured_of_running hf]
  refine sameCompletion_conclude hf captured standing (pixStreamChecks f.operands s.ibufSize s.obufSize _ _)
    fun hpass => ?_
  exact congrArg (fun bs : List Byte => ({ obuf := bs } : Writes)) (h.encodedPixels (pixStreamChecks_input hpass))

theorem sameCompletion_etrleCompress (h : AgreeInSource f.operands captured) :
    SameCompletion standing (exec .etrleCompress s) (exec .etrleCompress (s.withInput f captured standing)) := by
  have hs := State.captured_of_running hf
  cases hcs : firstError (compressChecks f.operands s.ibufSize s.obufSize) with
  | some e =>
    rw [exec_etrleCompress_of_error (s := s) (hs.symm ▸ hcs),
      exec_etrleCompress_of_error (s := s.withInput f captured standing) hcs]
    exact ⟨_, rfl, rfl⟩
  | none =>
    rw [exec_etrleCompress_of_pass (s := s) (hs.symm ▸ hcs),
      exec_etrleCompress_of_pass (s := s.withInput f captured standing) hcs, State.captured_withInput,
      h.compressedLines (compressChecks_input hcs), hs]
    exact sameCompletion_conclude hf captured standing [checkOutput f.operands _] fun _ => rfl

theorem sameCompletion_etrleDecompress (h : AgreeInSource f.operands captured) :
    SameCompletion standing (exec .etrleDecompress s) (exec .etrleDecompress (s.withInput f captured standing)) := by
  have hs := State.captured_of_running hf
  cases hcs : firstError (windowChecks f.operands s.ibufSize s.obufSize) with
  | some e =>
    rw [exec_etrleDecompress_of_error (s := s) (hs.symm ▸ hcs),
      exec_etrleDecompress_of_error (s := s.withInput f captured standing) hcs]
    exact ⟨_, rfl, rfl⟩
  | none =>
    have hbytes := h.srcBytes (Nat.zero_add f.operands.srcLen.toNat).le
    cases hd : decompressStream (srcBytes f.operands 0 f.operands.srcLen.toNat) f.operands.dstCap.toNat
      f.operands.lineLen.toNat with
    | error e =>
      rw [exec_etrleDecompress_of_fault (s := s) (hs.symm ▸ hcs) (hs.symm ▸ hd),
        exec_etrleDecompress_of_fault (s := s.withInput f captured standing) hcs (hbytes.symm ▸ hd)]
      exact ⟨_, rfl, rfl⟩
    | ok d =>
      rw [exec_etrleDecompress_of_ok (s := s) (hs.symm ▸ hcs) (hs.symm ▸ hd),
        exec_etrleDecompress_of_ok (s := s.withInput f captured standing) hcs (hbytes.symm ▸ hd)]
      exact ⟨_, rfl, congrArg _ (State.succeed_withInput hf captured standing _)⟩

end

/-- Settles O19: each command's checks name no IBUF byte, and what it writes comes from the source window. -/
theorem inputComesFromTheSourceWindow : Obligations.InputComesFromTheSourceWindow := by
  intro i s f captured standing hf hagree
  change SameCompletion standing (exec i s) (exec i (s.withInput f captured standing))
  have hs := State.captured_of_running hf
  have conclude {checks : Operands → List (Option Err)} {writes : Operands → Writes}
      (hcs : checks { f.operands with ibuf := captured } = checks f.operands)
      (hw : writes { f.operands with ibuf := captured } = writes f.operands) :
      SameCompletion standing (.next (s.conclude (checks s.captured) (writes s.captured)))
        (.next ((s.withInput f captured standing).conclude (checks { f.operands with ibuf := captured })
          (writes { f.operands with ibuf := captured }))) := by
    rw [hcs, hs]
    exact sameCompletion_conclude hf captured standing _ fun _ => hw
  cases i with
  | hdrDecode layout => exact sameCompletion_hdrDecode hf captured standing hagree layout
  | hdrEncode layout => exact sameCompletion_hdrEncode hf captured standing layout
  | flagGet layout fidx => exact sameCompletion_flagGet hf captured standing layout fidx
  | flagPut layout fidx fval => exact sameCompletion_flagPut hf captured standing layout fidx fval
  | stiCheck => exact conclude (checks := fun o => stiChecks o.frf) (writes := fun _ => {}) rfl rfl
  | cspecValidate => exact conclude (checks := fun o => validate (colorSpec o)) (writes := fun _ => {}) rfl rfl
  | pixUnpack =>
    exact conclude (checks := fun o => validate (colorSpec o))
      (writes := fun o => { comp := some (unpackedWords (colorSpec o) o.raw) }) rfl rfl
  | pixPack =>
    exact conclude (checks := pixPackChecks) (writes := fun o =>
      { raw := some (packPixel (colorSpec o) o.compR.toNat o.compG.toNat o.compB.toNat o.compA.toNat) }) rfl rfl
  | pixDecode => exact sameCompletion_pixDecode hf captured standing hagree
  | pixEncode => exact sameCompletion_pixEncode hf captured standing hagree
  | etrleCompress => exact sameCompletion_etrleCompress hf captured standing hagree
  | etrleDecompress => exact sameCompletion_etrleDecompress hf captured standing hagree

end Sys2Proof.Machine
end

section
/-! SUPPORT. The host port (spec/20_memory.md R62 to R68, spec/10_state.md R21 to R43): what each register holds and
takes, the hazards of a running command (spec/70_reset_and_hazards.md R270 to R272), and the buffer windows. -/

namespace Sys2Proof.Machine

/-! ### CTRL and STATUS (R270) -/

/-- The register map places STATUS at 0x00C (spec/10_state.md R21). -/
theorem State.hostWrite_status (s : State) (v : Word) : s.hostWrite 0x000000C#26 (.d32 v) = s.ackStatus v :=
  s.hostWrite_register (off := 0x00C) (r := .status) (by decide) v

/-- Settles O23: a CTRL write without SRST sets IE, and a STATUS write acknowledges; irq is IE and DONE (R47). -/
theorem ctrlAndStatusWritesActAtOnce : Obligations.CtrlAndStatusWritesActAtOnce := by
  intro s v
  have hctrl (h : v.getLsbD 1 = false) : s.hostWrite 0x0000008#26 (.d32 v) = s.setIe v :=
    (s.hostWrite_ctrl v).trans (s.putCtrl_of_not_srst h)
  refine ⟨hctrl, s.hostWrite_status v, fun h => ?_, ?_⟩
  · rw [hctrl h, State.irq, State.setIe_ie, State.setIe_done]
  · rw [s.hostWrite_status v, State.irq, State.ackStatus_ie, State.ackStatus_done, Bool.and_assoc]

/-! ### The register map by kinds of register (R21) -/

/-- The RW registers but CTRL and STATUS, and the FRF slots: the operands a command reads. -/
def RegName.isOperand : RegName → Bool
  | .id | .version | .ctrl | .status | .cmd | .errinfo | .ibufSize | .obufSize | .outLen | .flagres | .lines
  | .info => false
  | _ => true

/-- The offsets whose writes a running command loses are those of CMD and the operands (R271). -/
theorem regTable_lostOffset : ∀ p ∈ regTable, lostOffset p.1 = (p.2.isOperand || p.2 == .cmd) := by decide

/-- A register stands at every such offset. -/
theorem exists_register_of_lostOffset {off : Nat} (h : lostOffset off = true) : ∃ r, (off, r) ∈ regTable := by
  have hall : ∀ k < 0x4E, lostOffset (4 * k) = true → ∃ p ∈ regTable, p.1 = 4 * k := by decide
  have hbounds : off % 4 = 0 ∧ off < 0x138 := by
    simp only [lostOffset, Bool.and_eq_true, Bool.or_eq_true, beq_iff_eq, decide_eq_true_eq] at h
    omega
  have hoff : 4 * (off / 4) = off := by omega
  obtain ⟨⟨_, r⟩, hp, rfl⟩ := hall (off / 4) (by omega) (hoff.symm ▸ h)
  exact ⟨r, hoff ▸ hp⟩

/-- Each register stands at one offset. -/
theorem regTable_names_nodup : (regTable.map Prod.snd).Nodup := by decide

theorem regTable_offset_unique {off off' : Nat} {r : RegName} (h : (off, r) ∈ regTable) (h' : (off', r) ∈ regTable) :
    off = off' :=
  congrArg Prod.fst (List.inj_on_of_nodup_map regTable_names_nodup h h' rfl)

theorem frf_mem_regTable (k : Fin 14) : (0x100 + 4 * k.val, RegName.frf k) ∈ regTable :=
  List.mem_append_right _ (List.mem_map_of_mem (List.mem_finRange k))

/-! ### Power-on (R260) -/

/-- What the first thirty registers of a power-on state read as: their reset values (R21). -/
theorem regRead_poweredOn (ib ob : Word) (p : Nat) :
    (regTable.take 30).map (fun e => (e.1, (State.poweredOn ib ob p).regRead e.2)) =
      [(0x000, 0x4C525445#32), (0x004, 0x00010000#32), (0x008, 0), (0x00C, 0), (0x010, 0), (0x014, 0), (0x018, ib),
        (0x01C, ob), (0x020, 0), (0x024, 0), (0x028, 0), (0x02C, 0), (0x030, 0), (0x034, 0), (0x038, 0), (0x03C, 0),
        (0x040, 0), (0x044, 0), (0x048, 0), (0x050, 0x0000F800#32), (0x054, 0x000007E0#32), (0x058, 0x0000001F#32),
        (0x05C, 0), (0x060, 0x00050605#32), (0x064, 0x10#32), (0x068, 0), (0x070, 0), (0x074, 0), (0x078, 0),
        (0x07C, 0)] := by
  have hstatus : (State.poweredOn ib ob p).statusWord = 0 := by
    change statusOf false false false false 0 = 0
    decide
  have hinfo : (State.poweredOn ib ob p).infoWord = 0 := State.infoWord_eq_sum _
  simp only [regTable, List.cons_append, List.take_succ_cons, List.take_zero, List.map_cons, List.map_nil,
    State.regRead, hstatus, hinfo]
  rfl

/-- Settles O25: every register of the list stands in the map, and reads its reset value. -/
theorem powerOnRegistersReadTheirResetValues : Obligations.PowerOnRegistersReadTheirResetValues := by
  intro ib ob p
  refine ⟨fun q hq => ?_, fun k hk => ?_, rfl, rfl, fun s => ⟨_, rfl⟩⟩
  · rw [← regRead_poweredOn ib ob p] at hq
    obtain ⟨e, he, rfl⟩ := List.mem_map.1 hq
    exact State.hostRead_register _ (List.mem_of_mem_take he)
  · rw [State.hostRead_register _ (frf_mem_regTable ⟨k, hk⟩)]
    change frfGet (Vector.replicate 14 0) k = 0
    rw [frfGet_eq_getElem _ _ hk, Vector.getElem_replicate]

/-! ### Writes while a command runs (R271) -/

/-- A running command loses a write to CMD or to an operand. -/
theorem State.regWrite_of_busy {s : State} (hb : s.busy = true) {r : RegName} (h : r.isOperand = true ∨ r = .cmd)
    (v : Word) : s.regWrite r v = s.loseWrite := by
  cases r with
  | cmd => exact State.putCmd_of_busy hb v
  | id | version | ctrl | status | errinfo | ibufSize | obufSize | outLen | flagres | lines | info =>
    exact absurd h (by decide)
  | _ => exact State.putOperands_of_busy hb _

/-- The other registers are CTRL, STATUS and those that ignore writes. -/
theorem RegName.ignoresWrites_of_not_operand {r : RegName} (h : r.isOperand = false) (hcmd : r ≠ .cmd)
    (hctrl : r ≠ .ctrl) (hstatus : r ≠ .status) : r.ignoresWrites = true := by
  cases r with
  | id | version | errinfo | ibufSize | obufSize | outLen | flagres | lines | info => rfl
  | cmd => exact absurd rfl hcmd
  | ctrl => exact absurd rfl hctrl
  | status => exact absurd rfl hstatus
  | _ => cases h

/-- The register found for an address of the register window stands at that address. -/
theorem regTable_of_regAt {a : Addr} (hw : windowOf a = .registers) {r : RegName} (hr : regAt (offsetOf a) = some r) :
    a = BitVec.ofNat 26 (offsetOf a) ∧ (offsetOf a, r) ∈ regTable :=
  ⟨BitVec.eq_of_toNat_eq (by
    have hlt := a.isLt
    rw [← windowOf_registers hw, BitVec.toNat_ofNat, Nat.mod_eq_of_lt hlt]), regAt_mem hr⟩

/-- A 32-bit write to the register window is a write to the register that stands at the address. -/
theorem State.hostWrite_of_regAt (s : State) {a : Addr} (hw : windowOf a = .registers) {r : RegName}
    (hr : regAt (offsetOf a) = some r) (v : Word) : s.hostWrite a (.d32 v) = s.regWrite r v := by
  simp only [State.hostWrite, hw, hr]

/-- A 32-bit write to the register window while a command runs, by the register's kind. -/
theorem State.hostWrite_registers_of_busy {s : State} (hb : s.busy = true) {a : Addr} (hw : windowOf a = .registers)
    (v : Word) :
    (lostOffset (offsetOf a) = true → s.hostWrite a (.d32 v) = s.loseWrite) ∧
      (lostOffset (offsetOf a) = false → a ≠ 0x0000008#26 → a ≠ 0x000000C#26 → s.hostWrite a (.d32 v) = s) := by
  constructor
  · intro hlost
    obtain ⟨r, hr⟩ := exists_register_of_lostOffset hlost
    have hkind := (regTable_lostOffset _ hr).symm.trans hlost
    simp only [Bool.or_eq_true, beq_iff_eq] at hkind
    rw [s.hostWrite_of_regAt hw (regTable_regAt _ hr), State.regWrite_of_busy hb hkind]
  · intro hlost hctrl hstatus
    cases hr : regAt (offsetOf a) with
    | none => exact s.hostWrite_of_no_register hw hr _
    | some r =>
      obtain ⟨haddr, hmem⟩ := regTable_of_regAt hw hr
      have hkind := (regTable_lostOffset _ hmem).symm.trans hlost
      simp only [Bool.or_eq_false_iff, beq_eq_false_iff_ne] at hkind
      obtain ⟨hoperand, hcmd⟩ := hkind
      have hignores : r.ignoresWrites = true := by
        refine RegName.ignoresWrites_of_not_operand hoperand hcmd ?_ ?_
        · rintro rfl
          exact hctrl (haddr.trans (congrArg (BitVec.ofNat 26) (regTable_ctrl _ hmem rfl)))
        · rintro rfl
          exact hstatus (haddr.trans (congrArg (BitVec.ofNat 26) (regTable_status _ hmem rfl)))
      rw [s.hostWrite_of_regAt hw hr, s.regWrite_of_ignoresWrites hignores]

/-- A write to a buffer window while a command runs: lost where it is admitted, without effect elsewhere. -/
theorem State.hostWrite_buffers_of_busy {s : State} (hb : s.busy = true) {a : Addr} (hw : windowOf a ≠ .registers)
    (d : HostData) : s.hostWrite a d = if lostWrite s a d then s.loseWrite else s := by
  cases h : windowOf a with
  | registers => exact absurd h hw
  | ibuf => simp only [State.hostWrite, lostWrite, h, State.putOperands_of_busy hb]
  | obuf => simp only [State.hostWrite, lostWrite, h, State.putObuf_of_busy hb]
  | unmapped => simp [State.hostWrite, lostWrite, h]

/-- Settles O22: the write is a 32-bit one to a register, a narrower one, or one to the other windows. -/
theorem writesWhileBusyAreLost : Obligations.WritesWhileBusyAreLost := by
  intro s a d hb
  by_cases hw : windowOf a = .registers
  · have hlost : lostWrite s a d = ((data32 d).isSome && lostOffset (offsetOf a)) := by simp only [lostWrite, hw]
    rw [hlost]
    cases d with
    | d8 v | d16 v => exact ⟨(fun h => nomatch h), fun _ _ => s.hostWrite_of_not_d32 hw rfl⟩
    | d32 v =>
      obtain ⟨hlose, hignore⟩ := State.hostWrite_registers_of_busy hb hw v
      refine ⟨hlose, fun hnot hother => ?_⟩
      obtain ⟨hctrl, hstatus⟩ := hother.resolve_left (fun h => nomatch h)
      exact hignore hnot hctrl hstatus
  · rw [State.hostWrite_buffers_of_busy hb hw]
    exact ⟨fun h => if_pos h, fun h _ => if_neg (Bool.eq_false_iff.1 h)⟩

/-! ### What reads depend on -/

/-- A read answers the same in two states that agree on the buffers and on what the registers read as. -/
theorem State.hostRead_congr {s t : State} {a : Addr} (w : Width)
    (hreg : ∀ r, windowOf a = .registers → regAt (offsetOf a) = some r → t.regRead r = s.regRead r)
    (hibufSize : t.ibufSize = s.ibufSize) (hobufSize : t.obufSize = s.obufSize) (hibuf : t.opr.ibuf = s.opr.ibuf)
    (hobuf : t.obuf = s.obuf) : t.hostRead a w = s.hostRead a w := by
  cases hw : windowOf a with
  | registers =>
    cases hr : regAt (offsetOf a) with
    | none => rw [t.hostRead_of_no_register hw hr, s.hostRead_of_no_register hw hr]
    | some r => simp only [State.hostRead, hw, hr, hreg r hw hr]
  | ibuf => simp only [State.hostRead, hw, hibufSize, hibuf]
  | obuf => simp only [State.hostRead, hw, hobufSize, hobuf]
  | unmapped => simp only [State.hostRead, hw]

/-! ### Reads change nothing (R68, R272) -/

/-- The passing of a step changes no register. -/
theorem State.regRead_tick (s : State) (r : RegName) : s.tick.regRead r = s.regRead r := by
  cases hf : s.engine with
  | none => rw [State.tick_of_idle hf]
  | some f =>
    have hbusy : s.busy = true := State.busy_iff.2 ⟨f, hf⟩
    rw [State.tick_of_running hf]
    cases r with
    | status => rw [State.regRead, State.regRead, State.statusWord_eq, State.statusWord_eq, hbusy]; rfl
    | _ => rfl

/-- After the passing of a step, whatever the environment still does and the last answer was, every read answers as
before. -/
theorem State.hostRead_after_tick (s : State) (rest : List EnvOp) (x : Option Word) (a : Addr) (w : Width) :
    State.hostRead { s.tick with env := rest, readData := x } a w = s.hostRead a w := by
  have htick : s.tick.ibufSize = s.ibufSize ∧ s.tick.obufSize = s.obufSize ∧ s.tick.opr = s.opr ∧
      s.tick.obuf = s.obuf := by
    cases hf : s.engine with
    | none => simp [State.tick_of_idle hf]
    | some f => simp [State.tick_of_running hf]
  obtain ⟨hibufSize, hobufSize, hopr, hobuf⟩ := htick
  refine State.hostRead_congr w (fun r _ _ => ?_) hibufSize hobufSize (congrArg Operands.ibuf hopr) hobuf
  rw [← s.regRead_tick r]
  cases r <;> rfl

/-- The passing of a step keeps what the running command captured, and BUSY. -/
theorem State.captured_tick (s : State) : s.tick.captured = s.captured ∧ s.tick.busy = s.busy := by
  cases hf : s.engine with
  | none => rw [State.tick_of_idle hf]; exact ⟨rfl, rfl⟩
  | some f => rw [State.tick_of_running hf, State.captured_of_running hf, State.busy_iff.2 ⟨f, hf⟩]; exact ⟨rfl, rfl⟩

/-- Settles O32: the step is the passing of a step and the answer. -/
theorem readsHaveNoSideEffect : Obligations.ReadsHaveNoSideEffect := by
  intro s a w rest hdue henv
  obtain ⟨hcaptured, hbusy⟩ := s.captured_tick
  refine ⟨_, step_of_not_due hdue, ?_⟩
  rw [State.envStep_of_cons henv]
  exact ⟨congrArg some (s.hostRead_after_tick rest s.tick.readData a w), rfl, hcaptured, hbusy,
    s.hostRead_after_tick rest _⟩

end Sys2Proof.Machine
end

section
/-! SUPPORT. Host accesses of an idle block: a register that takes a write and reads it back (spec/10_state.md R30 to
R43), and the buffer windows (spec/20_memory.md R62 to R65). -/

namespace Sys2Proof.Machine

/-! ### Registers written and read back -/

section
variable {s : State} (hidle : s.busy = false) {r : RegName} (h : r.isOperand = true) (v : Word)
include hidle h

/-- A write to an operand of an idle block changes that operand alone: IBUF and everything outside the operands
stay. -/
theorem State.regWrite_operand_frame :
    ∃ o, s.regWrite r v = { s with opr := o } ∧ o.ibuf = s.opr.ibuf := by
  cases r with
  | id | version | ctrl | status | cmd | errinfo | ibufSize | obufSize | outLen | flagres | lines | info => cases h
  | _ => exact ⟨_, State.putOperands_of_idle hidle _, rfl⟩

/-- It is read back, CTOTAL's low byte alone (R40). -/
theorem State.regRead_regWrite_same :
    (s.regWrite r v).regRead r = if r = .ctotal then v &&& 0xFF#32 else v := by
  cases r with
  | id | version | ctrl | status | cmd | errinfo | ibufSize | obufSize | outLen | flagres | lines | info => cases h
  | ctotal =>
    rw [State.regWrite, State.putOperands_of_idle hidle, if_pos rfl, State.regRead]
    simpa using extractLsb'_shiftLeft_eq_and v 0 8
  | frf k =>
    rw [State.regWrite, State.putOperands_of_idle hidle, if_neg (by simp), State.regRead]
    exact frfGet_frfSet_same _ _ _ k.isLt
  | _ =>
    rw [State.regWrite, State.putOperands_of_idle hidle, if_neg (by simp)]
    rfl

/-- Every other register reads as before. -/
theorem State.regRead_regWrite_other {r' : RegName} (hne : r' ≠ r) : (s.regWrite r v).regRead r' = s.regRead r' := by
  cases r with
  | id | version | ctrl | status | cmd | errinfo | ibufSize | obufSize | outLen | flagres | lines | info => cases h
  | frf k =>
    rw [State.regWrite, State.putOperands_of_idle hidle]
    cases r' with
    | frf k' => exact frfGet_frfSet_other _ _ _ _ fun hk => hne (congrArg _ (Fin.ext hk))
    | _ => rfl
  | _ =>
    -- each other register is a field that the update keeps
    rw [State.regWrite, State.putOperands_of_idle hidle]
    cases r' <;> trivial

end

/-- The addresses of the operands but FRF, and what each reads as, in the map's order. -/
theorem operand_reads (s : State) :
    ((regTable.take 30).filter (fun e => e.2.isOperand)).map (fun e => (BitVec.ofNat 26 e.1, s.regRead e.2)) =
      [(0x0000020#26, s.opr.srcOff), (0x0000024#26, s.opr.srcLen), (0x0000028#26, s.opr.dstOff),
        (0x000002C#26, s.opr.dstCap), (0x0000034#26, s.opr.lineLen), (0x0000038#26, s.opr.lineCnt),
        (0x000003C#26, s.opr.pixCount), (0x0000050#26, s.opr.cmaskR), (0x0000054#26, s.opr.cmaskG),
        (0x0000058#26, s.opr.cmaskB), (0x000005C#26, s.opr.cmaskA), (0x0000060#26, s.opr.cdepth),
        (0x0000064#26, s.opr.ctotal.zeroExtend 32), (0x0000068#26, s.opr.raw), (0x0000070#26, s.opr.compR),
        (0x0000074#26, s.opr.compG), (0x0000078#26, s.opr.compB), (0x000007C#26, s.opr.compA)] := rfl

/-- The register at 0x064 is CTOTAL (R21). -/
theorem regTable_ctotal : ∀ p ∈ regTable, p.2 = .ctotal ↔ p.1 = 0x064 := by decide

/-- The register at 0x010 is CMD (R21). -/
theorem regTable_cmd : ∀ p ∈ regTable, p.2 = .cmd → p.1 = 0x010 := by decide

/-- Settles O26: the offset holds an operand, which takes the write and reads it back; every other register reads as
before, and the buffers are not written. -/
theorem registerWritesAreReadBack : Obligations.RegisterWritesAreReadBack := by
  refine ⟨fun s off v hidle hlost hcmd => ?_, fun s => ⟨fun q hq => ?_, fun k hk => ?_⟩⟩
  · obtain ⟨r, hr⟩ := exists_register_of_lostOffset hlost
    have hkind := (regTable_lostOffset _ hr).symm.trans hlost
    simp only [Bool.or_eq_true, beq_iff_eq] at hkind
    have hoperand : r.isOperand = true := hkind.resolve_right fun h => hcmd (regTable_cmd _ hr h)
    rw [s.hostWrite_register hr]
    constructor
    · rw [State.hostRead_register _ hr, State.regRead_regWrite_same hidle hoperand]
      exact if_congr (regTable_ctotal _ hr) rfl rfl
    · intro a w hne
      obtain ⟨o, hwrite, hibuf⟩ := State.regWrite_operand_frame hidle hoperand v
      refine State.hostRead_congr w (fun r' hw hr' => State.regRead_regWrite_other hidle hoperand v ?_) ?_ ?_ ?_ ?_
      · rintro rfl
        obtain ⟨haddr, hmem⟩ := regTable_of_regAt hw hr'
        exact hne (haddr.trans (congrArg _ (regTable_offset_unique hmem hr)))
      all_goals rw [hwrite]
      exact hibuf
  · rw [← operand_reads] at hq
    obtain ⟨e, he, rfl⟩ := List.mem_map.1 hq
    exact s.hostRead_register (List.mem_of_mem_take (List.mem_filter.1 he).1)
  · exact s.hostRead_register (frf_mem_regTable ⟨k, hk⟩)

/-! ### Buffer windows (spec/20_memory.md R62, R65) -/

section
variable {a : Addr}

theorem offsetOf_lt (a : Addr) : offsetOf a < 2 ^ 24 := (a.extractLsb' 0 24).isLt

/-- The window an address lies in, by its number. -/
theorem windowOf_toNat (a : Addr) :
    (windowOf a = .registers ∧ a.toNat = offsetOf a) ∨ (windowOf a = .ibuf ∧ a.toNat = 0x1000000 + offsetOf a) ∨
      (windowOf a = .obuf ∧ a.toNat = 0x2000000 + offsetOf a) ∨ windowOf a = .unmapped := by
  have hsplit := addr_toNat a
  unfold windowOf
  split
  next h => exact .inl ⟨rfl, by omega⟩
  next h => exact .inr (.inl ⟨rfl, by omega⟩)
  next h => exact .inr (.inr (.inl ⟨rfl, by omega⟩))
  next => exact .inr (.inr (.inr rfl))

theorem admitted_eq_false (off n : Nat) (size : Word) :
    admitted off n size = false ↔ off % n ≠ 0 ∨ size.toNat < off + n := by
  rw [Bool.eq_false_iff, Ne, admitted_eq_true, Decidable.not_and_iff_or_not, Nat.not_le]

/-- A window is a whole number of accesses of every size, so an access is aligned in it as it is in the address
space. -/
theorem mod_widthBytes_of_window (k off : Nat) (w : Width) :
    (k * 0x1000000 + off) % widthBytes w = off % widthBytes w := by
  cases w <;> simp only [widthBytes] <;> omega

theorem widthBytes_pos (w : Width) : 0 < widthBytes w := by
  cases w <;> decide

/-- The buffer that an address of a buffer window belongs to does not admit the access. -/
def Unbacked (s : State) (a : Addr) (n : Nat) : Prop :=
  (windowOf a = .ibuf ∧ admitted (offsetOf a) n s.ibufSize = false) ∨
    (windowOf a = .obuf ∧ admitted (offsetOf a) n s.obufSize = false) ∨ windowOf a = .unmapped

theorem Unbacked.hostRead {s : State} {w : Width} (h : Unbacked s a (widthBytes w)) : s.hostRead a w = 0 := by
  rcases h with ⟨hw, h⟩ | ⟨hw, h⟩ | hw
  · simp only [State.hostRead, hw, h, Bool.false_eq_true, if_false]
  · simp only [State.hostRead, hw, h, Bool.false_eq_true, if_false]
  · simp only [State.hostRead, hw]

theorem Unbacked.hostWrite {s : State} {d : HostData} (h : Unbacked s a (widthBytes (dataWidth d))) :
    s.hostWrite a d = s := by
  rcases h with ⟨hw, h⟩ | ⟨hw, h⟩ | hw
  · simp only [State.hostWrite, hw, h, Bool.false_eq_true, if_false]
  · simp only [State.hostWrite, hw, h, Bool.false_eq_true, if_false]
  · simp only [State.hostWrite, hw]

/-- A misaligned access to a buffer window is not backed (R65). -/
theorem unbacked_of_misaligned (s : State) {w : Width} (ha : 0x1000000 ≤ a.toNat) (h : a.toNat % widthBytes w ≠ 0) :
    Unbacked s a (widthBytes w) := by
  rcases windowOf_toNat a with ⟨-, hoff⟩ | ⟨hw, hoff⟩ | ⟨hw, hoff⟩ | hw
  · have hlt := offsetOf_lt a
    omega
  · rw [hoff, mod_widthBytes_of_window 1] at h
    exact .inl ⟨hw, (admitted_eq_false _ _ _).2 (.inl h)⟩
  · rw [hoff, mod_widthBytes_of_window 2] at h
    exact .inr (.inl ⟨hw, (admitted_eq_false _ _ _).2 (.inl h)⟩)
  · exact .inr (.inr hw)

/-- An access past a buffer's end or to the unmapped window is not backed (R62, R63). -/
theorem unbacked_of_past_end {s : State} (w : Width)
    (h : 0x1000000 + s.ibufSize.toNat ≤ a.toNat ∧ a.toNat < 0x2000000 ∨
      0x2000000 + s.obufSize.toNat ≤ a.toNat ∧ a.toNat < 0x3000000 ∨ 0x3000000 ≤ a.toNat) :
    Unbacked s a (widthBytes w) := by
  have hlt := offsetOf_lt a
  have hpos := widthBytes_pos w
  rcases windowOf_toNat a with ⟨-, hoff⟩ | ⟨hw, hoff⟩ | ⟨hw, hoff⟩ | hw
  · omega
  · exact .inl ⟨hw, (admitted_eq_false _ _ _).2 (.inr (by omega))⟩
  · exact .inr (.inl ⟨hw, (admitted_eq_false _ _ _).2 (.inr (by omega))⟩)
  · exact .inr (.inr hw)

end

/-- Settles O30: both kinds of access are unbacked, whatever their size. -/
theorem unbackedAccessesReadZero : Obligations.UnbackedAccessesReadZero := by
  intro s a w d
  exact ⟨fun ha => ⟨fun h => (unbacked_of_misaligned s ha h).hostRead,
      fun h => (unbacked_of_misaligned s ha h).hostWrite⟩,
    fun h => ⟨(unbacked_of_past_end w h).hostRead, (unbacked_of_past_end (dataWidth d) h).hostWrite⟩⟩

/-! ### Buffers written and read back (R64) -/

/-- A write's bytes are those of its datum, the least significant first. -/
theorem dataBytes_eq_leBytes (d : HostData) : dataBytes d = leBytes (widthBytes (dataWidth d)) (dataWord d).toNat := by
  cases d with
  | d8 v | d16 v =>
    have hlt := v.isLt
    simp only [dataBytes, dataWord, dataWidth, widthBytes, BitVec.zeroExtend, BitVec.toNat_setWidth]
    rw [Nat.mod_eq_of_lt (by omega)]
  | d32 v => rfl

theorem dataWord_lt (d : HostData) : (dataWord d).toNat < 256 ^ widthBytes (dataWidth d) := by
  cases d with
  | d8 v | d16 v =>
    have hlt := v.isLt
    simp only [dataWord, dataWidth, widthBytes, BitVec.zeroExtend, BitVec.toNat_setWidth]
    omega
  | d32 v => exact v.isLt

/-- A write's bytes make up its datum. -/
theorem ofNat_le_dataBytes (d : HostData) : BitVec.ofNat 32 (le (dataBytes d)) = dataWord d := by
  rw [dataBytes_eq_leBytes, le_leBytes, Nat.mod_eq_of_lt (dataWord_lt d), BitVec.ofNat_toNat, BitVec.setWidth_eq]

/-- IBUF: a host write is read back as its datum. -/
theorem Memory.ibufBytes_dataBytes (m : Memory) (off : Nat) (d : HostData) :
    BitVec.ofNat 32 (le ((m.writeBytes off (dataBytes d)).ibufBytes off (widthBytes (dataWidth d)))) = dataWord d := by
  rw [← dataBytes_length, Memory.ibufBytes_writeBytes, ofNat_le_dataBytes]

/-- OBUF: a host write is read back as its datum. -/
theorem Memory.obufBytes_dataBytes (m : Memory) (off : Nat) (d : HostData) :
    BitVec.ofNat 32 (le ((m.writeBytes off (dataBytes d)).obufBytes off (widthBytes (dataWidth d)))) = dataWord d := by
  rw [← dataBytes_length, Memory.obufBytes_writeBytes, ofNat_le_dataBytes]

/-- Byte `j` of a write is byte `j` of its datum. -/
theorem dataBytes_getElem (d : HostData) {j : Nat} (hj : j < (dataBytes d).length) :
    (dataBytes d)[j] = (dataWord d).extractLsb' (8 * j) 8 := by
  simp only [dataBytes_eq_leBytes, leBytes_getElem, extractLsb'_eq_ofNat]

section
variable {s : State} {off : Nat} (hoff : off < 2 ^ 24)
include hoff

theorem State.hostRead_ibuf {w : Width} (h : admitted off (widthBytes w) s.ibufSize = true) :
    s.hostRead (BitVec.ofNat 26 (0x1000000 + off)) w =
      BitVec.ofNat 32 (le (s.opr.ibuf.ibufBytes off (widthBytes w))) := by
  simp only [State.hostRead, windowOf_ibuf hoff, offsetOf_ibuf hoff, h, if_true]

theorem State.hostRead_obuf {w : Width} (h : admitted off (widthBytes w) s.obufSize = true) :
    s.hostRead (BitVec.ofNat 26 (0x2000000 + off)) w =
      BitVec.ofNat 32 (le (s.obuf.obufBytes off (widthBytes w))) := by
  simp only [State.hostRead, windowOf_obuf hoff, offsetOf_obuf hoff, h, if_true]

theorem State.hostWrite_ibuf (hidle : s.busy = false) {d : HostData}
    (h : admitted off (widthBytes (dataWidth d)) s.ibufSize = true) :
    s.hostWrite (BitVec.ofNat 26 (0x1000000 + off)) d =
      { s with opr := { s.opr with ibuf := s.opr.ibuf.writeBytes off (dataBytes d) } } := by
  simp only [State.hostWrite, windowOf_ibuf hoff, offsetOf_ibuf hoff, h, if_true, State.putOperands_of_idle hidle]

theorem State.hostWrite_obuf (hidle : s.busy = false) {d : HostData}
    (h : admitted off (widthBytes (dataWidth d)) s.obufSize = true) :
    s.hostWrite (BitVec.ofNat 26 (0x2000000 + off)) d = { s with obuf := s.obuf.writeBytes off (dataBytes d) } := by
  simp only [State.hostWrite, windowOf_obuf hoff, offsetOf_obuf hoff, h, if_true, State.putObuf_of_idle hidle]

end

/-- Settles O31: the access is admitted, a read answers the buffer's bytes, and a write stores the datum's. -/
theorem bufferWritesAreReadBack : Obligations.BufferWritesAreReadBack := by
  refine ⟨fun s w off halign hoff => ⟨fun hfit => ?_, fun hfit => ?_⟩,
    fun s d off hidle halign => ⟨fun hfit hoff => ?_, fun hfit hoff => ?_⟩⟩
  · exact State.hostRead_ibuf hoff ((admitted_eq_true _ _ _).2 ⟨halign, hfit⟩)
  · exact State.hostRead_obuf hoff ((admitted_eq_true _ _ _).2 ⟨halign, hfit⟩)
  · have hadmitted := (admitted_eq_true _ _ _).2 ⟨halign, hfit⟩
    refine ⟨_, State.hostWrite_ibuf hoff hidle hadmitted, ?_, fun j hj => ?_, fun x hx => ?_, rfl⟩
    · refine (State.hostRead_ibuf hoff ?_).trans (Memory.ibufBytes_dataBytes _ off d)
      exact hadmitted
    · rw [← dataBytes_length] at hj
      rw [Memory.ibufByte_writeBytes_inside _ _ _ j hj, dataBytes_getElem]
    · exact Memory.ibufByte_writeBytes_outside _ _ _ x (by rwa [dataBytes_length])
  · have hadmitted := (admitted_eq_true _ _ _).2 ⟨halign, hfit⟩
    refine ⟨_, State.hostWrite_obuf hoff hidle hadmitted, ?_, fun j hj => ?_, fun x hx => ?_, rfl⟩
    · refine (State.hostRead_obuf hoff ?_).trans (Memory.obufBytes_dataBytes _ off d)
      exact hadmitted
    · rw [← dataBytes_length] at hj
      rw [Memory.obufByte_writeBytes_inside _ _ _ j hj, dataBytes_getElem]
    · exact Memory.obufByte_writeBytes_outside _ _ _ x (by rwa [dataBytes_length])

end Sys2Proof.Machine
end

section
/-! SUPPORT. The header unit (spec/41_header.md): HDR_DECODE and HDR_ENCODE slot by slot (R130, R135) and the flag
commands (R140, R145). -/

namespace Sys2Proof.Machine

/-! ### Sizes that do not fit (spec/40_command.md R110, R112) -/

theorem checkInput_of_lt {o : Operands} {need : Nat} (h : o.srcLen.toNat < need) :
    checkInput o need = some ⟨.truncatedInput, sat32 need⟩ :=
  (raiseIf_eq_some _ _ _).2 ⟨decide_eq_true h, rfl⟩

theorem checkOutput_of_lt {o : Operands} {need : Nat} (h : o.dstCap.toNat < need) :
    checkOutput o need = some ⟨.outputOverflow, sat32 need⟩ :=
  (raiseIf_eq_some _ _ _).2 ⟨decide_eq_true h, rfl⟩

/-- A layout's size is reported as it is. -/
theorem sat32_layoutSize (l : Layout) : sat32 (layoutSize l) = BitVec.ofNat 32 (layoutBytes l) := by
  cases l <;> rfl

/-! ### HDR_DECODE -/

/-- A slot that the layout does not name keeps its value (R130). -/
theorem frfGet_decodeFields_other (frf : Vector Word 14) {l : Layout} (b : List Byte) {k : Nat}
    (h : ∀ p ∈ slotTable l, p.1 ≠ k) : frfGet (frfSetAll frf (decodeFields l b)) k = frfGet frf k := by
  refine frfGet_frfSetAll_other _ _ _ fun q hq => ?_
  rw [decodeFields_eq_map] at hq
  obtain ⟨p, hp, rfl⟩ := List.mem_map.1 hq
  exact h p hp

/-- Settles O33: HDR_DECODE succeeds, with the decoded slots as its only writes. -/
theorem hdrDecodeFillsTheSlots : Obligations.HdrDecodeFillsTheSlots := by
  intro s l hsrc hlen
  rw [layoutBytes_eq_layoutSize] at hlen
  refine ⟨_, exec_hdrDecode_of_fits hsrc hlen, rfl, fun p hp => ?_, fun k hk => frfGet_decodeFields_other _ _ hk⟩
  obtain ⟨-, -, hinside⟩ := slotTable_bounds l p hp
  refine (frfGet_decodeFields _ _ _ hp).trans ?_
  rw [srcBytes_slice _ hinside]
  rfl

/-- Settles O34: the window check passes and the input check fails. -/
theorem hdrDecodeOfAShortWindowFails : Obligations.HdrDecodeOfAShortWindowFails := by
  intro s l hsrc hlen
  have herror : firstError (hdrDecodeChecks l s.captured s.ibufSize) =
      some ⟨.truncatedInput, BitVec.ofNat 32 (layoutBytes l)⟩ := by
    rw [layoutBytes_eq_layoutSize] at hlen
    rw [hdrDecodeChecks, (checkSrc_eq_none _ _).2 hsrc, checkInput_of_lt hlen, firstError_none_cons, firstError_some,
      sat32_layoutSize]
  simp only [exec, execHdrDecode, layoutOfBits_layoutNumber, State.conclude_of_error herror, State.fail_eq_ended]

/-! ### HDR_ENCODE: the bytes -/

/-- The slot whose bytes include byte `i` of the layout. -/
def slotAt (l : Layout) (i : Nat) : Option (Nat × Nat × Nat) :=
  (slotTable l).find? (fun p => decide (p.2.1 ≤ i) && decide (i < p.2.1 + p.2.2))

/-- Byte `i` of the layout, from the slot it belongs to (R126, R127; tied to the model by
`encodeFields_eq_slotBytes`). -/
def slotByte (l : Layout) (frf : Vector Word 14) (i : Nat) : Byte :=
  match slotAt l i with
  | some p => BitVec.ofNat 8 ((frfGet frf p.1).toNat / 256 ^ (i - p.2.1))
  | none => 0

/-- No byte belongs to two slots. -/
theorem slotAt_of_mem (l : Layout) : ∀ p ∈ slotTable l, ∀ i ∈ List.range' p.2.1 p.2.2, slotAt l i = some p := by
  cases l <;> decide

theorem coveredByte_of_mem (l : Layout) : ∀ p ∈ slotTable l, ∀ i ∈ List.range' p.2.1 p.2.2, coveredByte l i = true := by
  cases l <;> decide

/-- A slot's bytes are its value's, the least significant first. -/
theorem leBytes_eq_slotBytes (l : Layout) (frf : Vector Word 14) {p : Nat × Nat × Nat} (hp : p ∈ slotTable l) :
    leBytes p.2.2 (frfGet frf p.1).toNat = (List.range' p.2.1 p.2.2).map (slotByte l frf) := by
  apply List.ext_getElem
  · simp
  · intro j hj _
    rw [leBytes_length] at hj
    have hslot : slotAt l (p.2.1 + j) = some p := slotAt_of_mem l p hp _ (by simp [hj])
    simp [leBytes_getElem, slotByte, hslot]

/-- The encoded layout: each slot's bytes at their place, and zeros as padding. -/
theorem encodeFields_eq_slotBytes (l : Layout) (frf : Vector Word 14) :
    encodeFields l frf =
      (List.range (layoutSize l)).map (fun i => if coveredByte l i then slotByte l frf i else 0) :=
  encodeFields_eq_map fun _ hp => leBytes_eq_slotBytes l frf hp

/-- OBUF after the encoded layout is written, byte by byte. -/
theorem Memory.obufByte_encodeFields (m : Memory) (off : Nat) (l : Layout) (frf : Vector Word 14) {i : Nat}
    (hi : i < layoutSize l) : (m.writeBytes off (encodeFields l frf)).obufByte (off + i) =
      if coveredByte l i then slotByte l frf i else 0 := by
  rw [Memory.obufByte_writeBytes_inside _ _ _ i (by rwa [encodeFields_length])]
  simp only [encodeFields_eq_slotBytes, List.getElem_map, List.getElem_range]

/-- OBUF after the encoded layout is written, slot by slot. -/
theorem Memory.obufBytes_encodeFields (m : Memory) (off : Nat) (l : Layout) (frf : Vector Word 14)
    {p : Nat × Nat × Nat} (hp : p ∈ slotTable l) :
    (m.writeBytes off (encodeFields l frf)).obufBytes (off + p.2.1) p.2.2 =
      leBytes p.2.2 (frfGet frf p.1).toNat := by
  obtain ⟨-, -, hinside⟩ := slotTable_bounds l p hp
  rw [leBytes_eq_slotBytes l frf hp, List.range'_eq_map_range, List.map_map, Memory.obufBytes]
  refine List.map_congr_left fun j hj => ?_
  have hj : j < p.2.2 := List.mem_range.1 hj
  have hcovered : coveredByte l (p.2.1 + j) = true := coveredByte_of_mem l p hp _ (by simp [hj])
  rw [Nat.add_assoc, Memory.obufByte_encodeFields _ _ _ _ (by omega), if_pos hcovered]
  rfl

/-- Settles O35: HDR_ENCODE succeeds, with the encoded layout as its only output. -/
theorem hdrEncodeWritesTheHeader : Obligations.HdrEncodeWritesTheHeader := by
  intro s l hdst hfit hcap
  rw [layoutBytes_eq_layoutSize] at hcap ⊢
  have hlen := encodeFields_length l s.captured.frf
  refine ⟨_, exec_hdrEncode_of_fits hdst hfit hcap, ?_, fun p hp => Memory.obufBytes_encodeFields _ _ _ _ hp,
    fun i hi hpad => ?_, ?_⟩
  · rw [State.succeed_obuf_only, hlen]
  · exact (Memory.obufByte_encodeFields _ _ _ _ hi).trans (if_neg (Bool.eq_false_iff.1 hpad))
  · exact hlen ▸ s.sameOutside_succeed (encodeFields l s.captured.frf)

/-! ### HDR_ENCODE: the first field that overflows -/

/-- A slot's value does not fit the bytes the layout gives it (R135). -/
def slotOverflows (frf : Vector Word 14) (p : Nat × Nat × Nat) : Bool :=
  decide (256 ^ p.2.2 ≤ (frfGet frf p.1).toNat)

theorem slotOverflows_eq_true (frf : Vector Word 14) (p : Nat × Nat × Nat) :
    slotOverflows frf p = true ↔ ¬ slotFits frf p := by
  rw [slotOverflows, decide_eq_true_eq, slotFits, Nat.not_lt]

theorem slotOverflows_eq_false (frf : Vector Word 14) (p : Nat × Nat × Nat) :
    slotOverflows frf p = false ↔ slotFits frf p := by
  rw [slotOverflows, decide_eq_false_iff_not, slotFits, Nat.not_le]

/-- Four bytes or more hold every slot's value. -/
theorem slotOverflows_of_four_le (frf : Vector Word 14) {p : Nat × Nat × Nat} (h : 4 ≤ p.2.2) :
    slotOverflows frf p = false := by
  have hpow : 256 ^ 4 ≤ 256 ^ p.2.2 := Nat.pow_le_pow_right (by decide) h
  have hlt := (frfGet frf p.1).isLt
  rw [slotOverflows, decide_eq_false_iff_not]
  omega

/-- Only an integer field's slot can overflow, and it does when the field does. -/
theorem find?_fieldSlots (frf : Vector Word 14) (f : Field) : (fieldSlots f).find? (slotOverflows frf) =
    if fieldOverflows frf f then some (f.slot, f.off, f.width) else none := by
  unfold fieldSlots fieldOverflows
  cases f.kind with
  | int =>
    have hpow : 2 ^ (8 * f.width) = 256 ^ f.width := Nat.pow_mul 2 8 f.width
    have hover : slotOverflows frf (f.slot, f.off, f.width) =
        (decide (f.width < 4) && decide (2 ^ (8 * f.width) ≤ (frfGet frf f.slot).toNat)) := by
      by_cases hw : f.width < 4
      · simp [slotOverflows, hw, hpow]
      · simp [slotOverflows_of_four_le, hw, Nat.not_lt.1 hw]
    simp [List.find?_singleton, hover]
  | bytes =>
    have hnone : ∀ p ∈ (List.range (f.width / 4)).map (fun j => (f.slot + j, f.off + 4 * j, 4)),
        ¬ slotOverflows frf p = true := by
      intro p hp
      obtain ⟨j, -, rfl⟩ := List.mem_map.1 hp
      simp [slotOverflows_of_four_le]
    simpa using hnone
  | padding => rfl

/-- The first field that overflows holds the first slot that does. -/
theorem find?_flatMap_fieldSlots (frf : Vector Word 14) (fs : List Field) :
    (fs.find? (fieldOverflows frf)).map (fun f => f.slot) =
      ((fs.flatMap fieldSlots).find? (slotOverflows frf)).map (fun p => p.1) := by
  induction fs with
  | nil => rfl
  | cons f fs ih =>
    rw [List.flatMap_cons, List.find?_append, find?_fieldSlots]
    cases hover : fieldOverflows frf f with
    | true => simp [hover]
    | false => simpa [hover] using ih

/-- FIELD_OVERFLOW names the first slot of the layout that does not fit (R135). -/
theorem checkFields_of_first_overflow {l : Layout} {frf : Vector Word 14} {before after : List (Nat × Nat × Nat)}
    {p : Nat × Nat × Nat} (hsplit : slotTable l = before ++ p :: after) (hbefore : ∀ q ∈ before, slotFits frf q)
    (hp : ¬ slotFits frf p) : checkFields l frf = some ⟨.fieldOverflow, BitVec.ofNat 32 p.1⟩ := by
  have hfind : (slotTable l).find? (slotOverflows frf) = some p := by
    rw [List.find?_eq_some_iff_append]
    refine ⟨(slotOverflows_eq_true frf p).2 hp, before, after, hsplit, fun q hq => ?_⟩
    simpa [slotOverflows_eq_false] using hbefore q hq
  have hslot := find?_flatMap_fieldSlots frf (layoutFields l)
  rw [← slotTable_eq_flatMap, hfind, Option.map_some, Option.map_eq_some_iff] at hslot
  obtain ⟨f, hf, hfp⟩ := hslot
  rw [checkFields, hf, Option.map_some, hfp]

/-- Settles O36: the field check fails, or passes and the output check fails. -/
theorem hdrEncodeReportsTheFirstOverflow : Obligations.HdrEncodeReportsTheFirstOverflow := by
  intro s l hdst
  have hexec {code : ErrCode} {info : Word}
      (h : firstError [checkFields l s.captured.frf, checkOutput s.captured (layoutSize l)] = some ⟨code, info⟩) :
      exec (.hdrEncode (layoutNumber l)) s = .next (s.ended 0 code info) := by
    have herror : firstError (hdrEncodeChecks l s.captured s.obufSize) = some ⟨code, info⟩ := by
      rw [hdrEncodeChecks, (checkDst_eq_none _ _).2 hdst, firstError_none_cons, h]
    simp only [exec, execHdrEncode, layoutOfBits_layoutNumber, State.conclude_of_error herror, State.fail_eq_ended]
  refine ⟨fun before p after hsplit hbefore hp => hexec ?_, fun hfit hcap => ?_⟩
  · rw [checkFields_of_first_overflow hsplit hbefore hp, firstError_some]
  · rw [layoutBytes_eq_layoutSize] at hcap
    rw [← sat32_layoutSize]
    refine hexec ?_
    rw [checkFields_of_slotFits hfit, firstError_none_cons, checkOutput_of_lt hcap, firstError_some]

/-! ### Flags (R128, R140, R145) -/

/-- The outer header's flags stand in slot 4: bits 0 and 2 to 5 (R128). -/
theorem namedFlag_stiHeader : ∀ i : BitVec 5,
    namedFlag .stiHeader i.toNat = if i.toNat ∈ [0, 2, 3, 4, 5] then some 4 else none := by decide

/-- The tile record's flags stand in slot 5: bits 0 to 5 (R128). -/
theorem namedFlag_tile : ∀ i : BitVec 5, namedFlag .tile i.toNat = if i.toNat ≤ 5 then some 5 else none := by decide

section
variable {layout : BitVec 4} {l : Layout} {i : BitVec 5} (hl : layoutOfBits layout = some l) (s : State)
include hl

theorem exec_flagGet_of_named {slot : Nat} (hnamed : namedFlag l i.toNat = some slot) : exec (.flagGet layout i) s =
    .next { s.ended 0 .none 0 with flagres := (frfGet s.captured.frf slot).getLsbD i.toNat } := by
  simp only [exec, execFlagGet, hl, hnamed]
  rfl

theorem exec_flagPut_of_named {slot : Nat} (hnamed : namedFlag l i.toNat = some slot) (v : Bool) :
    exec (.flagPut layout i v) s = .next { s.ended 0 .none 0 with opr := { s.opr with
      frf := frfSet s.opr.frf slot (putBit (frfGet s.captured.frf slot) i.toNat v) } } := by
  simp only [exec, execFlagPut, hl, hnamed]
  rfl

theorem exec_flag_of_unnamed (hnamed : namedFlag l i.toNat = none) (v : Bool) :
    exec (.flagGet layout i) s = .next (s.ended 0 .unknownFlag (BitVec.ofNat 32 i.toNat)) ∧
      exec (.flagPut layout i v) s = .next (s.ended 0 .unknownFlag (BitVec.ofNat 32 i.toNat)) := by
  simp [exec, execFlagGet, execFlagPut, hl, hnamed, unknownFlag, State.fail_eq_ended]

end

/-- Settles O38: the named flag's slot is 4 for the outer header and 5 for the tile record. -/
theorem flagGetReadsTheFlag : Obligations.FlagGetReadsTheFlag := by
  intro s i
  exact ⟨fun hi => exec_flagGet_of_named (l := .stiHeader) rfl s ((namedFlag_stiHeader i).trans (if_pos hi)),
    fun hi => exec_flagGet_of_named (l := .tile) rfl s ((namedFlag_tile i).trans (if_pos hi))⟩

theorem getLsbD_bitAt (b : Bool) (i : Nat) {j : Nat} (hj : j < 32) :
    (bitAt b i).getLsbD j = (decide (j = i) && b) := by
  rw [bitAt, BitVec.getLsbD_shiftLeft, BitVec.getLsbD_setWidth, BitVec.getLsbD_ofBool]
  by_cases h : j = i
  · simp [h, show i < 32 by omega]
  · by_cases hlow : j < i
    · simp [h, hlow]
    · simp [h, show ¬ j - i = 0 by omega]

/-- Bit `i` is replaced, and the others are kept. -/
theorem getLsbD_putBit (x : Word) (i : Nat) (v : Bool) {j : Nat} (hj : j < 32) :
    (putBit x i v).getLsbD j = if j = i then v else x.getLsbD j := by
  rw [putBit, BitVec.getLsbD_or, BitVec.getLsbD_and, BitVec.getLsbD_not, getLsbD_bitAt _ _ hj, getLsbD_bitAt _ _ hj]
  by_cases h : j = i <;> simp [h, hj]

/-- Settles O39: the named flag's slot takes the slot value with the flag's bit replaced. -/
theorem flagPutWritesTheFlag : Obligations.FlagPutWritesTheFlag := by
  intro s layout slot i v hflag
  obtain ⟨l, hl, hnamed, hslot⟩ : ∃ l, layoutOfBits layout = some l ∧ namedFlag l i.toNat = some slot ∧ slot < 14 := by
    rcases hflag with ⟨rfl, rfl, hi⟩ | ⟨rfl, rfl, hi⟩
    · exact ⟨.stiHeader, rfl, (namedFlag_stiHeader i).trans (if_pos hi), by decide⟩
    · exact ⟨.tile, rfl, (namedFlag_tile i).trans (if_pos hi), by decide⟩
  refine ⟨_, exec_flagPut_of_named hl s hnamed v, rfl, fun j hj => ?_, fun k hk => frfGet_frfSet_other _ _ _ _ hk⟩
  exact (congrArg (·.getLsbD j) (frfGet_frfSet_same _ _ _ hslot)).trans (getLsbD_putBit _ _ _ hj)

/-- Settles O40: no flag of the layout has the bit, or the layout has no flags. -/
theorem unnamedFlagsAreUnknown : Obligations.UnnamedFlagsAreUnknown := by
  intro s layout i v h
  rcases h with ⟨rfl, hi⟩ | rfl | rfl | rfl | ⟨rfl, hi⟩
  · refine exec_flag_of_unnamed (l := .stiHeader) rfl s ((namedFlag_stiHeader i).trans (if_neg ?_)) v
    simp only [List.mem_cons, List.not_mem_nil, or_false]
    omega
  · exact exec_flag_of_unnamed (l := .truecolorSub) rfl s rfl v
  · exact exec_flag_of_unnamed (l := .indexedSub) rfl s rfl v
  · exact exec_flag_of_unnamed (l := .subImage) rfl s rfl v
  · exact exec_flag_of_unnamed (l := .tile) rfl s ((namedFlag_tile i).trans (if_neg (by omega))) v

end Sys2Proof.Machine
end

section
/-! SUPPORT. The colour converter's errors (spec/42_color.md R162, R169, R171, R172): the order of its checks. -/

namespace Sys2Proof.Machine

section
variable {s : State}

/-- What CSPEC_VALIDATE reports is the first error of Validate (R163). -/
theorem firstError_validate_of_exec {k : Word} (h : exec .cspecValidate s = .next (s.ended 0 .invalidSpec k)) :
    firstError (validate (colorSpec s.captured)) = some ⟨.invalidSpec, k⟩ := by
  have hexec : s.conclude (validate (colorSpec s.captured)) {} = s.ended 0 .invalidSpec k := Host.Outcome.next.inj h
  rcases s.conclude_cases (validate (colorSpec s.captured)) {} with ⟨e, he, hfail⟩ | ⟨-, hok⟩
  · have hended : s.fail e = s.ended 0 .invalidSpec k := hfail.symm.trans hexec
    have hcode : e.code = .invalidSpec := congrArg State.errcode hended
    have hinfo : e.info = k := congrArg State.errinfo hended
    rw [he, ← hcode, ← hinfo]
  · have hcode : ErrCode.none = .invalidSpec := congrArg State.errcode (hok.symm.trans hexec)
    cases hcode

/-- PIX_UNPACK concludes with Validate (R168). -/
theorem exec_pixUnpack_eq (s : State) : exec .pixUnpack s = .next (s.conclude (validate (colorSpec s.captured))
    { comp := some (unpackedWords (colorSpec s.captured) s.captured.raw) }) := rfl

/-- PIX_PACK concludes with Validate and the four components (R169). -/
theorem exec_pixPack_eq (s : State) : exec .pixPack s = .next (s.conclude (pixPackChecks s.captured)
    { raw := some (packPixel (colorSpec s.captured) s.captured.compR.toNat s.captured.compG.toNat
        s.captured.compB.toNat s.captured.compA.toNat) }) := rfl

/-- With windows that fit, a pixel stream command validates the spec and then looks at the sizes (R171, R172). -/
theorem firstError_pixStreamChecks (hsrc : SrcFits s) (hdst : DstFits s) (input output : Nat) :
    firstError (pixStreamChecks s.captured s.ibufSize s.obufSize input output) =
      (firstError (validate (colorSpec s.captured))).or
        (firstError [checkInput s.captured input, checkOutput s.captured output]) := by
  rw [pixStreamChecks, firstError_append, firstError_append, windowChecks_of_fits hsrc hdst, Option.none_or]

/-- Settles O44: Validate's error is the first of each command's checks, but for the windows. -/
theorem colourCommandsValidateFirst : Obligations.ColourCommandsValidateFirst := by
  intro s k h
  have hvalidate := firstError_validate_of_exec h
  have hpack : firstError (pixPackChecks s.captured) = some ⟨.invalidSpec, k⟩ := by
    rw [pixPackChecks, firstError_append, hvalidate, Option.some_or]
  refine ⟨?_, ?_, fun hsrc hdst => ?_⟩
  · rw [exec_pixUnpack_eq, State.conclude_of_error hvalidate, State.fail_eq_ended]
  · rw [exec_pixPack_eq, State.conclude_of_error hpack, State.fail_eq_ended]
  · have hstream (input output : Nat) :
        firstError (pixStreamChecks s.captured s.ibufSize s.obufSize input output) = some ⟨.invalidSpec, k⟩ := by
      rw [firstError_pixStreamChecks hsrc hdst, hvalidate, Option.some_or]
    rw [exec_pixDecode_eq, exec_pixEncode_eq, State.conclude_of_error (hstream _ _),
      State.conclude_of_error (hstream _ _), State.fail_eq_ended]
    exact ⟨rfl, rfl⟩

/-! ### Components above 255 (R169) -/

theorem checkComponent_of_lt {x : Word} (k : Word) (h : 255 < x.toNat) :
    checkComponent x k = some ⟨.invalidComponent, k⟩ :=
  (raiseIf_eq_some _ _ _).2 ⟨decide_eq_true h, rfl⟩

/-- With a valid spec, PIX_PACK reports the first error of the components. -/
theorem exec_pixPack_of_component {k : Word} (h : SpecValid (colorSpec s.captured))
    (herror : firstError [checkComponent s.captured.compR 0, checkComponent s.captured.compG 1,
      checkComponent s.captured.compB 2, checkComponent s.captured.compA 3] = some ⟨.invalidComponent, k⟩) :
    exec .pixPack s = .next (s.ended 0 .invalidComponent k) := by
  have hchecks : firstError (pixPackChecks s.captured) = some ⟨.invalidComponent, k⟩ := by
    rw [pixPackChecks, firstError_append, h.firstError_validate, Option.none_or, herror]
  rw [exec_pixPack_eq, State.conclude_of_error hchecks, State.fail_eq_ended]

end

/-- Settles O47: the components before the first large one pass their checks. -/
theorem pixPackRejectsLargeComponents : Obligations.PixPackRejectsLargeComponents := by
  intro s hvalid
  refine ⟨fun hr => exec_pixPack_of_component hvalid ?_, fun hr hg => exec_pixPack_of_component hvalid ?_,
    fun hr hg hb => exec_pixPack_of_component hvalid ?_, fun hr hg hb ha => exec_pixPack_of_component hvalid ?_⟩
  · rw [checkComponent_of_lt 0 hr, firstError_some]
  · rw [(checkComponent_eq_none _ 0).2 hr, checkComponent_of_lt 1 hg]
    rfl
  · rw [(checkComponent_eq_none _ 0).2 hr, (checkComponent_eq_none _ 1).2 hg, checkComponent_of_lt 2 hb]
    rfl
  · rw [(checkComponent_eq_none _ 0).2 hr, (checkComponent_eq_none _ 1).2 hg, (checkComponent_eq_none _ 2).2 hb,
      checkComponent_of_lt 3 ha]
    rfl

/-! ### Streams that do not fit (R171, R172) -/

section
variable {s : State} (hvalid : SpecValid (colorSpec s.captured)) (hsrc : SrcFits s) (hdst : DstFits s)
  {input output : Nat}
include hvalid hsrc hdst

theorem pixStreamChecks_of_short_input (h : s.captured.srcLen.toNat < input) :
    firstError (pixStreamChecks s.captured s.ibufSize s.obufSize input output) =
      some ⟨.truncatedInput, sat32 input⟩ := by
  rw [firstError_pixStreamChecks hsrc hdst, hvalid.firstError_validate, checkInput_of_lt h, Option.none_or,
    firstError_some]

theorem pixStreamChecks_of_small_budget (hin : input ≤ s.captured.srcLen.toNat) (h : s.captured.dstCap.toNat < output) :
    firstError (pixStreamChecks s.captured s.ibufSize s.obufSize input output) =
      some ⟨.outputOverflow, sat32 output⟩ := by
  rw [firstError_pixStreamChecks hsrc hdst, hvalid.firstError_validate, (checkInput_eq_none _ _).2 hin,
    checkOutput_of_lt h, Option.none_or, firstError_none_cons, firstError_some]

end

/-- Settles O51: the checks before the failing one pass, and it reports its size. -/
theorem pixelStreamsReportTheSizeNeeded : Obligations.PixelStreamsReportTheSizeNeeded := by
  rintro s n bpp hvalid htotal hsrc hdst rfl
  rw [exec_pixDecode_eq, exec_pixEncode_eq, bytesPerPixel_eq htotal]
  refine ⟨fun h => ?_, fun hin h => ?_, fun h => ?_, fun hin h => ?_⟩
  · rw [State.conclude_of_error (pixStreamChecks_of_short_input hvalid hsrc hdst h)]
    rfl
  · rw [State.conclude_of_error (pixStreamChecks_of_small_budget hvalid hsrc hdst hin h)]
    rfl
  · rw [State.conclude_of_error (pixStreamChecks_of_short_input hvalid hsrc hdst h)]
    rfl
  · rw [State.conclude_of_error (pixStreamChecks_of_small_budget hvalid hsrc hdst hin h)]
    rfl

end Sys2Proof.Machine
end

section
/-! SUPPORT. ETRLE compression (spec/43_etrle.md R201 to R204): the runs of a line, as records of spec/30_encoding.md
R89, and the three facts about them: what they stand for, which bytes they hold, and how long they are. -/

namespace Sys2Proof.Machine

/-! ### Runs (R203's inner loops) -/

/-- A run from `i` on: bytes that belong, up to one that does not, the end, or the cap. -/
theorem runLength_spec (belongs : Nat → Bool) (n cap i : Nat) :
    runLength belongs n cap i ≤ cap ∧
      (∀ j < runLength belongs n cap i, i + j < n ∧ belongs (i + j) = true) ∧
      (runLength belongs n cap i < cap → i + runLength belongs n cap i < n →
        belongs (i + runLength belongs n cap i) = false) := by
  induction cap generalizing i with
  | zero => simp [runLength]
  | succ cap ih =>
    obtain ⟨hle, hin, hmax⟩ := ih (i + 1)
    unfold runLength
    split
    next h =>
      rw [Bool.and_eq_true, decide_eq_true_eq] at h
      refine ⟨by omega, fun j hj => ?_, fun hlt hend => ?_⟩
      · cases j with
        | zero => exact h
        | succ j => simpa only [Nat.add_assoc, Nat.add_comm 1] using hin j (by omega)
      · rw [← Nat.add_assoc, Nat.add_right_comm] at hend ⊢
        exact hmax (by omega) hend
    next h =>
      refine ⟨by omega, fun j hj => by omega, fun _ hend => ?_⟩
      simpa [show i < n from hend] using h

theorem runLength_pos {belongs : Nat → Bool} {n i : Nat} (hi : i < n) (h : belongs i = true) :
    1 ≤ runLength belongs n runCap i := by
  rw [runCap, runLength, if_pos (by simp [hi, h])]
  omega

/-! ### The bytes of a line (R202) -/

section
variable {line : List Byte} {i j : Nat}

theorem isolated_iff : isolated line j = true ↔ lineByte line j = 0 ∧ 0 < j ∧ lineByte line (j - 1) ≠ 0 ∧
    j + 1 < line.length ∧ lineByte line (j + 1) ≠ 0 := by
  simp only [isolated, Bool.and_eq_true, beq_iff_eq, bne_iff_ne, decide_eq_true_eq, and_assoc]

theorem zeroAt_iff : zeroAt line j = true ↔ lineByte line j = 0 := beq_iff_eq

theorem zeroAt_eq_false_iff : zeroAt line j = false ↔ lineByte line j ≠ 0 := beq_eq_false_iff_ne

theorem literalAt_iff : literalAt line j = true ↔ (lineByte line j = 0 → isolated line j = true) := by
  rw [literalAt, Bool.or_eq_true, bne_iff_ne, imp_iff_not_or]

theorem literalAt_eq_false_iff : literalAt line j = false ↔ lineByte line j = 0 ∧ ¬ isolated line j = true := by
  rw [← Bool.not_eq_true, literalAt_iff, Classical.not_imp]

/-- A zero right after a zero is not isolated. -/
theorem literalAt_succ_of_zeros (h : lineByte line j = 0) (hs : lineByte line (j + 1) = 0) :
    literalAt line (j + 1) = false := by
  refine literalAt_eq_false_iff.2 ⟨hs, fun hiso => ?_⟩
  obtain ⟨-, -, hleft, -⟩ := isolated_iff.1 hiso
  exact hleft h

/-- A zero that is not isolated, right after a literal byte and not at the line's end, is followed by a zero. -/
theorem lineByte_of_zero_after_literal (h : literalAt line j = true) (hs : literalAt line (j + 1) = false)
    (hlt : j + 1 + 1 < line.length) : lineByte line (j + 1 + 1) = 0 := by
  obtain ⟨hzero, hnot⟩ := literalAt_eq_false_iff.1 hs
  by_contra hnext
  have hleft : lineByte line j ≠ 0 := fun hz => by
    obtain ⟨-, -, -, -, hright⟩ := isolated_iff.1 (literalAt_iff.1 h hz)
    exact hright hzero
  exact hnot (isolated_iff.2 ⟨hzero, Nat.succ_pos j, hleft, hlt, hnext⟩)

end

/-! ### The runs of a line (R203's outer loop) -/

/-- The records of a line from byte `i` on: R203's loop, kept as runs. -/
def runsFrom (line : List Byte) : Nat → Nat → List Record
  | 0, _ => []
  | fuel + 1, i =>
    if i < line.length then
      if literalAt line i then
        let k := runLength (literalAt line) line.length runCap i
        .literal ((line.drop i).take k) :: runsFrom line fuel (i + k)
      else
        let k := runLength (zeroAt line) line.length runCap i
        .zeros k :: runsFrom line fuel (i + k)
    else []

/-- What the records of a line from byte `i` on are: maximal runs of literal bytes and of zeros that are not
isolated. -/
inductive Runs (line : List Byte) : Nat → List Record → Prop where
  | done {i : Nat} (atEnd : i = line.length) : Runs line i []
  | literal {i k : Nat} {rs : List Record} (pos : 1 ≤ k) (cap : k ≤ 127) (fits : i + k ≤ line.length)
      (belong : ∀ j < k, literalAt line (i + j) = true)
      (maximal : k < 127 → i + k < line.length → literalAt line (i + k) = false)
      (rest : Runs line (i + k) rs) : Runs line i (.literal ((line.drop i).take k) :: rs)
  | zeros {i k : Nat} {rs : List Record} (pos : 1 ≤ k) (cap : k ≤ 127) (fits : i + k ≤ line.length)
      (belong : ∀ j < k, literalAt line (i + j) = false)
      (maximal : k < 127 → i + k < line.length → lineByte line (i + k) ≠ 0)
      (rest : Runs line (i + k) rs) : Runs line i (.zeros k :: rs)

/-- The loop's records are such runs. -/
theorem runs_runsFrom (line : List Byte) (fuel i : Nat) (hi : i ≤ line.length) (hfuel : line.length ≤ fuel + i) :
    Runs line i (runsFrom line fuel i) := by
  induction fuel generalizing i with
  | zero =>
    exact .done (by omega)
  | succ fuel ih =>
    unfold runsFrom
    split
    next hlt =>
      split
      next hlit =>
        have hpos := runLength_pos hlt hlit
        obtain ⟨hcap, hin, hmax⟩ := runLength_spec (literalAt line) line.length runCap i
        have hend := (hin _ (Nat.sub_one_lt_of_lt hpos)).1
        exact .literal hpos hcap (by omega) (fun j hj => (hin j hj).2) hmax (ih _ (by omega) (by omega))
      next hlit =>
        rw [Bool.not_eq_true] at hlit
        have hzero := (literalAt_eq_false_iff.1 hlit).1
        have hpos := runLength_pos hlt (zeroAt_iff.2 hzero)
        obtain ⟨hcap, hin, hmax⟩ := runLength_spec (zeroAt line) line.length runCap i
        have hend := (hin _ (Nat.sub_one_lt_of_lt hpos)).1
        refine .zeros hpos hcap (by omega) (fun j hj => ?_) (fun hk hlt => zeroAt_eq_false_iff.1 (hmax hk hlt))
          (ih _ (by omega) (by omega))
        cases j with
        | zero => exact hlit
        | succ j =>
          exact literalAt_succ_of_zeros (zeroAt_iff.1 (hin j (by omega)).2) (zeroAt_iff.1 (hin (j + 1) hj).2)
    next hge =>
      exact .done (by omega)

/-- The control byte of a run of zeros (spec/30_encoding.md R89). -/
theorem zeros_control : ∀ k ≤ 127, 0x80#8 ||| BitVec.ofNat 8 k = BitVec.ofNat 8 (128 + k) := by decide

/-- The loop writes its records' bytes. -/
theorem compressFrom_eq_streamOf (line : List Byte) (fuel i : Nat) :
    compressFrom line fuel i = streamOf (runsFrom line fuel i) := by
  induction fuel generalizing i with
  | zero => rfl
  | succ fuel ih =>
    unfold compressFrom runsFrom
    split
    next hlt =>
      split
      next hlit =>
        obtain ⟨-, hin, -⟩ := runLength_spec (literalAt line) line.length runCap i
        have hend := (hin _ (Nat.sub_one_lt_of_lt (runLength_pos hlt hlit))).1
        have hlen : ((line.drop i).take (runLength (literalAt line) line.length runCap i)).length =
            runLength (literalAt line) line.length runCap i := by
          rw [List.length_take, List.length_drop]
          omega
        simp only [streamOf, List.flatMap_cons, Record.bytes, hlen, List.cons_append]
        rw [ih, streamOf]
      next hlit =>
        obtain ⟨hcap, -, -⟩ := runLength_spec (zeroAt line) line.length runCap i
        simp only [streamOf, List.flatMap_cons, Record.bytes, List.cons_append, List.nil_append, zeros_control _ hcap]
        rw [ih, streamOf]
    next => rfl

/-- The records of a whole line. -/
def lineRuns (line : List Byte) : List Record := runsFrom line line.length 0

theorem runs_lineRuns (line : List Byte) : Runs line 0 (lineRuns line) :=
  runs_runsFrom line line.length 0 (Nat.zero_le _) (Nat.le_add_right _ _)

/-- A compressed line is its runs and one end-of-line byte (R203). -/
theorem compressLine_eq (line : List Byte) : compressLine line = streamOf (lineRuns line) ++ [0x00#8] := by
  rw [compressLine, compressFrom_eq_streamOf, lineRuns]

/-! ### What the runs stand for (R204, properties 1 to 3) -/

section
variable {line : List Byte} {i : Nat} {rs : List Record}

theorem length_take_drop {k : Nat} (fits : i + k ≤ line.length) : ((line.drop i).take k).length = k := by
  rw [List.length_take, List.length_drop]
  omega

/-- Some zeros of a line are bytes of the line. -/
theorem take_eq_replicate {k : Nat} (hfits : i + k ≤ line.length) (h : ∀ j < k, lineByte line (i + j) = 0) :
    (line.drop i).take k = List.replicate k 0 := by
  rw [List.eq_replicate_iff]
  refine ⟨by rw [List.length_take, List.length_drop]; omega, fun b hb => ?_⟩
  obtain ⟨j, hj, rfl⟩ := List.mem_iff_getElem.1 hb
  rw [List.length_take, List.length_drop] at hj
  have hbyte := h j (by omega)
  rw [lineByte, List.getD_eq_getElem _ _ (by omega)] at hbyte
  rw [List.getElem_take, List.getElem_drop, hbyte]

/-- A run stands for the line's bytes in its place, and has as many. -/
theorem Runs.outputOf (h : Runs line i rs) : Machine.outputOf rs = line.drop i := by
  induction h with
  | done atEnd => simp [Machine.outputOf, atEnd]
  | @literal i k rs pos cap fits belong maximal rest ih =>
    rw [Machine.outputOf, List.flatMap_cons, ← Machine.outputOf, ih, Record.output, ← List.drop_drop,
      List.take_append_drop]
  | @zeros i k rs pos cap fits belong maximal rest ih =>
    have hzeros := take_eq_replicate fits fun j hj => (literalAt_eq_false_iff.1 (belong j hj)).1
    rw [Machine.outputOf, List.flatMap_cons, ← Machine.outputOf, ih, Record.output, ← List.drop_drop, ← hzeros,
      List.take_append_drop]

/-- Every run has a legal length and none is an end of line. -/
theorem Runs.wf (h : Runs line i rs) : ∀ r ∈ rs, r.wf = true ∧ r ≠ .eol ∧ r ≠ .zeros 0 := by
  induction h with
  | done => simp
  | literal pos cap fits belong maximal rest ih =>
    refine List.forall_mem_cons.2 ⟨?_, ih⟩
    simp [Record.wf, length_take_drop fits, pos, cap]
  | zeros pos cap fits belong maximal rest ih =>
    refine List.forall_mem_cons.2 ⟨?_, ih⟩
    simp [Record.wf, cap, Nat.one_le_iff_ne_zero.1 pos]

/-- The runs after some runs begin where those end. -/
theorem Runs.suffix {before after : List Record} (h : Runs line i (before ++ after)) :
    Runs line (i + (Machine.outputOf before).length) after := by
  induction before generalizing i with
  | nil => exact h
  | cons r before ih =>
    rw [Machine.outputOf, List.flatMap_cons, ← Machine.outputOf, List.length_append, ← Nat.add_assoc]
    cases h with
    | literal pos cap fits belong maximal rest =>
      rw [Record.output, length_take_drop fits]
      exact ih rest
    | zeros pos cap fits belong maximal rest =>
      rw [Record.output, List.length_replicate]
      exact ih rest

/-- A run below the cap is followed by a run of the other kind. -/
theorem Runs.alternate {r r' : Record} (h : Runs line i (r :: r' :: rs)) (hlt : r.output.length < 127) :
    (∃ n, r = .zeros n ∧ ∃ bs, r' = .literal bs) ∨ (∃ bs, r = .literal bs ∧ ∃ n, r' = .zeros n) := by
  cases h with
  | literal pos cap fits belong maximal rest =>
    rw [Record.output, length_take_drop fits] at hlt
    cases rest with
    | literal pos' cap' fits' belong' maximal' rest' =>
      have hliteral := belong' 0 pos'
      rw [Nat.add_zero, maximal hlt (by omega)] at hliteral
      cases hliteral
    | zeros => exact .inr ⟨_, rfl, _, rfl⟩
  | zeros pos cap fits belong maximal rest =>
    rw [Record.output, List.length_replicate] at hlt
    cases rest with
    | literal => exact .inl ⟨_, rfl, _, rfl⟩
    | zeros pos' cap' fits' belong' maximal' rest' =>
      exact absurd (literalAt_eq_false_iff.1 (belong' 0 pos')).1 (maximal hlt (by omega))

/-- A byte of the first run is literal exactly when the run is. -/
theorem Runs.literalAt_head {r : Record} (h : Runs line i (r :: rs)) {j : Nat} (hj : j < r.output.length) :
    (∃ n, r = .zeros n) ↔ literalAt line (i + j) = false := by
  cases h with
  | literal pos cap fits belong maximal rest =>
    rw [Record.output, length_take_drop fits] at hj
    simp [belong j hj]
  | zeros pos cap fits belong maximal rest =>
    rw [Record.output, List.length_replicate] at hj
    simp [belong j hj]

end

/-- Settles O52: the runs of the line. -/
theorem compressedLineIsRunsAndOneEnd : Obligations.CompressedLineIsRunsAndOneEnd := by
  intro line
  have hruns := runs_lineRuns line
  refine ⟨lineRuns line, compressLine_eq line, hruns.outputOf, hruns.wf, fun before r r' after hsplit hlt => ?_⟩
  rw [hsplit] at hruns
  exact hruns.suffix.alternate hlt

/-- Settles O53: byte `j` of a run stands at its place in the line, and there the run's kind says whether it is
literal. -/
theorem isolatedZerosStayLiteral : Obligations.IsolatedZerosStayLiteral := by
  intro line
  have hruns := runs_lineRuns line
  refine ⟨lineRuns line, compressLine_eq line, hruns.outputOf, fun r hr => ?_, ?_⟩
  · obtain ⟨hwf, heol, -⟩ := hruns.wf r hr
    exact ⟨hwf, heol⟩
  · rintro before r after hsplit j hj k rfl
    rw [hsplit] at hruns
    have hkind := hruns.suffix.literalAt_head hj
    rw [Nat.zero_add, literalAt_eq_false_iff] at hkind
    rw [hkind, isolated_iff]
    refine and_congr_right fun hzero => not_congr ?_
    change lineByte line _ = 0 at hzero
    simp only [lineByte] at hzero ⊢
    tauto

/-! ### How long the runs are (R204, property 4) -/

section
variable {line : List Byte} {i : Nat} {rs : List Record}

theorem streamOf_literal_length {k : Nat} (fits : i + k ≤ line.length) (rs : List Record) :
    (streamOf (.literal ((line.drop i).take k) :: rs)).length = k + 1 + (streamOf rs).length := by
  rw [streamOf, List.flatMap_cons, ← streamOf, Record.bytes, List.length_append, List.length_cons,
    length_take_drop fits]

theorem streamOf_zeros_length (k : Nat) (rs : List Record) :
    (streamOf (.zeros k :: rs)).length = 1 + (streamOf rs).length := by
  rw [streamOf, List.flatMap_cons, ← streamOf, Record.bytes, List.length_append, List.length_singleton]

/-- The length of some runs' bytes: at most one control byte for every 127 bytes begun; after a literal byte, runs that
begin with zeros save one more. -/
theorem Runs.length_le (h : Runs line i rs) :
    (streamOf rs).length ≤ line.length - i + (line.length - i + 126) / 127 ∧
      ((∃ p, i = p + 1 ∧ literalAt line p = true) → (i < line.length → literalAt line i = false) →
        (streamOf rs).length + 1 ≤ line.length - i + (line.length - i + 127) / 127) := by
  induction h with
  | done atEnd => simp [streamOf, atEnd]
  | @literal i k rs pos cap fits belong maximal rest ih =>
    obtain ⟨hle, hsave⟩ := ih
    have hlen := streamOf_literal_length fits rs
    refine ⟨?_, fun _ hzero => ?_⟩
    · rw [hlen]
      rcases Nat.lt_or_ge k 127 with hk | hk
      · have hsaved := hsave ⟨i + k - 1, by omega, by
          simpa [Nat.add_sub_assoc pos] using belong (k - 1) (by omega)⟩ (maximal hk)
        omega
      · omega
    · have hfirst := hzero (by omega)
      have hlit := belong 0 pos
      rw [Nat.add_zero, hfirst] at hlit
      cases hlit
  | @zeros i k rs pos cap fits belong maximal rest ih =>
    obtain ⟨hle, -⟩ := ih
    rw [streamOf_zeros_length]
    refine ⟨by omega, ?_⟩
    rintro ⟨p, rfl, hlit⟩ hzero
    rcases Nat.lt_or_ge 1 k with hk | hk
    · omega
    · obtain rfl : k = 1 := by omega
      have hend : ¬ p + 1 + 1 < line.length := fun hlt =>
        maximal (by omega) hlt (lineByte_of_zero_after_literal hlit (hzero (by omega)) hlt)
      omega

/-- Where no byte is zero the bound is reached. -/
theorem Runs.length_eq (h : Runs line i rs) (hline : ∀ b ∈ line, b ≠ 0) :
    (streamOf rs).length = line.length - i + (line.length - i + 126) / 127 := by
  have hliteral {j : Nat} (hj : j < line.length) : ¬ literalAt line j = false := fun hfalse => by
    have hzero := (literalAt_eq_false_iff.1 hfalse).1
    rw [lineByte, List.getD_eq_getElem _ _ hj] at hzero
    exact hline _ (List.getElem_mem hj) hzero
  induction h with
  | done atEnd => simp [streamOf, atEnd]
  | @literal i k rs pos cap fits belong maximal rest ih =>
    have hlen := streamOf_literal_length fits rs
    rw [hlen, ih]
    rcases Nat.lt_or_ge k 127 with hk | hk
    · have hend : ¬ i + k < line.length := fun hlt => hliteral hlt (maximal hk hlt)
      omega
    · omega
  | zeros pos cap fits belong => exact absurd (belong 0 pos) (hliteral (by omega))

end

/-- Settles O54: the line's runs keep the bound, and the end of line is one byte more. -/
theorem compressedLineLengthBound : Obligations.CompressedLineLengthBound := by
  intro line
  have hruns := runs_lineRuns line
  rw [compressLine_eq, List.length_append, List.length_singleton]
  exact ⟨Nat.add_le_add_right hruns.length_le.1 1, fun hline => congrArg (· + 1) (hruns.length_eq hline)⟩

end Sys2Proof.Machine
end

section
/-! SUPPORT. ETRLE decompression (spec/43_etrle.md R206): the loop record by record (spec/30_encoding.md R89), the round
trip of compressed lines (R204, property 5) and the two commands (R205, R207). -/

namespace Sys2Proof.Machine

/-! ### One record (R206) -/

/-- What a record does to the running values of R206's loop (tied to the model by `decompressFrom_record`). -/
def decodeRecord (width : Nat) (d : Decoded) : Record → Decoded
  | .eol => endLine width d
  | .literal bytes => appendRun d bytes
  | .zeros n => appendRun d (List.replicate n 0)

/-- A literal run's control byte: its length, and bit 7 clear. -/
theorem control_literal : ∀ n ≤ 127, (BitVec.ofNat 8 n).getLsbD 7 = false ∧
    ((BitVec.ofNat 8 n).extractLsb' 0 7).toNat = n ∧ (1 ≤ n → BitVec.ofNat 8 n ≠ 0) := by decide

/-- A run of zeros' control byte: its length, and bit 7 set. -/
theorem control_zeros : ∀ n ≤ 127, (BitVec.ofNat 8 (128 + n)).getLsbD 7 = true ∧
    ((BitVec.ofNat 8 (128 + n)).extractLsb' 0 7).toNat = n ∧ BitVec.ofNat 8 (128 + n) ≠ 0 := by decide

section
variable {cap width fuel p : Nat} {rest : List Byte} {d : Decoded}

@[simp] theorem decompressFrom_nil : decompressFrom cap width fuel p [] d = .ok d := by
  cases fuel <;> rfl

theorem decompressFrom_eol : decompressFrom cap width (fuel + 1) p (0 :: rest) d =
    decompressFrom cap width fuel (p + 1) rest (endLine width d) := by
  rw [decompressFrom, if_pos rfl]

theorem decompressFrom_zeros {n : Nat} (hn : n ≤ 127) :
    decompressFrom cap width (fuel + 1) p (BitVec.ofNat 8 (128 + n) :: rest) d =
      if cap < d.out.length + n then .error ⟨.outputOverflow, BitVec.ofNat 32 p⟩
      else decompressFrom cap width fuel (p + 1) rest (appendRun d (List.replicate n 0)) := by
  obtain ⟨hbit, hlow, hne⟩ := control_zeros n hn
  rw [decompressFrom, if_neg hne, if_pos hbit, hlow]

theorem decompressFrom_literal {n : Nat} (hpos : 1 ≤ n) (hn : n ≤ 127) :
    decompressFrom cap width (fuel + 1) p (BitVec.ofNat 8 n :: rest) d =
      if rest.length < n then .error ⟨.malformedRun, BitVec.ofNat 32 p⟩
      else if cap < d.out.length + n then .error ⟨.outputOverflow, BitVec.ofNat 32 p⟩
      else decompressFrom cap width fuel (p + 1 + n) (rest.drop n) (appendRun d (rest.take n)) := by
  obtain ⟨hbit, hlow, hne⟩ := control_literal n hn
  rw [decompressFrom, if_neg (hne hpos), hbit, if_neg Bool.false_ne_true, hlow]

theorem wf_literal {bytes : List Byte} (h : (Record.literal bytes).wf = true) :
    1 ≤ bytes.length ∧ bytes.length ≤ 127 := by
  simpa [Record.wf] using h

theorem wf_zeros {n : Nat} (h : (Record.zeros n).wf = true) : n ≤ 127 := by
  simpa [Record.wf] using h

/-- A record within the budget is decoded. -/
theorem decompressFrom_record {r : Record} (hwf : r.wf = true) (hcap : d.out.length + r.output.length ≤ cap) :
    decompressFrom cap width (fuel + 1) p (r.bytes ++ rest) d =
      decompressFrom cap width fuel (p + r.bytes.length) rest (decodeRecord width d r) := by
  cases r with
  | eol => exact decompressFrom_eol
  | literal bytes =>
    obtain ⟨hpos, hle⟩ := wf_literal hwf
    rw [Record.bytes, List.cons_append, decompressFrom_literal hpos hle, if_neg (by simp), if_neg (by
      simpa [Record.output] using hcap), List.drop_left, List.take_left, List.length_cons, decodeRecord]
    congr 1
    omega
  | zeros n =>
    rw [Record.bytes, List.singleton_append, decompressFrom_zeros (wf_zeros hwf), if_neg (by
      simpa [Record.output] using hcap), List.length_singleton, decodeRecord]

/-- A record past the budget is reported, once its bytes are all there. -/
theorem decompressFrom_overflow {r : Record} (hwf : r.wf = true) (hd : d.out.length ≤ cap)
    (hcap : cap < d.out.length + r.output.length) :
    decompressFrom cap width (fuel + 1) p (r.bytes ++ rest) d = .error ⟨.outputOverflow, BitVec.ofNat 32 p⟩ := by
  cases r with
  | eol => exact absurd hcap (by simpa [Record.output] using hd)
  | literal bytes =>
    obtain ⟨hpos, hle⟩ := wf_literal hwf
    rw [Record.output] at hcap
    rw [Record.bytes, List.cons_append, decompressFrom_literal hpos hle, if_neg (by simp), if_pos hcap]
  | zeros n =>
    rw [Record.output, List.length_replicate] at hcap
    rw [Record.bytes, List.singleton_append, decompressFrom_zeros (wf_zeros hwf), if_pos hcap]

end

/-! ### Some records -/

/-- The running values after some records (tied to the model by `decompressFrom_records`). -/
def decodeRecords (width : Nat) (d : Decoded) (rs : List Record) : Decoded := rs.foldl (decodeRecord width) d

@[simp] theorem decodeRecords_nil (width : Nat) (d : Decoded) : decodeRecords width d [] = d := rfl

@[simp] theorem decodeRecords_cons (width : Nat) (d : Decoded) (r : Record) (rs : List Record) :
    decodeRecords width d (r :: rs) = decodeRecords width (decodeRecord width d r) rs := rfl

@[simp] theorem streamOf_nil : streamOf [] = [] := rfl

@[simp] theorem streamOf_cons (r : Record) (rs : List Record) : streamOf (r :: rs) = r.bytes ++ streamOf rs := rfl

@[simp] theorem outputOf_nil : outputOf [] = [] := rfl

@[simp] theorem outputOf_cons (r : Record) (rs : List Record) : outputOf (r :: rs) = r.output ++ outputOf rs := rfl

theorem decodeRecord_out (width : Nat) (d : Decoded) (r : Record) :
    (decodeRecord width d r).out = d.out ++ r.output := by
  cases r with
  | eol => exact (List.append_nil d.out).symm
  | literal | zeros => rfl

theorem decodeRecords_out (width : Nat) (d : Decoded) (rs : List Record) :
    (decodeRecords width d rs).out = d.out ++ outputOf rs := by
  induction rs generalizing d with
  | nil => simp
  | cons r rs ih => rw [decodeRecords_cons, ih, decodeRecord_out, outputOf_cons, List.append_assoc]

theorem decodeRecords_lines (width : Nat) (d : Decoded) (rs : List Record) :
    (decodeRecords width d rs).lines = d.lines + rs.count .eol := by
  induction rs generalizing d with
  | nil => rfl
  | cons r rs ih =>
    rw [decodeRecords_cons, ih]
    cases r with
    | eol =>
      rw [List.count_cons_self, Nat.add_comm _ 1, ← Nat.add_assoc]
      rfl
    | literal | zeros => simp [decodeRecord, appendRun]

theorem decodeRecords_lenmis (width : Nat) (d : Decoded) (rs : List Record) :
    (decodeRecords width d rs).lenmis =
      (d.lenmis || (width != 0 && (endedLengths d.cur rs).any (fun n => n != width))) := by
  induction rs generalizing d with
  | nil => simp [endedLengths]
  | cons r rs ih =>
    rw [decodeRecords_cons, ih]
    cases r with
    | eol => simp [decodeRecord, endLine, endedLengths, Bool.or_assoc, Bool.and_or_distrib_left]
    | literal | zeros => simp [decodeRecord, appendRun, endedLengths, Record.output]

theorem decodeRecords_unterm (width : Nat) {d : Decoded} (rs : List Record) (hd : d.lastEol = true) :
    (decodeRecords width d rs).unterm = unterminated rs := by
  cases rs using List.reverseRecOn with
  | nil => simp [Decoded.unterm, unterminated, hd]
  | append_singleton rs r =>
    rw [decodeRecords, List.foldl_append, List.foldl_cons, List.foldl_nil, unterminated, List.getLast?_concat]
    cases r <;> rfl

/-- R206's loop over some records within the budget: each takes one round. -/
theorem decompressFrom_records {cap width fuel p : Nat} {rs : List Record} {rest : List Byte} {d : Decoded}
    (hwf : ∀ r ∈ rs, r.wf = true) (hcap : d.out.length + (outputOf rs).length ≤ cap) :
    decompressFrom cap width (rs.length + fuel) p (streamOf rs ++ rest) d =
      decompressFrom cap width fuel (p + (streamOf rs).length) rest (decodeRecords width d rs) := by
  induction rs generalizing p d with
  | nil => simp
  | cons r rs ih =>
    obtain ⟨hr, hrs⟩ := List.forall_mem_cons.1 hwf
    rw [outputOf_cons, List.length_append, ← Nat.add_assoc] at hcap
    rw [List.length_cons, Nat.add_right_comm, streamOf_cons, List.append_assoc,
      decompressFrom_record hr (by omega), ih hrs (by rw [decodeRecord_out, List.length_append]; exact hcap),
      List.length_append, Nat.add_assoc, decodeRecords_cons]

/-- Every record has a control byte. -/
theorem Record.bytes_length_pos (r : Record) : 1 ≤ r.bytes.length := by
  cases r <;> simp [Record.bytes]

theorem length_le_streamOf (rs : List Record) : rs.length ≤ (streamOf rs).length := by
  induction rs with
  | nil => exact le_rfl
  | cons r rs ih =>
    have hpos := r.bytes_length_pos
    rw [streamOf_cons, List.length_append, List.length_cons]
    omega

section
variable {rs : List Record} {cap : Nat} (hwf : ∀ r ∈ rs, r.wf = true) (hcap : (outputOf rs).length ≤ cap) (width : Nat)
include hwf hcap

/-- A stream that begins with some records within the budget: the loop comes to the rest with a round to spare for each
of its bytes. -/
theorem decompressStream_append (rest : List Byte) : ∃ fuel, rest.length ≤ fuel ∧
    decompressStream (streamOf rs ++ rest) cap width =
      decompressFrom cap width fuel (streamOf rs).length rest (decodeRecords width decodedNothing rs) := by
  have hle := length_le_streamOf rs
  refine ⟨(streamOf rs).length - rs.length + rest.length, by omega, ?_⟩
  have hfuel : (streamOf rs ++ rest).length = rs.length + ((streamOf rs).length - rs.length + rest.length) := by
    rw [List.length_append]
    omega
  rw [decompressStream, hfuel, decompressFrom_records hwf (by simpa [decodedNothing] using hcap), Nat.zero_add]

/-- A stream of records within the budget is decoded (R206). -/
theorem decompressStream_records :
    decompressStream (streamOf rs) cap width = .ok (decodeRecords width decodedNothing rs) := by
  obtain ⟨fuel, -, h⟩ := decompressStream_append hwf hcap width []
  rw [List.append_nil, decompressFrom_nil] at h
  exact h

theorem decompressStream_malformed {c : Byte} {rest : List Byte} (hpos : 1 ≤ c.toNat) (hc : c.toNat ≤ 127)
    (hshort : rest.length < c.toNat) : decompressStream (streamOf rs ++ c :: rest) cap width =
      .error ⟨.malformedRun, BitVec.ofNat 32 (streamOf rs).length⟩ := by
  obtain ⟨fuel, hfuel, h⟩ := decompressStream_append hwf hcap width (c :: rest)
  rw [List.length_cons] at hfuel
  obtain ⟨fuel, rfl⟩ := Nat.exists_eq_add_one_of_ne_zero (n := fuel) (by omega)
  have hcontrol : c = BitVec.ofNat 8 c.toNat := by simp
  rw [h, hcontrol, decompressFrom_literal hpos hc, if_pos hshort]

theorem decompressStream_overflow {r : Record} (rest : List Byte) (hr : r.wf = true)
    (hover : cap < (outputOf rs).length + r.output.length) :
    decompressStream (streamOf rs ++ (r.bytes ++ rest)) cap width =
      .error ⟨.outputOverflow, BitVec.ofNat 32 (streamOf rs).length⟩ := by
  obtain ⟨fuel, hfuel, h⟩ := decompressStream_append hwf hcap width (r.bytes ++ rest)
  have hpos := r.bytes_length_pos
  rw [List.length_append] at hfuel
  obtain ⟨fuel, rfl⟩ := Nat.exists_eq_add_one_of_ne_zero (n := fuel) (by omega)
  have hout : (decodeRecords width decodedNothing rs).out = outputOf rs := decodeRecords_out _ _ _
  rw [h, decompressFrom_overflow hr (by rwa [hout]) (by rwa [hout])]

end

/-! ### Compressed lines (R204, property 5) -/

/-- The records of some lines: each line's runs and its end of line. -/
def linesRecords (ls : List (List Byte)) : List Record := ls.flatMap (fun line => lineRuns line ++ [.eol])

@[simp] theorem linesRecords_cons (line : List Byte) (ls : List (List Byte)) :
    linesRecords (line :: ls) = lineRuns line ++ .eol :: linesRecords ls := by
  simp [linesRecords]

theorem streamOf_append (rs rs' : List Record) : streamOf (rs ++ rs') = streamOf rs ++ streamOf rs' :=
  List.flatMap_append

theorem outputOf_append (rs rs' : List Record) : outputOf (rs ++ rs') = outputOf rs ++ outputOf rs' :=
  List.flatMap_append

theorem streamOf_linesRecords (ls : List (List Byte)) : streamOf (linesRecords ls) = ls.flatMap compressLine := by
  induction ls with
  | nil => rfl
  | cons line ls ih =>
    rw [linesRecords_cons, streamOf_append, streamOf_cons, ih, List.flatMap_cons, compressLine_eq, List.append_assoc]
    rfl

theorem outputOf_lineRuns (line : List Byte) : outputOf (lineRuns line) = line := (runs_lineRuns line).outputOf

theorem outputOf_linesRecords (ls : List (List Byte)) : outputOf (linesRecords ls) = ls.flatten := by
  induction ls with
  | nil => rfl
  | cons line ls ih =>
    rw [linesRecords_cons, outputOf_append, outputOf_cons, ih, outputOf_lineRuns, List.flatten_cons]
    rfl

theorem wf_linesRecords (ls : List (List Byte)) : ∀ r ∈ linesRecords ls, r.wf = true := by
  intro r hr
  obtain ⟨line, -, hr⟩ := List.mem_flatMap.1 hr
  rcases List.mem_append.1 hr with hrun | heol
  · exact ((runs_lineRuns line).wf r hrun).1
  · obtain rfl := List.mem_singleton.1 heol
    rfl

theorem eol_not_mem_lineRuns (line : List Byte) : .eol ∉ lineRuns line := fun h => by
  obtain ⟨-, hne, -⟩ := (runs_lineRuns line).wf _ h
  exact hne rfl

theorem count_eol_linesRecords (ls : List (List Byte)) : (linesRecords ls).count .eol = ls.length := by
  induction ls with
  | nil => rfl
  | cons line ls ih =>
    rw [linesRecords_cons, List.count_append, List.count_eq_zero.2 (eol_not_mem_lineRuns line), List.count_cons_self,
      ih, List.length_cons, Nat.zero_add]

theorem unterminated_linesRecords (ls : List (List Byte)) : unterminated (linesRecords ls) = false := by
  cases ls using List.reverseRecOn with
  | nil => rfl
  | append_singleton ls line =>
    rw [linesRecords, List.flatMap_append, List.flatMap_singleton, ← List.append_assoc, unterminated,
      List.getLast?_concat]
    rfl

/-- Runs before an end of line make up the line it ends. -/
theorem endedLengths_append_eol {rs : List Record} (h : .eol ∉ rs) (cur : Nat) (rs' : List Record) :
    endedLengths cur (rs ++ .eol :: rs') = (cur + (outputOf rs).length) :: endedLengths 0 rs' := by
  induction rs generalizing cur with
  | nil => rfl
  | cons r rs ih =>
    rw [List.mem_cons, not_or] at h
    obtain ⟨hne, hrs⟩ := h
    rw [outputOf_cons, List.length_append, ← Nat.add_assoc, ← ih hrs]
    cases r with
    | eol => exact absurd rfl hne
    | literal | zeros => rfl

theorem endedLengths_linesRecords (ls : List (List Byte)) : endedLengths 0 (linesRecords ls) = ls.map List.length := by
  induction ls with
  | nil => rfl
  | cons line ls ih =>
    rw [linesRecords_cons, endedLengths_append_eol (eol_not_mem_lineRuns line), outputOf_lineRuns, ih, List.map_cons,
      Nat.zero_add]

/-- Settles O55: the compressed lines are the stream of their records, which decode to the lines. -/
theorem decompressOfCompressIsTheLines : Obligations.DecompressOfCompressIsTheLines := by
  intro ls cap width hcap hwidth
  rw [← outputOf_linesRecords] at hcap
  refine ⟨decodeRecords width decodedNothing (linesRecords ls), ?_, ?_, ?_, ?_, ?_⟩
  · rw [← streamOf_linesRecords, decompressStream_records (wf_linesRecords ls) hcap]
  · exact (decodeRecords_out _ _ _).trans (outputOf_linesRecords ls)
  · rw [decodeRecords_lines, count_eol_linesRecords]
    exact Nat.zero_add _
  · rw [decodeRecords_unterm _ _ rfl, unterminated_linesRecords]
  · rw [decodeRecords_lenmis]
    change (false || (width != 0 && (endedLengths 0 (linesRecords ls)).any fun n => n != width)) = false
    rw [endedLengths_linesRecords]
    rcases hwidth with rfl | hlen
    · rfl
    · simpa using fun _ => hlen

/-! ### ETRLE_COMPRESS (R205) -/

section
variable {s : State} (hsrc : SrcFits s) (hdst : DstFits s)
include hsrc hdst

theorem compressChecks_of_short_input
    (h : s.captured.srcLen.toNat < s.captured.lineLen.toNat * s.captured.lineCnt.toNat) :
    firstError (compressChecks s.captured s.ibufSize s.obufSize) =
      some ⟨.truncatedInput, sat32 (s.captured.lineLen.toNat * s.captured.lineCnt.toNat)⟩ := by
  rw [compressChecks, firstError_append, windowChecks_of_fits hsrc hdst, checkInput_of_lt h, Option.none_or,
    firstError_some]

theorem compressChecks_of_fits (h : s.captured.lineLen.toNat * s.captured.lineCnt.toNat ≤ s.captured.srcLen.toNat) :
    firstError (compressChecks s.captured s.ibufSize s.obufSize) = none := by
  rw [compressChecks, firstError_append, windowChecks_of_fits hsrc hdst, (checkInput_eq_none _ _).2 h, Option.none_or]
  rfl

end

/-- Settles O56: the checks pass, and the compressed lines are the only output. -/
theorem etrleCompressWritesTheLines : Obligations.EtrleCompressWritesTheLines := by
  intro s out hsrc hdst hin hout hcap
  obtain rfl : out = compressedLines s.captured := hout
  have hpass : firstError [checkOutput s.captured (compressedLines s.captured).length] = none := by
    rw [(checkOutput_eq_none _ _).2 hcap]
    rfl
  refine ⟨_, exec_etrleCompress_of_pass (compressChecks_of_fits hsrc hdst hin), ?_, ?_, ?_⟩ <;>
    rw [State.conclude_of_pass hpass]
  · exact State.succeed_obuf_only s _
  · exact Memory.obufBytes_writeBytes _ _ _
  · exact State.sameOutside_succeed s _

/-- Settles O57: the input check fails, or it passes and the output check fails. -/
theorem etrleCompressReportsTheSizeNeeded : Obligations.EtrleCompressReportsTheSizeNeeded := by
  intro s hsrc hdst
  refine ⟨fun h => exec_etrleCompress_of_error (compressChecks_of_short_input hsrc hdst h), fun hin h => ?_⟩
  rw [exec_etrleCompress_of_pass (compressChecks_of_fits hsrc hdst hin), checkOutput_of_lt h]
  rfl

/-! ### ETRLE_DECOMPRESS (R207) -/

/-- Settles O58: the stream is the records', which decode within the budget. -/
theorem etrleDecompressDecodesAnyRecords : Obligations.EtrleDecompressDecodesAnyRecords := by
  intro s rs hsrc hdst hwf hstream hcap
  obtain ⟨d, hd⟩ : ∃ d, decodeRecords s.captured.lineLen.toNat decodedNothing rs = d := ⟨_, rfl⟩
  have hdecode : decompressStream (srcBytes s.captured 0 s.captured.srcLen.toNat) s.captured.dstCap.toNat
      s.captured.lineLen.toNat = .ok d := by
    rw [srcBytes, Nat.add_zero, hstream, decompressStream_records hwf hcap, hd]
  have hout : d.out = outputOf rs := hd ▸ decodeRecords_out _ _ _
  have hlines : d.lines = rs.count .eol := by rw [← hd, decodeRecords_lines]; exact Nat.zero_add _
  have hunterm : d.unterm = unterminated rs := hd ▸ decodeRecords_unterm _ _ rfl
  have hlenmis : d.lenmis = (s.captured.lineLen != 0 &&
      (endedLengths 0 rs).any (fun n => n != s.captured.lineLen.toNat)) := by
    have hzero : (s.captured.lineLen.toNat != 0) = (s.captured.lineLen != 0) := by
      rw [Bool.eq_iff_iff, bne_iff_ne, bne_iff_ne, Ne, Ne, BitVec.toNat_eq]
      rfl
    rw [← hd, decodeRecords_lenmis, ← hzero]
    exact Bool.false_or _
  refine ⟨_, exec_etrleDecompress_of_ok (windowChecks_of_fits hsrc hdst) hdecode, ?_, ?_, ?_⟩
  · rw [← hout, ← hlines, ← hunterm, ← hlenmis]
    rfl
  · rw [← hout]
    exact Memory.obufBytes_writeBytes _ _ _
  · rw [← hout]
    exact fun a ha => Memory.obufByte_writeBytes_outside _ _ _ a ha

/-- Settles O59: the loop comes to the control byte at fault, and it is a literal run cut short or a run past the
budget. -/
theorem etrleDecompressReportsTheFirstFault : Obligations.EtrleDecompressReportsTheFirstFault := by
  intro s rs rest hsrc hdst hwf hcap
  have hfault {stream : List Byte} {e : Err}
      (hstream : s.captured.ibuf.ibufBytes s.captured.srcOff.toNat s.captured.srcLen.toNat = stream)
      (h : decompressStream stream s.captured.dstCap.toNat s.captured.lineLen.toNat = .error e) :
      exec .etrleDecompress s = .next (s.ended 0 e.code e.info) := by
    refine (exec_etrleDecompress_of_fault (windowChecks_of_fits hsrc hdst) ?_).trans (by rw [State.fail_eq_ended])
    rw [srcBytes, Nat.add_zero, hstream, h]
  exact ⟨fun c hpos hc hshort hstream => hfault hstream (decompressStream_malformed hwf hcap _ hpos hc hshort),
    fun r hr hover hstream => hfault hstream (decompressStream_overflow hwf hcap _ rest hr hover)⟩

/-! ### The round trip of the two commands (R208) -/

/-- Equal parts of IBUF, one after the other, are one part. -/
theorem Memory.flatten_ibufBytes (m : Memory) (off k n : Nat) :
    ((List.range n).map (fun r => m.ibufBytes (off + r * k) k)).flatten = m.ibufBytes off (k * n) := by
  induction n with
  | zero => rfl
  | succ n ih =>
    rw [List.range_succ, List.map_append, List.flatten_append, ih, Nat.mul_succ, Memory.ibufBytes, Memory.ibufBytes,
      List.range_add, List.map_append, List.map_map]
    simp [Memory.ibufBytes, Nat.mul_comm, Nat.add_assoc, Function.comp_def]

/-- The lines that ETRLE_COMPRESS reads (R205). -/
def sourceLines (o : Operands) : List (List Byte) :=
  (List.range o.lineCnt.toNat).map (fun r => o.ibuf.ibufBytes (o.srcOff.toNat + r * o.lineLen.toNat) o.lineLen.toNat)

theorem compressedLines_eq (o : Operands) : compressedLines o = (sourceLines o).flatMap compressLine := by
  rw [sourceLines, List.flatMap_map]
  rfl

theorem sourceLines_flatten (o : Operands) :
    (sourceLines o).flatten = o.ibuf.ibufBytes o.srcOff.toNat (o.lineLen.toNat * o.lineCnt.toNat) :=
  Memory.flatten_ibufBytes _ _ _ _

theorem sourceLines_length (o : Operands) : (sourceLines o).length = o.lineCnt.toNat := by
  rw [sourceLines, List.length_map, List.length_range]

theorem length_of_mem_sourceLines {o : Operands} : ∀ l ∈ sourceLines o, l.length = o.lineLen.toNat := by
  intro l hl
  obtain ⟨r, -, rfl⟩ := List.mem_map.1 hl
  exact Memory.ibufBytes_length _ _ _

/-- OBUF after a success, from DST_OFF on: OUT_LEN is the number of bytes written, and there they stand. -/
theorem State.obufBytes_succeed {s : State} {w : Writes} (h : w.obuf.length ≤ s.captured.dstCap.toNat) :
    (s.succeed w).obuf.obufBytes s.captured.dstOff.toNat (s.succeed w).outLen.toNat = w.obuf := by
  have hlt := s.captured.dstCap.isLt
  rw [State.succeed_outLen, BitVec.toNat_ofNat, Nat.mod_eq_of_lt (by omega), State.succeed_obuf,
    Memory.obufBytes_writeBytes]

/-- What a successful ETRLE_COMPRESS wrote. -/
theorem obufBytes_of_etrleCompress {s t : State} (h : exec .etrleCompress s = .next t) (herr : t.errcode = .none) :
    t.obuf.obufBytes s.captured.dstOff.toNat t.outLen.toNat = (sourceLines s.captured).flatMap compressLine := by
  rcases execEtrleCompress_cases s with ⟨e, he, hfail⟩ | ⟨-, hlen, hok⟩
  · obtain rfl : s.fail e = t := Host.Outcome.next.inj (hfail.symm.trans h)
    exact absurd herr he
  · obtain rfl := Host.Outcome.next.inj (hok.symm.trans h)
    rw [State.obufBytes_succeed hlen, compressedLines_eq]

/-- Settles O60: the source window holds the compressed lines, which decompress to the lines (O55). -/
theorem decompressAfterCompressRestoresTheLines : Obligations.DecompressAfterCompressRestoresTheLines := by
  intro s t u hcompress herr hsrc hdst hwindow hwidth hcap
  have hlen : (sourceLines s.captured).flatten.length ≤ u.captured.dstCap.toNat := by
    rwa [sourceLines_flatten, Memory.ibufBytes_length]
  have hwidths : u.captured.lineLen.toNat = 0 ∨
      ∀ l ∈ sourceLines s.captured, l.length = u.captured.lineLen.toNat := by
    rcases hwidth with h | h
    · exact .inr (h ▸ length_of_mem_sourceLines)
    · exact .inl (by rw [h]; rfl)
  obtain ⟨d, hdecode, hout, hlines, hunterm, hlenmis⟩ :=
    decompressOfCompressIsTheLines (sourceLines s.captured) _ _ hlen hwidths
  rw [← obufBytes_of_etrleCompress hcompress herr, ← hwindow] at hdecode
  refine ⟨_, exec_etrleDecompress_of_ok (windowChecks_of_fits hsrc hdst) hdecode, rfl, ?_, hunterm, hlenmis, ?_⟩
  · change BitVec.ofNat 32 d.lines = _
    rw [hlines, sourceLines_length, BitVec.ofNat_toNat, BitVec.setWidth_eq]
  · have hfits : (decompressWrites d).obuf.length ≤ u.captured.dstCap.toNat := by
      rw [decompressWrites, hout]
      exact hlen
    rw [State.obufBytes_succeed hfits, ← sourceLines_flatten, ← hout]
    rfl

end Sys2Proof.Machine
end
